-- ==== Sys2Proof/Word.lean ====
section
/-! DEFINITION. Word.lean: the machine's plain data widths (spec R9, R10, R39). -/

namespace Sys2Proof

/-- A register, header field or window position as software sees it: 32 bits (R9). -/
abbrev Word := BitVec 32

/-- A byte of IN, OUT or the stream: 8 bits, unsigned (R10). -/
abbrev Byte := BitVec 8

/-- An arena slot, 0..4095 (R39). -/
abbrev Slot := Fin 4096

end Sys2Proof
end

