-- ==== Sys2Proof/Syntax.lean ====
section
/-! DEFINITION. Syntax.lean: one constructor per row of spec/opcode_table.json. -/

namespace Sys2Proof

/-- The encoding space an instruction's bits are read in. Command words come from CMD (R85); the four
stream forms come from IN, and which of them the next bytes are is told by where the decoder stands
(R89, R91, R98), not by the bytes. -/
inductive Space where
  /-- A 32-bit word written to CMD (R85). -/
  | command
  /-- The 8 bytes at IN address 0 (R90). -/
  | header
  /-- The next byte, when no group is open: DEC_BIT = 8 (R91). -/
  | control
  /-- The next byte, when the group's next control bit is 1 (R93). -/
  | literal
  /-- The next two bytes, when the group's next control bit is 0 (R94). -/
  | reference
  deriving DecidableEq, Repr

/-- The instructions: the sixteen commands of R86, the illegal command words of R88, and the four forms
of the compressed stream (R90, R91, R93, R94). The operand of MF_INSERT, MF_REMOVE, MF_ADVANCE and
MF_READ_NODE is not in the word: it is read from ARG (R85, R87). -/
inductive Instr where
  | nop
  | clearErr
  | mfClear
  | mfInit
  | mfInsert
  | mfRemove
  | mfAdvance
  | mfSearch
  | mfReadNode
  | encStart
  | encStep
  | encFinish
  | compress
  | decStart
  | decStep
  | decompress
  /-- A command word that is no command (R88). -/
  | illegal (w : Word)
  /-- The stream header: total compressed size, uncompressed size (R90). -/
  | streamHeader (csize usize : Word)
  /-- A control byte: bit k is 1 when item k of its group is a literal (R91). -/
  | streamCtrl (bits : Byte)
  /-- A literal item (R93). -/
  | lit (v : Byte)
  /-- A reference item: the 12-bit offset field and the length code, length - 3 (R94). -/
  | ref (off : BitVec 12) (lc : BitVec 4)
  deriving DecidableEq, Repr

/-- The space an instruction's encoding belongs to. -/
def Instr.space : Instr → Space
  | .nop | .clearErr | .mfClear | .mfInit | .mfInsert | .mfRemove | .mfAdvance | .mfSearch
  | .mfReadNode | .encStart | .encStep | .encFinish | .compress | .decStart | .decStep
  | .decompress | .illegal _ => .command
  | .streamHeader _ _ => .header
  | .streamCtrl _ => .control
  | .lit _ => .literal
  | .ref _ _ => .reference

end Sys2Proof
end

