-- ==== Sys2Proof/WellFormed.lean ====
section
/-! DEFINITION. WellFormed.lean: which terms of `Instr` stand for bits the spec gives a form. -/

namespace Sys2Proof

/-- R85, R88: a command word is illegal when bits 31:8 are not all zero, or its opcode is 0x10..0xFF. -/
def illegalWord (w : Word) : Bool :=
  w.extractLsb' 8 24 != 0 || 16 ≤ (w.extractLsb' 0 8).toNat

/-- Only `illegal w` can be ill formed: when w is the word of a command. Every field value of the
stream forms is well formed (R97). -/
def Instr.wellFormed : Instr → Bool
  | .illegal w => illegalWord w
  | .nop | .clearErr | .mfClear | .mfInit | .mfInsert | .mfRemove | .mfAdvance | .mfSearch
  | .mfReadNode | .encStart | .encStep | .encFinish | .compress | .decStart | .decStep
  | .decompress | .streamHeader _ _ | .streamCtrl _ | .lit _ | .ref _ _ => true

end Sys2Proof
end

