-- ==== Sys2Proof/Decode.lean ====
section
/-! DEFINITION. Decode.lean: bits to instructions, total on any bytes, and the encoder written from the
same tables (R85 to R98). -/

namespace Sys2Proof

/-- Four bytes, lowest address first, as a 32-bit little-endian integer (R64, R69, R70; log 15). -/
def leWord (b0 b1 b2 b3 : Byte) : Word := b3 ++ b2 ++ b1 ++ b0

/-- The bytes of a 32-bit integer, lowest address first (R64, R69, R70). -/
def leBytes (w : Word) : List Byte :=
  [w.extractLsb' 0 8, w.extractLsb' 8 8, w.extractLsb' 16 8, w.extractLsb' 24 8]

/-- The command a word written to CMD stands for (R85, R86), `illegal` for every other word (R88). -/
def decodeCommand (w : Word) : Instr :=
  if illegalWord w then .illegal w else
  match (w.extractLsb' 0 8).toNat with
  | 0x00 => .nop
  | 0x01 => .clearErr
  | 0x02 => .mfClear
  | 0x03 => .mfInit
  | 0x04 => .mfInsert
  | 0x05 => .mfRemove
  | 0x06 => .mfAdvance
  | 0x07 => .mfSearch
  | 0x08 => .mfReadNode
  | 0x09 => .encStart
  | 0x0A => .encStep
  | 0x0B => .encFinish
  | 0x0C => .compress
  | 0x0D => .decStart
  | 0x0E => .decStep
  | 0x0F => .decompress
  | _ => .illegal w

/-- The 16-bit value of a reference item: its first byte is the high byte (R96, conflict C5). -/
def refValue (b0 b1 : Byte) : BitVec 16 := b0 ++ b1

/-- The offset field of a reference item: `((value >> 8) & 0xFF) | ((value & 0xF0) << 4)` (R96). -/
def refOff (b0 b1 : Byte) : BitVec 12 :=
  (((refValue b0 b1 >>> 8) &&& 0xFF) ||| ((refValue b0 b1 &&& 0xF0) <<< 4)).setWidth 12

/-- The length code of a reference item, `value & 0xF`; the length is this plus 3 (R96). -/
def refLc (b0 b1 : Byte) : BitVec 4 := (refValue b0 b1 &&& 0xF).setWidth 4

/-- The first byte of a reference item: off[7:0] (R94, R95). -/
def refByte0 (off : BitVec 12) : Byte := off.extractLsb' 0 8

/-- The second byte of a reference item: `(off[11:8] << 4) | lc` (R94, R95). -/
def refByte1 (off : BitVec 12) (lc : BitVec 4) : Byte :=
  ((off.extractLsb' 8 4).setWidth 8 <<< 4) ||| lc.setWidth 8

/-- Reads one instruction of the given space from the front of the bytes, and gives the bytes after it.
`none` only when there are too few bytes. -/
def decode : Space → List Byte → Option (Instr × List Byte)
  | .command, b0 :: b1 :: b2 :: b3 :: rest => some (decodeCommand (leWord b0 b1 b2 b3), rest)
  | .header, c0 :: c1 :: c2 :: c3 :: u0 :: u1 :: u2 :: u3 :: rest =>
    some (.streamHeader (leWord c0 c1 c2 c3) (leWord u0 u1 u2 u3), rest)
  | .control, b :: rest => some (.streamCtrl b, rest)
  | .literal, v :: rest => some (.lit v, rest)
  | .reference, b0 :: b1 :: rest => some (.ref (refOff b0 b1) (refLc b0 b1), rest)
  | .command, _ => none
  | .header, _ => none
  | .control, _ => none
  | .literal, _ => none
  | .reference, _ => none

/-- The command word of an instruction of the command space (R86): its opcode, bits 31:8 zero. The
stream forms have none. -/
def commandWord : Instr → Option Word
  | .nop => some 0x00
  | .clearErr => some 0x01
  | .mfClear => some 0x02
  | .mfInit => some 0x03
  | .mfInsert => some 0x04
  | .mfRemove => some 0x05
  | .mfAdvance => some 0x06
  | .mfSearch => some 0x07
  | .mfReadNode => some 0x08
  | .encStart => some 0x09
  | .encStep => some 0x0A
  | .encFinish => some 0x0B
  | .compress => some 0x0C
  | .decStart => some 0x0D
  | .decStep => some 0x0E
  | .decompress => some 0x0F
  | .illegal w => some w
  | .streamHeader _ _ => none
  | .streamCtrl _ => none
  | .lit _ => none
  | .ref _ _ => none

/-- The bytes of an instruction in the order the hardware stores them: a command word little-endian
(R64), the header's two integers little-endian (R69, R90), a reference's two bytes in stream order
(R94). -/
def encode : Instr → List Byte
  | .nop => leBytes 0x00
  | .clearErr => leBytes 0x01
  | .mfClear => leBytes 0x02
  | .mfInit => leBytes 0x03
  | .mfInsert => leBytes 0x04
  | .mfRemove => leBytes 0x05
  | .mfAdvance => leBytes 0x06
  | .mfSearch => leBytes 0x07
  | .mfReadNode => leBytes 0x08
  | .encStart => leBytes 0x09
  | .encStep => leBytes 0x0A
  | .encFinish => leBytes 0x0B
  | .compress => leBytes 0x0C
  | .decStart => leBytes 0x0D
  | .decStep => leBytes 0x0E
  | .decompress => leBytes 0x0F
  | .illegal w => leBytes w
  | .streamHeader c u => leBytes c ++ leBytes u
  | .streamCtrl b => [b]
  | .lit v => [v]
  | .ref off lc => [refByte0 off, refByte1 off lc]

/-- How many bytes an instruction of a space takes (R85, R90, R91, R93, R94, R98). -/
def Space.size : Space → Nat
  | .command => 4
  | .header => 8
  | .control => 1
  | .literal => 1
  | .reference => 2

/-- The first n bytes of a number, least significant first: how a row's bits are laid out as bytes (log 16). -/
def bytesOf : Nat → Nat → List Byte
  | 0, _ => []
  | n + 1, w => BitVec.ofNat 8 w :: bytesOf n (w / 256)

/-- The space a row of the opcode table is read in, told by its width: 64 bits the header, 32 a command
word, 16 a reference, 8 a control byte. LIT has 8 bits too: which of the two a stream byte is depends
on the decoder's group state alone (R98), and after reset (DEC_BIT = 8) it is a control byte (log 4). -/
def tableSpace (nbits : Nat) : Option Space :=
  if nbits = 64 then some .header
  else if nbits = 32 then some .command
  else if nbits = 16 then some .reference
  else if nbits = 8 then some .control
  else none

/-- The instruction the decoder reads from the bits w, numbered as the opcode table numbers them. DESIGN CHOICE
(log 16): the first byte is bits 7:0 of w, so the 16-bit word of a REF row has b0 in bits 7:0 and b1 in bits 15:8
(`EE F5` is 0xF5EE), where R94's pattern and R96's `value` write b0 first or high. -/
def decodeTableWord (nbits w : Nat) : Option Instr :=
  match tableSpace nbits with
  | none => none
  | some k =>
    match decode k (bytesOf (nbits / 8) w) with
    | some (i, []) => some i
    | _ => none

end Sys2Proof
end

