-- ==== Sys2Proof/Config.lean ====
section
/-! DEFINITION. Config.lean: what an implementation fixes (the ID constant, the capacities that
`State.reset` is built with) and the free values of the spec. The format's own constants (R7: 4096,
18, 3, 2, 4095, 8) stand as numerals where the spec's pseudocode writes them. -/

namespace Sys2Proof.Config

/-- The constant the ID register reads (R3, R34). -/
def idWord : Word := 0x53535A4C

/-- IN_CAP of `State.reset`. DESIGN CHOICE (log 2): the spec leaves the parameter open (R8, D4); 4096
is the value its test vectors use. Every statement about states takes any capacity, since IN_CAP and
OUT_CAP are fields of State. -/
def resetInCap : Word := 4096

/-- OUT_CAP of `State.reset`. DESIGN CHOICE (log 2), as `resetInCap`. -/
def resetOutCap : Word := 8192

/-- FREE VALUE (log 3): what the k-th host read made while STATUS.BUSY = 1 returns (R77). No body: no
proof can see a value of it. -/
opaque freeWord : Nat → Word

/-- FREE VALUE (log 3): the contents, as address and byte pairs, that a memory is left with by the k-th
draw of a platform reset (R240 point 3). No body. -/
opaque freeCells : Nat → List Host.Cell

end Sys2Proof.Config
end

