-- ==== Sys2Proof/Machine/State.lean ====
section
/-! DEFINITION. Machine/State.lean: the state of the engine and of its host interface (R20, R21, R39,
R60), the reasons a step can stop, and the state after reset (R240, R241). -/

namespace Sys2Proof.Machine

/-- STATUS.MODE (R24, R25); the value 3 never occurs. -/
inductive Mode where
  | idle
  | encoding
  | decoding
  deriving DecidableEq, Repr

/-- STATUS.ERR (R215); the codes 8..15 are never produced. -/
inductive ErrCode where
  | none
  | truncatedStream
  | malformedReference
  | allocationFailure
  | outputOverrun
  | illegalCommand
  | indexArgument
  | sequence
  deriving DecidableEq, Repr

/-- An arena link (R40): NIL, ROOTMARK or a slot (log 12). The numbers the registers show are `Link.bits`. -/
inductive Link where
  | nil
  | rootMark
  | slot (s : Slot)
  deriving DecidableEq, Repr

/-- An arena entry: three links (R39). -/
structure Node where
  parent : Link
  left : Link
  right : Link
  deriving DecidableEq, Repr

/-- An empty slot: every link NIL (R41). -/
def Node.empty : Node := ⟨.nil, .nil, .nil⟩

/-- IN or OUT: the bytes that differ from zero, by rising address. An unlisted address reads 0 (log 1). -/
abbrev Memory := List Host.Cell

/-- The arena node file (R39): the entries that are not empty, by rising slot. -/
abbrev Arena := List (Nat × Node)

/-- The match index: the ROOT register (R32) and the arena node file (R39). -/
structure Index where
  root : Link
  arena : Arena
  deriving DecidableEq, Repr

/-- What the engine is doing; STATUS.BUSY is 1 exactly when this is not `idle` (R24). -/
inductive Engine where
  | idle
  /-- A word was accepted from CMD and its activity has not been said to end (R200, log 5). -/
  | running
  /-- The reset sequence runs (R240 point 4). -/
  | resetting
  deriving DecidableEq, Repr

/-- What the outside does to the block, one at a time: the host accesses of R102 (a STORE_IN or LOAD_OUT
of several bytes is several of these, R64), host reads of IN and writes of OUT (R64, R65), POLL, the
platform's reset (R240), and `engineEnds`, which says that the running command or reset sequence ends
before the next access lands (log 5). -/
inductive HostAccess where
  | storeReg (off : Nat) (v : Word)
  | loadReg (off : Nat)
  | storeIn (a : Nat) (v : Byte)
  | loadIn (a : Nat)
  | storeOut (a : Nat) (v : Byte)
  | loadOut (a : Nat)
  | poll
  | engineEnds
  | platformReset
  deriving DecidableEq, Repr

/-- Reasons the machine stops. No run from reset raises one: R131 and R63 say so, and the model keeps
them for states outside the invariants of R44 and R47 (log 11). All are safe. -/
inductive Fault where
  /-- Raised by the tree walks and link updates (insert, remove, search) when they meet a link the spec
  says never occurs there, or do not end within 4096 slots: the links form no tree (R44, R131). Safe. -/
  | brokenTree
  /-- Raised by an engine read of IN at or above IN_CAP: there is no such address (R60, R62). Safe. -/
  | inAddress
  /-- Raised by an engine write of OUT at or above OUT_CAP: there is no such address (R60, R63). Safe. -/
  | outAddress
  deriving DecidableEq, Repr

/-- Reasons the model has no step. -/
inductive Refusal where
  /-- Raised by `exec`'s arm of an instruction that has no meaning yet. Safe. -/
  | notModelled (mnemonic : String)
  /-- Raised by a host access outside REG, IN or OUT, or a misaligned register access: a model refuses
  it (R66). Safe. -/
  | outsideSpace
  /-- Raised by the meaning of a stream item (STREAM_CTRL, LIT, REF) in a state whose DEC_GROUP does not
  select that kind of item, where the decoder reads something else (R91, R98, log 10). No step raises it.
  Safe. -/
  | itemNotSelected
  deriving DecidableEq, Repr

/-- The state: the registers of R21 under their own names, the arena, IN and OUT (R20); then the state
of the host interface. ID is the constant `Config.idWord`; CMD reads 0 and keeps nothing. -/
structure State where
  /-- ARG (R23). -/
  arg : Word
  /-- STATUS.BUSY (R24). -/
  engine : Engine
  /-- STATUS.DONE (R24, R209). -/
  done : Bool
  /-- STATUS.MODE (R25). -/
  mode : Mode
  /-- STATUS.ERR (R24, R215). -/
  err : ErrCode
  /-- STATUS.DROP (R24, R225). -/
  drop : Bool
  /-- ERR_INFO (R26). -/
  errInfo : Word
  /-- IN_LEN (R27). -/
  inLen : Word
  /-- OUT_LEN (R28). -/
  outLen : Word
  /-- CUR (R29). -/
  cur : Word
  /-- ROOT (R32) and the arena (R39). -/
  index : Index
  /-- MATCH_LEN (R33), bits 4:0. -/
  matchLen : BitVec 5
  /-- MATCH_POS (R33). -/
  matchPos : Word
  /-- NODE_PARENT (R35). -/
  nodeParent : Link
  /-- NODE_LEFT (R35). -/
  nodeLeft : Link
  /-- NODE_RIGHT (R35). -/
  nodeRight : Link
  /-- ENC_GPTR (R36). -/
  encGptr : Word
  /-- ENC_GROUP.ENC_CNT (R36), 0..8. -/
  encCnt : Fin 9
  /-- ENC_GROUP.ENC_CTRL (R36). -/
  encCtrl : Byte
  /-- DEC_IN_PTR (R37). -/
  decInPtr : Word
  /-- DEC_U (R37). -/
  decU : Word
  /-- DEC_C (R37). -/
  decC : Word
  /-- DEC_GROUP.DEC_BIT (R37), 0..8. -/
  decBit : Fin 9
  /-- DEC_GROUP.DEC_CTRL (R37). -/
  decCtrl : Byte
  /-- IN_CAP (R8, R34): a parameter, constant in a run. -/
  inCap : Word
  /-- OUT_CAP (R8, R34): a parameter, constant in a run. -/
  outCap : Word
  /-- The input memory IN (R60). -/
  inMem : Memory
  /-- The output memory OUT (R60). -/
  outMem : Memory
  /-- The accesses still to come from outside, in the order they are issued (R76; log 5). -/
  host : List HostAccess
  /-- The model's own: what the last host read returned (log 6). -/
  readData : Word
  /-- The model's own: how many free values have been drawn (log 3). -/
  freeCount : Nat
  deriving DecidableEq, Repr

/-- The state when the reset sequence has ended (R240, R241), for any capacities (R8) and any contents
of IN and OUT, which reset leaves unspecified. -/
def State.afterReset (inCap outCap : Word) (inMem outMem : Memory) : State where
  arg := 0
  engine := .idle
  done := false
  mode := .idle
  err := .none
  drop := false
  errInfo := 0
  inLen := 0
  outLen := 0
  cur := 0x1000
  index := ⟨.nil, []⟩
  matchLen := 2
  matchPos := 0
  nodeParent := .nil
  nodeLeft := .nil
  nodeRight := .nil
  encGptr := 0
  encCnt := 8
  encCtrl := 0
  decInPtr := 0
  decU := 0
  decC := 0
  decBit := 8
  decCtrl := 0
  inCap := inCap
  outCap := outCap
  inMem := inMem
  outMem := outMem
  host := []
  readData := 0
  freeCount := 0

/-- The machine right after reset. DESIGN CHOICES: capacities 4096 and 8192 (log 2), IN and OUT all zero
(log 1), no host access waiting (log 5), `readData` and `freeCount` zero (logs 6 and 3). -/
def State.reset : State := State.afterReset Config.resetInCap Config.resetOutCap [] []

end Sys2Proof.Machine
end

