-- ==== Sys2Proof/Machine/Flags.lean ====
section
/-! DEFINITION. Machine/Flags.lean: STATUS, its fields as numbers, the mode gating of commands, and the
group registers. The block has no condition codes (R49). -/

namespace Sys2Proof.Machine

/-- STATUS.BUSY (R24): 1 while a command or the reset sequence runs. -/
def State.busy (s : State) : Bool := s.engine != .idle

/-- The number of a mode in STATUS bits 3:2 (R24). -/
def Mode.code : Mode → BitVec 2
  | .idle => 0
  | .encoding => 1
  | .decoding => 2

/-- The number of an error in STATUS bits 7:4 (R215). -/
def ErrCode.code : ErrCode → BitVec 4
  | .none => 0
  | .truncatedStream => 1
  | .malformedReference => 2
  | .allocationFailure => 3
  | .outputOverrun => 4
  | .illegalCommand => 5
  | .indexArgument => 6
  | .sequence => 7

/-- The STATUS register (R24): DROP at bit 8, ERR 7:4, MODE 3:2, DONE 1, BUSY 0; bits 31:9 read 0. -/
def State.statusWord (s : State) : Word :=
  (0 : BitVec 23) ++ BitVec.ofBool s.drop ++ s.err.code ++ s.mode.code ++ BitVec.ofBool s.done
    ++ BitVec.ofBool s.busy

/-- What a read of STATUS returns while BUSY = 1: bit 0 is 1, bits 31:9 are 0, the other fields are
unspecified (R77), taken from the draw. -/
def busyStatusWord (draw : Word) : Word := (draw &&& 0x1FE) ||| 1

/-- R207, `allowed(op, MODE)`, for the opcodes of R86. -/
def allowed (op : Byte) (m : Mode) : Bool :=
  match op.toNat with
  | 0x00 | 0x01 => true
  | 0x02 | 0x03 | 0x04 | 0x05 | 0x06 => m == .idle
  | 0x07 | 0x08 => m == .idle || m == .encoding
  | 0x09 | 0x0C | 0x0D | 0x0F => true
  | 0x0A | 0x0B => m == .encoding
  | 0x0E => m == .decoding
  | _ => false

/-- ENC_GROUP and DEC_GROUP as read: the control byte in bits 15:8, the count in bits 3:0 (R36, R37). -/
def groupWord (ctrl : Byte) (cnt : Fin 9) : Word :=
  (0 : BitVec 16) ++ ctrl ++ BitVec.ofNat 8 cnt.val

end Sys2Proof.Machine
end

