-- ==== Sys2Proof/Machine/Operands.lean ====
section
/-! DEFINITION. Machine/Operands.lean: the operand forms: slots and positions, links as register bits, ARG
(R87), the offset arithmetic of references (R95, R96), and the register views (R21). -/

namespace Sys2Proof.Machine

/-- `slot(p) = p mod 4096` (R42, R120). -/
def slotOf (p : Nat) : Slot := ⟨p % 4096, Nat.mod_lt _ (by decide)⟩

/-- `posOf(s) = CUR - ((CUR - s) mod 4096)` (R42). Adding 4096 before the subtraction keeps it in the
naturals and leaves the Euclidean remainder as it is, since s < 4096. -/
def posOf (cur : Nat) (s : Slot) : Nat := cur - (cur + 4096 - s.val) % 4096

/-- A link as the 13 bits of ROOT and NODE_* (R40): NIL = 0x1000, ROOTMARK = 0x1001. -/
def Link.bits : Link → BitVec 13
  | .nil => 0x1000
  | .rootMark => 0x1001
  | .slot s => BitVec.ofNat 13 s.val

/-- `END = 4096 + IN_LEN` (R30), in unbounded integers. -/
def State.endPos (s : State) : Nat := 4096 + s.inLen.toNat

/-- Encoder side (R95, R161): `((CUR mod 4096) - 18 - backset) mod 4096` as a 12-bit field. The
remainder is Euclidean (R11). -/
def refOffset (cur : Nat) (backset : Int) : BitVec 12 :=
  BitVec.ofNat 12 (((((cur % 4096 : Nat) : Int) - 18 - backset) % 4096).toNat)

/-- The length code of a match: `len - 3` in 4 bits (R94). -/
def refCode (len : Nat) : BitVec 4 := BitVec.ofNat 4 (len - 3)

/-- Decoder side (R96, R181): `(OUT_LEN - 18 - off) mod 4096`. -/
def refBackset (outLen : Nat) (off : BitVec 12) : Nat :=
  ((((outLen : Int) - 18 - (off.toNat : Int)) % 4096)).toNat

/-- Decoder side (R96, R181): the length is the code plus 3. -/
def refLength (lc : BitVec 4) : Nat := lc.toNat + 3

/-- The worst-case stream length `8 + ceil(N/8) + N` (R163, R168). -/
def worstCase (n : Nat) : Nat := 8 + (n + 7) / 8 + n

/-- What a host read of a register returns while BUSY = 0 (R21, R22, R34, R38): reserved offsets and
bits a register does not use read 0. -/
def State.regView (s : State) (off : Nat) : Word :=
  match off with
  | 0x00 => 0
  | 0x04 => s.arg
  | 0x08 => s.statusWord
  | 0x0C => s.errInfo
  | 0x10 => s.inLen
  | 0x14 => s.outLen
  | 0x18 => s.cur
  | 0x1C => s.index.root.bits.setWidth 32
  | 0x20 => s.matchLen.setWidth 32
  | 0x24 => s.matchPos
  | 0x28 => s.nodeParent.bits.setWidth 32
  | 0x2C => s.nodeLeft.bits.setWidth 32
  | 0x30 => s.nodeRight.bits.setWidth 32
  | 0x34 => s.encGptr
  | 0x38 => groupWord s.encCtrl s.encCnt
  | 0x3C => s.decInPtr
  | 0x40 => s.decU
  | 0x44 => s.decC
  | 0x48 => groupWord s.decCtrl s.decBit
  | 0x4C => Config.idWord
  | 0x50 => s.inCap
  | 0x54 => s.outCap
  | _ => 0

end Sys2Proof.Machine
end

