-- ==== Sys2Proof/Machine/Ops.lean ====
section
/-! DEFINITION. Machine/Ops.lean: the operations the meanings share: sparse storage, IN and OUT, raising
an error and its acknowledgement, and the dispatch of a command. -/

namespace Sys2Proof.Machine

/-- What an engine procedure answers: a value, or the fault that stops the machine. -/
abbrev Run (α : Type) := Except Fault α

/-! ## Sparse storage -/

/-- The value at a key: that of the first cell with the key, the default when there is none. -/
def Cells.read {α : Type} (dflt : α) : List (Nat × α) → Nat → α
  | [], _ => dflt
  | (k, v) :: rest, a => if k = a then v else Cells.read dflt rest a

/-- Puts a cell before the first cell of a greater key. -/
def Cells.insert {α : Type} (a : Nat) (v : α) : List (Nat × α) → List (Nat × α)
  | [] => [(a, v)]
  | (k, x) :: rest => if a < k then (a, v) :: (k, x) :: rest else (k, x) :: Cells.insert a v rest

/-- Writes a value: the key's cells are removed, and one is put in its place unless the value is the
default. -/
def Cells.write {α : Type} [DecidableEq α] (dflt : α) (m : List (Nat × α)) (a : Nat) (v : α) :
    List (Nat × α) :=
  if v = dflt then m.filter (fun c => c.1 != a) else Cells.insert a v (m.filter (fun c => c.1 != a))

/-- The canonical form: keys strictly rising, no cell that holds the default. -/
abbrev Cells.wf {α : Type} (dflt : α) (m : List (Nat × α)) : Prop :=
  m.Pairwise (fun x y => x.1 < y.1) ∧ ∀ c ∈ m, c.2 ≠ dflt

/-! ## IN and OUT -/

/-- One byte of a memory; an unlisted address reads 0 (log 1). -/
def Memory.read (m : Memory) (a : Nat) : Byte := Cells.read 0 m a

/-- Writes one byte of a memory. -/
def Memory.write (m : Memory) (a : Nat) (v : Byte) : Memory := Cells.write 0 m a v

/-- Writes bytes to a memory from address a on, lowest first. -/
def Memory.writeBytes (m : Memory) (a : Nat) : List Byte → Memory
  | [] => m
  | v :: rest => (m.write a v).writeBytes (a + 1) rest

/-- The canonical form of a memory. -/
abbrev Memory.wf (m : Memory) : Prop := Cells.wf (0 : Byte) m

/-- The memory of the given size that a list of cells describes; cells outside it are left out. -/
def Memory.ofCells (cap : Nat) (cells : List Host.Cell) : Memory :=
  cells.foldl (fun m c => if c.1 < cap then m.write c.1 c.2 else m) []

/-- An engine read of IN[a]; IN has the addresses below IN_CAP (R60). -/
def State.readIn (s : State) (a : Nat) : Run Byte :=
  if a < s.inCap.toNat then .ok (s.inMem.read a) else .error .inAddress

/-- An engine write of OUT[a]; OUT has the addresses below OUT_CAP (R60, R63). -/
def State.writeOut (s : State) (a : Nat) (v : Byte) : Run State :=
  if a < s.outCap.toNat then .ok { s with outMem := s.outMem.write a v } else .error .outAddress

/-- `emit(v)`: `OUT[OUT_LEN] <- v; OUT_LEN <- OUT_LEN + 1` (R160, R180). -/
def State.emit (s : State) (v : Byte) : Run State := do
  let t ← s.writeOut s.outLen.toNat v
  pure { t with outLen := t.outLen + 1 }

/-- Writes bytes to OUT from address a on, lowest first (R70 for four bytes). -/
def State.writeOutBytes (s : State) (a : Nat) : List Byte → Run State
  | [] => .ok s
  | v :: rest => do
    let t ← s.writeOut a v
    t.writeOutBytes (a + 1) rest

/-- `LE32(a)`: the little-endian 32-bit integer at IN address a (R70). -/
def State.le32 (s : State) (a : Nat) : Word :=
  leWord (s.inMem.read a) (s.inMem.read (a + 1)) (s.inMem.read (a + 2)) (s.inMem.read (a + 3))

/-! ## Errors and dispatch -/

/-- `raise Error(code, info)` (R223): the error is recorded, the open run is over, DONE is cleared;
every other location keeps the value it had when the failing command or part began. The block has no
handler, no saved state and no vector. -/
def State.raise (s : State) (code : ErrCode) (info : Word) : State :=
  { s with err := code, errInfo := info, mode := .idle, done := false }

/-- The acknowledgement that undoes a pending error (R206). -/
def State.acknowledge (s : State) : State :=
  { s with err := .none, errInfo := 0, drop := false }

/-- A host write dropped or a command refused (R203, R204, R225). -/
def State.dropped (s : State) : State := { s with drop := true }

/-- `STATUS.BUSY <- 0`: the end of the running activity (R200, R240). -/
def State.endActivity (s : State) : State := { s with engine := .idle }

/-- The part of R200 that follows `STATUS.BUSY <- 1`, with the checks in the order of R201: a pending
error refuses the command, an illegal word and a mode that does not allow the opcode raise, else the
body runs; then BUSY falls. -/
def dispatch (w : Word) (body : State → Run State) (s : State) :
    Host.Outcome State Fault Refusal :=
  if s.err ≠ .none ∧ w ≠ 0 ∧ w ≠ 1 then .next s.dropped.endActivity
  else if illegalWord w then .next (s.raise .illegalCommand w).endActivity
  else if allowed (w.extractLsb' 0 8) s.mode = false then .next (s.raise .sequence w).endActivity
  else match body s with
    | .ok t => .next t.endActivity
    | .error f => .fault f

end Sys2Proof.Machine
end

