-- ==== Sys2Proof/Machine/Decoder.lean ====
section
/-! DEFINITION. Machine/Decoder.lean: the decoder (42_decoder.md): R180 to R185, and the meanings of the
four stream forms, each the decoder's action when that form is what stands next in the stream (log 10). -/

namespace Sys2Proof.Machine

/-- Emits n zero bytes (R182). -/
def emitZeros : (n : Nat) → State → Run State
  | 0, s => .ok s
  | n + 1, s => do
    let t ← s.emit 0x00
    emitZeros n t

/-- Copies n bytes of OUT from address r on, one at a time, each visible to the next (R182, R75). -/
def copyOut : (n r : Nat) → State → Run State
  | 0, _, s => .ok s
  | n + 1, r, s => do
    let t ← s.emit (s.outMem.read r)
    copyOut n (r + 1) t

/-- `copyRef(len, backset)` (R182): zero fill where the reference reaches before the output, then the
copy. -/
def copyRef (len backset : Nat) (s : State) : Run State := do
  let r : Int := (s.outLen.toNat : Int) - backset
  let z := if r < 0 then min len (-r).toNat else 0
  let t ← emitZeros z s
  copyOut (len - z) (r + z).toNat t

/-- The local copies of R184: the next stream address, the next control bit and the control byte. -/
structure Cursor where
  ptr : Nat
  bit : Fin 9
  ctrl : Byte
  deriving DecidableEq, Repr

/-- The cursor the registers hold. -/
def State.cursor (s : State) : Cursor := ⟨s.decInPtr.toNat, s.decBit, s.decCtrl⟩

/-- The end of DEC_STEP (R184): the local copies are written, and a complete output ends the run. -/
def closeStep (c : Cursor) (s : State) : State :=
  let t := { s with
    decInPtr := BitVec.ofNat 32 c.ptr, decBit := Fin.ofNat 9 (c.bit.val + 1), decCtrl := c.ctrl }
  if t.outLen = t.decU then { t with mode := .idle, done := true } else t

/-- The literal branch of DEC_STEP with its byte read (R184). -/
def literalItem (c : Cursor) (v : Byte) (s : State) : Run State := do
  let t ← s.emit v
  pure (closeStep { c with ptr := c.ptr + 1 } t)

/-- The reference branch of DEC_STEP with its two bytes read and taken apart (R184, R181): the checks in
the order written, then the copy. -/
def referenceItem (c : Cursor) (off : BitVec 12) (lc : BitVec 4) (s : State) : Run State :=
  let len := refLength lc
  let backset := refBackset s.outLen.toNat off
  if backset = 0 then .ok (s.raise .malformedReference s.outLen)
  else if s.outLen.toNat + len > s.decU.toNat then .ok (s.raise .outputOverrun s.outLen)
  else do
    let t ← copyRef len backset s
    pure (closeStep { c with ptr := c.ptr + 2 } t)

/-- The item of DEC_STEP, at a cursor with an open group (R184): the control bit tells its kind, and a
byte it needs at or beyond IN_LEN raises TRUNCATED_STREAM. -/
def itemAt (c : Cursor) (s : State) : Run State :=
  if c.ctrl.getLsbD c.bit.val then
    if c.ptr ≥ s.inLen.toNat then .ok (s.raise .truncatedStream s.inLen)
    else do
      let v ← s.readIn c.ptr
      literalItem c v s
  else
    if c.ptr + 2 > s.inLen.toNat then .ok (s.raise .truncatedStream s.inLen)
    else do
      let b0 ← s.readIn c.ptr
      let b1 ← s.readIn (c.ptr + 1)
      referenceItem c (refOff b0 b1) (refLc b0 b1) s

/-- A DEC_STEP that opens a group with control byte b (R184): the byte is consumed, then the item. -/
def groupItem (b : Byte) (s : State) : Run State :=
  itemAt ⟨s.decInPtr.toNat + 1, 0, b⟩ s

/-- The body of DEC_STEP (R184). -/
def decStepBody (s : State) : Run State :=
  if s.decBit = 8 then
    if s.decInPtr.toNat ≥ s.inLen.toNat then .ok (s.raise .truncatedStream s.inLen)
    else do
      let b ← s.readIn s.decInPtr.toNat
      groupItem b s
  else itemAt s.cursor s

/-- DEC_STEP (R184). -/
def execDecStep (s : State) : Host.Outcome State Fault Refusal := dispatch 0x0E decStepBody s

/-- The body of DEC_START with the header's two sizes c and u (R183). The checks of IN_LEN come before
the header counts. -/
def headerBody (c u : Word) (s : State) : Run State :=
  if s.inLen.toNat > s.inCap.toNat then .ok (s.raise .allocationFailure s.inLen)
  else if s.inLen.toNat < 8 then .ok (s.raise .truncatedStream s.inLen)
  else if u.toNat > s.outCap.toNat then .ok (s.raise .allocationFailure u)
  else
    let t := { s with
      done := false, decC := c, decU := u, decInPtr := 8, decBit := 8, decCtrl := 0, outLen := 0 }
    if u = 0 then .ok { t with mode := .idle, done := true } else .ok { t with mode := .decoding }

/-- The body of DEC_START (R183): C = LE32(0), U = LE32(4). -/
def decStartBody (s : State) : Run State := headerBody (s.le32 0) (s.le32 4) s

/-- DEC_START (R183). -/
def execDecStart (s : State) : Host.Outcome State Fault Refusal := dispatch 0x0D decStartBody s

/-- The loop of DECOMPRESS, `while MODE == DECODING` (R185). Each step raises OUT_LEN by 1 or more or
ends the run, so DEC_U - OUT_LEN rounds are enough. -/
def decLoop : (fuel : Nat) → State → Run State
  | 0, s => .ok s
  | fuel + 1, s =>
    if s.mode = .decoding then do
      let t ← decStepBody s
      decLoop fuel t
    else .ok s

/-- The body of DECOMPRESS (R185): an error of a part leaves MODE = IDLE, which ends the loop with the
output of the earlier parts. -/
def decompressBody (s : State) : Run State := do
  let t ← decStartBody s
  decLoop (t.decU.toNat - t.outLen.toNat) t

/-- DECOMPRESS (R185). -/
def execDecompress (s : State) : Host.Outcome State Fault Refusal := dispatch 0x0F decompressBody s

/-! ## The stream forms -/

/-- STREAM_HEADER (R90): DEC_START's action when the header holds csize and usize (R183). -/
def execStreamHeader (csize usize : Word) (s : State) : Host.Outcome State Fault Refusal :=
  dispatch 0x0D (headerBody csize usize) s

/-- STREAM_CTRL (R91): DEC_STEP's action when the next stream byte is this control byte. The decoder
reads a control byte only when DEC_BIT = 8. -/
def execStreamCtrl (bits : Byte) (s : State) : Host.Outcome State Fault Refusal :=
  if s.decBit = 8 then dispatch 0x0E (groupItem bits) s else .refused .itemNotSelected

/-- LIT (R93): DEC_STEP's action when the next item is this literal. The decoder reads a literal only in
an open group whose next control bit is 1. -/
def execLit (v : Byte) (s : State) : Host.Outcome State Fault Refusal :=
  if s.decBit ≠ 8 ∧ s.decCtrl.getLsbD s.decBit.val = true then
    dispatch 0x0E (fun s => literalItem s.cursor v s) s
  else .refused .itemNotSelected

/-- REF (R94): DEC_STEP's action when the next item is this reference. The decoder reads a reference only
in an open group whose next control bit is 0. -/
def execRef (off : BitVec 12) (lc : BitVec 4) (s : State) : Host.Outcome State Fault Refusal :=
  if s.decBit ≠ 8 ∧ s.decCtrl.getLsbD s.decBit.val = false then
    dispatch 0x0E (fun s => referenceItem s.cursor off lc s) s
  else .refused .itemNotSelected

end Sys2Proof.Machine
end

