-- ==== Sys2Proof/Machine/MatchIndex.lean ====
section
/-! DEFINITION. Machine/MatchIndex.lean: the match index (40_match_index.md): its primitives R121 to R129
and the seven commands R133 to R139. -/

namespace Sys2Proof.Machine

/-! ## The arena -/

/-- The entry of a slot (R39). -/
def Index.node (ix : Index) (s : Slot) : Node := Cells.read Node.empty ix.arena s.val

/-- Writes the entry of a slot. -/
def Index.setNode (ix : Index) (s : Slot) (n : Node) : Index :=
  { ix with arena := Cells.write Node.empty ix.arena s.val n }

/-- `parent[s]` (R12). -/
def Index.parent (ix : Index) (s : Slot) : Link := (ix.node s).parent

/-- `left[s]` (R12). -/
def Index.left (ix : Index) (s : Slot) : Link := (ix.node s).left

/-- `right[s]` (R12). -/
def Index.right (ix : Index) (s : Slot) : Link := (ix.node s).right

/-- `parent[s] <- l`. -/
def Index.setParent (ix : Index) (s : Slot) (l : Link) : Index :=
  ix.setNode s { ix.node s with parent := l }

/-- `left[s] <- l`. -/
def Index.setLeft (ix : Index) (s : Slot) (l : Link) : Index :=
  ix.setNode s { ix.node s with left := l }

/-- `right[s] <- l`. -/
def Index.setRight (ix : Index) (s : Slot) (l : Link) : Index :=
  ix.setNode s { ix.node s with right := l }

/-- `ROOT <- l`. -/
def Index.setRoot (ix : Index) (l : Link) : Index := { ix with root := l }

/-- `parent[s] <- NIL; left[s] <- NIL; right[s] <- NIL`: the slot is empty (R41). -/
def Index.clear (ix : Index) (s : Slot) : Index := ix.setNode s .empty

/-- R41: a slot is occupied when its parent is not NIL. -/
def Index.occupied (ix : Index) (s : Slot) : Bool := ix.parent s != .nil

/-- `clearArena()` (R126): every entry empty and ROOT = NIL. -/
def Index.cleared : Index := ⟨.nil, []⟩

/-! ## The window and its keys -/

/-- What the window bytes are taken from: IN and IN_LEN. -/
structure Window where
  inMem : Memory
  inLen : Nat
  deriving DecidableEq, Repr

/-- The window of a state. -/
def State.window (s : State) : Window := ⟨s.inMem, s.inLen.toNat⟩

/-- `Byte(p)` (R67): zero before the data and past its end. -/
def Window.byte (w : Window) (p : Nat) : Byte :=
  if p < 4096 then 0 else if p < 4096 + w.inLen then w.inMem.read (p - 4096) else 0

/-- The direction of a key comparison (R121). -/
inductive Dir where
  | equal
  | less
  | greater
  deriving DecidableEq, Repr

/-- The loop of `cmpKey` from index m on, with `rem` indices left. Bytes compare unsigned (R43). -/
def cmpFrom (w : Window) (a b : Nat) : (rem : Nat) → (m : Nat) → Nat × Dir
  | 0, m => (m, .equal)
  | rem + 1, m =>
    if w.byte (a + m) = w.byte (b + m) then cmpFrom w a b rem (m + 1)
    else (m, if w.byte (a + m) < w.byte (b + m) then .less else .greater)

/-- `cmpKey(a, b, n)` (R121): the common prefix length, capped at n, and the direction. -/
def cmpKey (w : Window) (a b n : Nat) : Nat × Dir := cmpFrom w a b n 0

/-! ## Tree primitives -/

/-- `if l != NIL: parent[l] <- p`. A ROOTMARK occurs only in a parent field (R40). -/
def reparent (l p : Link) (ix : Index) : Run Index :=
  match l with
  | .nil => .ok ix
  | .rootMark => .error .brokenTree
  | .slot c => .ok (ix.setParent c p)

/-- `replaceChild(x, y)` (R122): y takes x's place under x's parent. -/
def replaceChild (x : Slot) (y : Link) (ix : Index) : Run Index :=
  match ix.parent x with
  | .nil => .error .brokenTree
  | .rootMark => reparent y .rootMark (ix.setRoot y)
  | .slot pp =>
    if ix.left pp = .slot x then reparent y (.slot pp) (ix.setLeft pp y)
    else reparent y (.slot pp) (ix.setRight pp y)

/-- Where an insert's descent ends (R123): at a node with an equal key, or at a free child link. -/
inductive Place where
  | equal (q : Slot)
  | left (q : Slot)
  | right (q : Slot)
  deriving DecidableEq, Repr

/-- The descent of `insert(p)` (R123) from slot q, over at most `fuel` slots. -/
def descend (w : Window) (cur p : Nat) (ix : Index) : (fuel : Nat) → (q : Slot) → Run Place
  | 0, _ => .error .brokenTree
  | fuel + 1, q =>
    match (cmpKey w p (posOf cur q) 18).2 with
    | .equal => .ok (.equal q)
    | .less =>
      match ix.left q with
      | .nil => .ok (.left q)
      | .rootMark => .error .brokenTree
      | .slot c => descend w cur p ix fuel c
    | .greater =>
      match ix.right q with
      | .nil => .ok (.right q)
      | .rootMark => .error .brokenTree
      | .slot c => descend w cur p ix fuel c

/-- The EQUAL branch of `insert` (R123): s takes q's place with q's links, and q is cleared. -/
def replaceNode (q s : Slot) (ix : Index) : Run Index := do
  let ix := ix.setNode s (ix.node q)
  let ix ← reparent (ix.left q) (.slot s) ix
  let ix ← reparent (ix.right q) (.slot s) ix
  let ix ← replaceChild q (.slot s) ix
  pure (ix.clear q)

/-- The link writes of `insert` once the place is known (R123). -/
def attach (s : Slot) (place : Place) (ix : Index) : Run Index :=
  match place with
  | .equal q => replaceNode q s ix
  | .left q => .ok ((ix.setLeft q (.slot s)).setParent s (.slot q))
  | .right q => .ok ((ix.setRight q (.slot s)).setParent s (.slot q))

/-- `insert(p)` (R123), with CUR = cur. -/
def insert (w : Window) (cur p : Nat) (ix : Index) : Run Index :=
  let s := slotOf p
  let ix := (ix.setLeft s .nil).setRight s .nil
  match ix.root with
  | .nil => .ok ((ix.setRoot (.slot s)).setParent s .rootMark)
  | .rootMark => .error .brokenTree
  | .slot r => do
    let place ← descend w cur p ix 4096 r
    attach s place ix

/-- The leftmost slot below y, over at most `fuel` slots (R125). -/
def leftmost (ix : Index) : (fuel : Nat) → (y : Slot) → Run Slot
  | 0, _ => .error .brokenTree
  | fuel + 1, y =>
    match ix.left y with
    | .nil => .ok y
    | .rootMark => .error .brokenTree
    | .slot c => leftmost ix fuel c

/-- Detaching the successor y of s when it is not right[s] = r (R125): its right subtree takes its place,
and it takes over the right subtree of s. -/
def detach (s r y : Slot) (ix : Index) : Run Index :=
  if y = r then .ok ix
  else do
    let ix ← replaceChild y (ix.right y) ix
    reparent (ix.right s) (.slot y) (ix.setRight y (ix.right s))

/-- `removeTwo(s)` (R125): the in-order successor y of s takes s's place; r is the slot of right[s]. -/
def removeTwo (s r : Slot) (ix : Index) : Run Index := do
  let y ← leftmost ix 4096 r
  let ix ← detach s r y ix
  let ix ← reparent (ix.left s) (.slot y) (ix.setLeft y (ix.left s))
  replaceChild s (.slot y) ix

/-- The unlinking of slot s: the cases of `remove(s)` before the slot is cleared (R124). -/
def unlink (s : Slot) (ix : Index) : Run Index :=
  match ix.left s, ix.right s with
  | .nil, .nil => replaceChild s .nil ix
  | .nil, r => replaceChild s r ix
  | l, .nil => replaceChild s l ix
  | _, .slot r => removeTwo s r ix
  | _, .rootMark => .error .brokenTree

/-- `remove(s)` (R124). -/
def remove (s : Slot) (ix : Index) : Run Index := do
  let ix ← unlink s ix
  pure (ix.clear s)

/-- The descent of `findLongestMatch(cur)` (R127) from link q, comparing at most `lim` bytes, over at
most `fuel` slots. -/
def searchFrom (w : Window) (cur lim : Nat) (ix : Index) :
    (fuel : Nat) → (q : Link) → (best : Nat × Nat) → Run (Nat × Nat)
  | _, .nil, best => .ok best
  | _, .rootMark, _ => .error .brokenTree
  | 0, .slot _, _ => .error .brokenTree
  | fuel + 1, .slot q, best =>
    let c := cmpKey w cur (posOf cur q) lim
    let best := if c.1 > best.1 then (c.1, posOf cur q) else best
    if c.1 = lim then .ok best
    else if c.2 = .less then searchFrom w cur lim ix fuel (ix.left q) best
    else searchFrom w cur lim ix fuel (ix.right q) best

/-- `findLongestMatch(cur)` (R127): the match length and position, (2, 0) when there is none. -/
def findLongestMatch (w : Window) (cur : Nat) (ix : Index) : Run (Nat × Nat) :=
  searchFrom w cur (min 18 (4096 + w.inLen - cur)) ix 4096 ix.root (2, 0)

/-- Retiring a slot as the window moves (R128): its node is removed if it holds one. -/
def retire (t : Slot) (ix : Index) : Run Index :=
  if ix.parent t = .nil then .ok ix else remove t ix

/-- `advanceWindow(count)` (R128) from CUR = c: position c - 4095 retires, position c enters. -/
def advanceIndex (w : Window) : (count : Nat) → (c : Nat) → Index → Run Index
  | 0, _, ix => .ok ix
  | count + 1, c, ix => do
    let ix ← retire (slotOf (c + 1)) ix
    let ix ← insert w c c ix
    advanceIndex w count (c + 1) ix

/-- The inserts of `seed()` (R129): `count` positions from p on, with CUR = 4096. -/
def seedFrom (w : Window) : (count : Nat) → (p : Nat) → Index → Run Index
  | 0, _, ix => .ok ix
  | count + 1, p, ix => do
    let ix ← insert w 4096 p ix
    seedFrom w count (p + 1) ix

/-! ## The primitives on the state -/

/-- `advanceWindow(count)` on the registers: the index, and CUR by count (R128). -/
def State.advanceWindow (s : State) (count : Nat) : Run State := do
  let ix ← advanceIndex s.window count s.cur.toNat s.index
  pure { s with index := ix, cur := BitVec.ofNat 32 (s.cur.toNat + count) }

/-- `seed()` on the registers (R129): the arena is cleared, CUR <- 4096, positions 1..4095 inserted. -/
def State.seed (s : State) : Run State := do
  let ix ← seedFrom s.window 4095 1 .cleared
  pure { s with index := ix, cur := 0x1000 }

/-- Records a match in MATCH_LEN and MATCH_POS (R33). -/
def State.recordMatch (s : State) (m : Nat × Nat) : State :=
  { s with matchLen := BitVec.ofNat 5 m.1, matchPos := BitVec.ofNat 32 m.2 }

/-- R135, R136: p is in the live range CUR-4095..CUR-1, compared in unbounded integers. -/
def State.liveRange (s : State) (p : Nat) : Bool :=
  s.cur.toNat ≤ p + 4095 && p + 1 ≤ s.cur.toNat

/-- Runs a part only when IN_LEN <= IN_CAP, the first check of every command that reads IN (R218). -/
def State.checkInput (s : State) (part : Run State) : Run State :=
  if s.inLen.toNat > s.inCap.toNat then .ok (s.raise .allocationFailure s.inLen) else part

/-! ## The commands -/

/-- MF_CLEAR (R133). -/
def execMfClear (s : State) : Host.Outcome State Fault Refusal :=
  dispatch 0x02 (fun s => .ok { s with index := .cleared, cur := 0x1000 }) s

/-- MF_INIT (R134). -/
def execMfInit (s : State) : Host.Outcome State Fault Refusal :=
  dispatch 0x03 (fun s => s.checkInput s.seed) s

/-- The body of MF_INSERT (R135); the operand is the window position in ARG. -/
def mfInsertBody (s : State) : Run State :=
  s.checkInput <|
    let p := s.arg.toNat
    if s.liveRange p = false ∨ s.index.parent (slotOf p) ≠ .nil then
      .ok (s.raise .indexArgument s.arg)
    else do
      let ix ← insert s.window s.cur.toNat p s.index
      pure { s with index := ix }

/-- MF_INSERT (R135). -/
def execMfInsert (s : State) : Host.Outcome State Fault Refusal := dispatch 0x04 mfInsertBody s

/-- The body of MF_REMOVE (R136); no key is read, so IN_LEN is not checked. -/
def mfRemoveBody (s : State) : Run State :=
  let p := s.arg.toNat
  if s.liveRange p = false ∨ s.index.parent (slotOf p) = .nil then
    .ok (s.raise .indexArgument s.arg)
  else do
    let ix ← remove (slotOf p) s.index
    pure { s with index := ix }

/-- MF_REMOVE (R136). -/
def execMfRemove (s : State) : Host.Outcome State Fault Refusal := dispatch 0x05 mfRemoveBody s

/-- The body of MF_ADVANCE (R137). -/
def mfAdvanceBody (s : State) : Run State :=
  s.checkInput <|
    if s.cur.toNat + s.arg.toNat > s.endPos then .ok (s.raise .indexArgument s.arg)
    else s.advanceWindow s.arg.toNat

/-- MF_ADVANCE (R137). -/
def execMfAdvance (s : State) : Host.Outcome State Fault Refusal := dispatch 0x06 mfAdvanceBody s

/-- The body of MF_SEARCH (R138). -/
def mfSearchBody (s : State) : Run State :=
  s.checkInput do
    let m ← findLongestMatch s.window s.cur.toNat s.index
    pure (s.recordMatch m)

/-- MF_SEARCH (R138). -/
def execMfSearch (s : State) : Host.Outcome State Fault Refusal := dispatch 0x07 mfSearchBody s

/-- The body of MF_READ_NODE (R139). -/
def mfReadNodeBody (s : State) : Run State :=
  if s.arg.toNat > 4095 then .ok (s.raise .indexArgument s.arg)
  else
    let n := s.index.node (slotOf s.arg.toNat)
    .ok { s with nodeParent := n.parent, nodeLeft := n.left, nodeRight := n.right }

/-- MF_READ_NODE (R139). -/
def execMfReadNode (s : State) : Host.Outcome State Fault Refusal := dispatch 0x08 mfReadNodeBody s

end Sys2Proof.Machine
end

