-- ==== Sys2Proof/Machine/Encoder.lean ====
section
/-! DEFINITION. Machine/Encoder.lean: the encoder (41_encoder.md): R160 to R166. -/

namespace Sys2Proof.Machine

/-- `openGroup()` (R162): the control byte of a new group is reserved. -/
def openGroup (s : State) : Run State := do
  let t ← ({ s with encGptr := s.outLen } : State).emit 0x00
  pure { t with encCtrl := 0, encCnt := 0 }

/-- The reference branch of `encodeItem` (R161, R95). -/
def emitReference (len pos : Nat) (s : State) : Run State := do
  let off := refOffset s.cur.toNat ((s.cur.toNat : Int) - pos)
  let t ← s.emit (refByte0 off)
  let t ← t.emit (refByte1 off (refCode len))
  t.advanceWindow len

/-- The literal branch of `encodeItem` (R161): the item's control bit is set. -/
def emitLiteral (s : State) : Run State := do
  let t ← s.emit (s.window.byte s.cur.toNat)
  let t := { t with encCtrl := t.encCtrl ||| ((1 : Byte) <<< t.encCnt.val) }
  t.advanceWindow 1

/-- The end of `encodeItem` (R161): the item is counted and a full group's control byte backfilled. -/
def closeItem (s : State) : Run State :=
  let t := { s with encCnt := Fin.ofNat 9 (s.encCnt.val + 1) }
  if t.encCnt = 8 then t.writeOut t.encGptr.toNat t.encCtrl else .ok t

/-- A group is opened by the first item that needs it (R161, R162). -/
def readyGroup (s : State) : Run State := if s.encCnt = 8 then openGroup s else .ok s

/-- The item for a search result (R161): a reference when the match has length 3 or more, else a
literal. -/
def emitItem (m : Nat × Nat) (s : State) : Run State :=
  if 3 ≤ m.1 then emitReference m.1 m.2 s else emitLiteral s

/-- `encodeItem()` (R161). -/
def encodeItem (s : State) : Run State := do
  let m ← findLongestMatch s.window s.cur.toNat s.index
  let t ← readyGroup (s.recordMatch m)
  let t ← emitItem m t
  closeItem t

/-- The body of ENC_START (R163). The order of the writes does not matter: they are to distinct
locations, and the seed reads none of them. -/
def encStartBody (s : State) : Run State :=
  s.checkInput <|
    let need := worstCase s.inLen.toNat
    if need > s.outCap.toNat then .ok (s.raise .allocationFailure (BitVec.ofNat 32 need))
    else do
      let t ← s.seed
      let t ← t.writeOutBytes 0 (List.replicate 8 0x00)
      pure { t with
        done := false, outLen := 8, encGptr := 0, encCnt := 8, encCtrl := 0, mode := .encoding }

/-- ENC_START (R163). -/
def execEncStart (s : State) : Host.Outcome State Fault Refusal := dispatch 0x09 encStartBody s

/-- The body of ENC_STEP (R164). The engine reads IN only below IN_CAP: an open run has
IN_LEN <= IN_CAP, and a state where it has not faults. -/
def encStepBody (s : State) : Run State :=
  if s.cur.toNat ≥ s.endPos then .ok (s.raise .sequence 0x0A)
  else if s.inLen.toNat > s.inCap.toNat then .error .inAddress
  else encodeItem s

/-- ENC_STEP (R164). -/
def execEncStep (s : State) : Host.Outcome State Fault Refusal := dispatch 0x0A encStepBody s

/-- A partial final group's control byte is backfilled (R165). -/
def closeGroup (s : State) : Run State :=
  if s.encCnt < 8 then s.writeOut s.encGptr.toNat s.encCtrl else .ok s

/-- The body of ENC_FINISH after its check (R165): a partial group's control byte, then the header. -/
def encClose (s : State) : Run State := do
  let t ← closeGroup s
  let t ← t.writeOutBytes 0 (leBytes t.outLen ++ leBytes t.inLen)
  pure { t with mode := .idle, done := true }

/-- The body of ENC_FINISH (R165). -/
def encFinishBody (s : State) : Run State :=
  if s.cur.toNat ≠ s.endPos then .ok (s.raise .sequence 0x0B) else encClose s

/-- ENC_FINISH (R165). -/
def execEncFinish (s : State) : Host.Outcome State Fault Refusal := dispatch 0x0B encFinishBody s

/-- The loop of COMPRESS, `while CUR < END: encodeItem()` (R166). Each item advances CUR by 1 or more, so
END - CUR rounds are enough. -/
def encLoop : (fuel : Nat) → State → Run State
  | 0, s => .ok s
  | fuel + 1, s =>
    if s.cur.toNat < s.endPos then do
      let t ← encodeItem s
      encLoop fuel t
    else .ok s

/-- The body of COMPRESS (R166): an error of the ENC_START part (which leaves MODE = IDLE) ends it. -/
def compressBody (s : State) : Run State := do
  let t ← encStartBody s
  if t.mode = .encoding then do
    let u ← encLoop (t.endPos - t.cur.toNat) t
    encClose u
  else pure t

/-- COMPRESS (R166). -/
def execCompress (s : State) : Host.Outcome State Fault Refusal := dispatch 0x0C compressBody s

end Sys2Proof.Machine
end

