-- ==== Sys2Proof/Machine/System.lean ====
section
/-! DEFINITION. Machine/System.lean: the control commands and the illegal command words (43_system.md). -/

namespace Sys2Proof.Machine

/-- NOP (R205). -/
def execNop (s : State) : Host.Outcome State Fault Refusal := dispatch 0x00 (fun s => .ok s) s

/-- CLEAR_ERR (R206). -/
def execClearErr (s : State) : Host.Outcome State Fault Refusal :=
  dispatch 0x01 (fun s => .ok s.acknowledge) s

/-- A reserved command word (R88, R220): the dispatch raises ILLEGAL_COMMAND with ERR_INFO = the word. -/
def execIllegal (w : Word) (s : State) : Host.Outcome State Fault Refusal :=
  dispatch w (fun s => .ok (s.raise .illegalCommand w)) s

end Sys2Proof.Machine
end

