-- ==== Sys2Proof/Machine/Dispatch.lean ====
section
/-! DEFINITION. Machine/Dispatch.lean: one arm per instruction. -/

namespace Sys2Proof.Machine

/-- The meaning of an instruction: the part of R200 after `STATUS.BUSY <- 1`, its last line included. -/
def exec (i : Instr) (s : State) : Host.Outcome State Fault Refusal :=
  match i with
  | .nop => Sys2Proof.Machine.execNop s
  | .clearErr => Sys2Proof.Machine.execClearErr s
  | .mfClear => Sys2Proof.Machine.execMfClear s
  | .mfInit => Sys2Proof.Machine.execMfInit s
  | .mfInsert => Sys2Proof.Machine.execMfInsert s
  | .mfRemove => Sys2Proof.Machine.execMfRemove s
  | .mfAdvance => Sys2Proof.Machine.execMfAdvance s
  | .mfSearch => Sys2Proof.Machine.execMfSearch s
  | .mfReadNode => Sys2Proof.Machine.execMfReadNode s
  | .encStart => Sys2Proof.Machine.execEncStart s
  | .encStep => Sys2Proof.Machine.execEncStep s
  | .encFinish => Sys2Proof.Machine.execEncFinish s
  | .compress => Sys2Proof.Machine.execCompress s
  | .decStart => Sys2Proof.Machine.execDecStart s
  | .decStep => Sys2Proof.Machine.execDecStep s
  | .decompress => Sys2Proof.Machine.execDecompress s
  | .illegal w => Sys2Proof.Machine.execIllegal w s
  | .streamHeader csize usize => Sys2Proof.Machine.execStreamHeader csize usize s
  | .streamCtrl bits => Sys2Proof.Machine.execStreamCtrl bits s
  | .lit v => Sys2Proof.Machine.execLit v s
  | .ref off lc => Sys2Proof.Machine.execRef off lc s

end Sys2Proof.Machine
end

