-- ==== Sys2Proof/Machine/HostBus.lean ====
section
/-! DEFINITION. Machine/HostBus.lean: what the outside does to the block: host accesses (R61 to R66, R72,
R77, R203), the platform's reset (R240), the running of the engine, and the host statements of R103. -/

namespace Sys2Proof.Machine

/-- R61, R66: a register access is an aligned word of REG. -/
def regOffset (off : Nat) : Bool := off ≤ 0xFF && off % 4 == 0

/-- R21: the offset holds a register; the rest of REG is reserved (R38). -/
def isRegister (off : Nat) : Bool := off ≤ 0x54

/-- A host write to REG that starts no command (R22, R23, R27, R203): CMD while BUSY = 1 is dropped; ARG is
written when BUSY = 0; IN_LEN when also MODE = IDLE; otherwise the write is dropped. Writes to read-only and
reserved offsets are ignored (R21, R38). -/
def storeReg (off : Nat) (v : Word) (s : State) : State :=
  match off with
  | 0x00 => s.dropped
  | 0x04 => if s.busy then s.dropped else { s with arg := v }
  | 0x10 => if s.busy || s.mode != .idle then s.dropped else { s with inLen := v }
  | _ => s

/-- Takes a free value (log 3). -/
def State.draw (s : State) : Word × State :=
  (Config.freeWord s.freeCount, { s with freeCount := s.freeCount + 1 })

/-- A host read of REG. While BUSY = 1 a read of STATUS shows BUSY = 1 with the other fields unspecified
and a read of any other register is unspecified (R77). Reserved offsets read 0 (R38), also then (log 8). -/
def loadReg (off : Nat) (s : State) : State :=
  if s.busy && isRegister off then
    let d := s.draw
    { d.2 with readData := if off = 0x08 then busyStatusWord d.1 else d.1 }
  else { s with readData := s.regView off }

/-- A host write of IN (R65): only when BUSY = 0 and MODE = IDLE. -/
def storeIn (a : Nat) (v : Byte) (s : State) : State :=
  if s.busy || s.mode != .idle then s.dropped else { s with inMem := s.inMem.write a v }

/-- A host read of IN. The engine never writes IN (R62), so the byte is the one IN holds, also while
BUSY = 1 (log 7). -/
def loadIn (a : Nat) (s : State) : State :=
  { s with readData := (s.inMem.read a).setWidth 32 }

/-- A host read of OUT; unspecified while BUSY = 1 (R77). -/
def loadOut (a : Nat) (s : State) : State :=
  if s.busy then
    let d := s.draw
    { d.2 with readData := (d.1.extractLsb' 0 8).setWidth 32 }
  else { s with readData := (s.outMem.read a).setWidth 32 }

/-- The platform asserts reset (R240): the registers take their reset values, the arena is cleared, IN
and OUT are left with unspecified contents, and the reset sequence runs, BUSY = 1. A running command is
stopped (R243). The capacities are constants, and what the host has read and has still to do is not the
block's (log 9). -/
def platformReset (s : State) : State :=
  { State.afterReset s.inCap s.outCap
      (Memory.ofCells s.inCap.toNat (Config.freeCells s.freeCount))
      (Memory.ofCells s.outCap.toNat (Config.freeCells (s.freeCount + 1))) with
    engine := .resetting, host := s.host, readData := s.readData, freeCount := s.freeCount + 2 }

/-- A word w is accepted from CMD (R22, R200): BUSY rises and the command runs to its end, atomically (R202).
BUSY stays 1 until the activity is said to end (log 5). -/
def startCommand (w : Word) (s : State) : Host.Outcome State Fault Refusal :=
  match exec (decodeCommand w) { s with engine := .running } with
  | .next t => .next { t with engine := .running }
  | .fault f => .fault f
  | .refused r => .refused r

/-- A host write to REG (R22): to CMD with BUSY = 0 it starts a command. -/
def writeReg (off : Nat) (v : Word) (s : State) : Host.Outcome State Fault Refusal :=
  if off = 0x00 ∧ s.engine = .idle then startCommand v s else .next (storeReg off v s)

/-- One step: the next thing from outside lands, or the engine's activity ends when nothing is waiting, a
POLL waits for it (R102), or `engineEnds` says so (log 5). An idle engine starts nothing on its own (R200,
R231). Accesses outside the spaces are refused (R66, log 14). -/
def busStep (s : State) : Host.Outcome State Fault Refusal :=
  match s.host with
  | [] => .next s.endActivity
  | .engineEnds :: rest => .next (State.endActivity { s with host := rest })
  | .poll :: rest =>
    if s.busy then .next s.endActivity else .next (loadReg 0x08 { s with host := rest })
  | .platformReset :: rest => .next (platformReset { s with host := rest })
  | .storeReg off v :: rest =>
    if regOffset off then writeReg off v { s with host := rest } else .refused .outsideSpace
  | .loadReg off :: rest =>
    if regOffset off then .next (loadReg off { s with host := rest }) else .refused .outsideSpace
  | .storeIn a v :: rest =>
    if a < s.inCap.toNat then .next (storeIn a v { s with host := rest }) else .refused .outsideSpace
  | .loadIn a :: rest =>
    if a < s.inCap.toNat then .next (loadIn a { s with host := rest }) else .refused .outsideSpace
  | .storeOut a _ :: rest =>
    if a < s.outCap.toNat then .next (State.dropped { s with host := rest })
    else .refused .outsideSpace
  | .loadOut a :: rest =>
    if a < s.outCap.toNat then .next (loadOut a { s with host := rest }) else .refused .outsideSpace

/-! ## Host statements (R103) -/

/-- STORE_IN a, b0 b1 ...: bytes at a, a+1, ... (R102). -/
def hostStoreIn : (a : Nat) → List Byte → List HostAccess
  | _, [] => []
  | a, b :: rest => .storeIn a b :: hostStoreIn (a + 1) rest

/-- LOAD_OUT a, n: n bytes from a (R102). -/
def hostLoadOut : (n a : Nat) → List HostAccess
  | 0, _ => []
  | n + 1, a => .loadOut a :: hostLoadOut n (a + 1)

/-- A command statement: the CMD write, then POLL (R103). -/
def hostCommand (w : Word) : List HostAccess := [.storeReg 0x00 w, .poll]

/-- A command statement with its operand: ARG, the CMD write, then POLL (R103). -/
def hostCommandArg (w v : Word) : List HostAccess := .storeReg 0x04 v :: hostCommand w

/-- SET_LEN n (R103). -/
def hostSetLen (n : Word) : List HostAccess := [.storeReg 0x10 n]

/-- LOAD_INPUT b0 ... bn-1: the bytes from address 0, then their count (R103). -/
def hostLoadInput (bytes : List Byte) : List HostAccess :=
  hostStoreIn 0 bytes ++ hostSetLen (BitVec.ofNat 32 bytes.length)

/-! ## Placing an instruction to run next -/

/-- A state about to run the command w: the host's write of it to CMD lands next, on an idle block. -/
def State.withCommand (s : State) (w : Word) : State :=
  { s with engine := .idle, host := .storeReg 0x00 w :: s.host }

/-- A state with an open decode run: the one the state has, or one as DEC_START would open it, declaring
the longest output a single reference can give (R94) or as much as fits OUT. -/
def State.withRun (s : State) : State :=
  if s.mode = .decoding then s
  else { s with
    mode := .decoding, decInPtr := 8, decBit := 8, decCtrl := 0, outLen := 0,
    decU := BitVec.ofNat 32 (min 18 s.outCap.toNat) }

/-- A state whose next DEC_STEP reads the given bytes at DEC_IN_PTR, with the group state given. -/
def State.withItem (s : State) (bit : Fin 9) (ctrl : Byte) (bytes : List Byte) : State :=
  let t := s.withRun
  let p := t.decInPtr.toNat
  { t with
    decBit := bit, decCtrl := ctrl, inMem := t.inMem.writeBytes p bytes,
    inLen := BitVec.ofNat 32 (max t.inLen.toNat (p + bytes.length)) }.withCommand 0x0E

/-- Places an instruction of the opcode table where the next step fetches it (log 4): a command word about to
be written to CMD; a header at IN address 0 with DEC_START about to be; a control byte (followed by two zero
bytes) or a reference at DEC_IN_PTR with DEC_STEP about to be. The bits of w are laid out as bytes by `bytesOf`
(log 16). -/
def State.placeFetch (s : State) (nbits w : Nat) : State :=
  if nbits = 64 then
    { s with
      inMem := s.inMem.writeBytes 0 (bytesOf 8 w),
      inLen := BitVec.ofNat 32 (max s.inLen.toNat 8) }.withCommand 0x0D
  else if nbits = 16 then s.withItem 0 0x00 (bytesOf 2 w)
  else if nbits = 8 then s.withItem 8 0x00 (bytesOf 3 (w % 256))
  else s.withCommand (BitVec.ofNat 32 w)

end Sys2Proof.Machine
end

