-- ==== Sys2Proof/Machine/Step.lean ====
section
/-! DEFINITION. Machine/Step.lean: one step, and the state whose next step runs a given instruction. -/

namespace Sys2Proof.Machine

/-- One step of the machine: one host access, or one command from its acceptance to its end (R6). -/
def step (s : State) : Host.Outcome State Fault Refusal := busStep s

/-- s with the instruction of the bits w placed so that the next step runs it (log 4). -/
def State.withFetchWord (s : State) (nbits w : Nat) : State := s.placeFetch nbits w

end Sys2Proof.Machine
end

