-- ==== Sys2Proof/Safety.lean ====
section
/-! DEFINITION. Safety.lean: the invariants the spec states of the machine (R29, R31, R44, R47, R223) and
what a safe run is. -/

namespace Sys2Proof.Machine

/-- The shape part of R44, link by link, with a rank that rises from parent to child (so that the links
have no cycle). Occupied slots are those whose parent is not NIL (R41). -/
structure Index.IsTree (ix : Index) (rank : Slot → Nat) : Prop where
  /-- ROOTMARK occurs only in a parent field (R40). -/
  rootLink : ix.root ≠ .rootMark
  /-- `parent[ROOT] = ROOTMARK`. -/
  rootParent : ∀ r, ix.root = .slot r → ix.parent r = .rootMark
  /-- No other slot has that parent. -/
  rootOnly : ∀ s, ix.parent s = .rootMark → ix.root = .slot s
  /-- Every other occupied slot is a child of an occupied slot. -/
  isChild : ∀ s p, ix.parent s = .slot p →
    ix.parent p ≠ .nil ∧ (ix.left p = .slot s ∨ ix.right p = .slot s)
  /-- Left links are NIL or lead to a slot whose parent link leads back. -/
  leftLink : ∀ s, ix.left s = .nil ∨ ∃ c, ix.left s = .slot c ∧ ix.parent c = .slot s
  /-- Right links are NIL or lead to a slot whose parent link leads back. -/
  rightLink : ∀ s, ix.right s = .nil ∨ ∃ c, ix.right s = .slot c ∧ ix.parent c = .slot s
  /-- A slot is one child only. -/
  childOnce : ∀ s c, ix.left s = .slot c → ix.right s ≠ .slot c
  /-- An empty slot has no links (R41). -/
  emptySlot : ∀ s, ix.parent s = .nil → ix.left s = .nil ∧ ix.right s = .nil
  /-- The links have no cycle. -/
  ranked : ∀ s p, ix.parent s = .slot p → rank p < rank s

/-- R44, shape: the links form one tree rooted at ROOT whose nodes are the occupied slots. -/
def Index.TreeShape (ix : Index) : Prop := ∃ rank, ix.IsTree rank

/-- R44 with the bound of R29: the links form a tree, CUR >= 4096, and slot CUR mod 4096 is empty, so
that every occupied slot's position is in CUR-4095..CUR-1. -/
structure State.WindowOk (s : State) : Prop where
  shape : s.index.TreeShape
  low : 4096 ≤ s.cur.toNat
  free : s.index.parent (slotOf s.cur.toNat) = .nil

/-- The parameters are in the ranges of R8. -/
structure State.CapsOk (s : State) : Prop where
  inLow : 8 ≤ s.inCap.toNat
  inHigh : s.inCap.toNat ≤ 2 ^ 31
  outLow : 8 ≤ s.outCap.toNat

/-- The memories and the arena are in canonical form, and list nothing outside the spaces of R60. -/
structure State.StorageOk (s : State) : Prop where
  inWf : s.inMem.wf
  inBound : ∀ c ∈ s.inMem, c.1 < s.inCap.toNat
  outWf : s.outMem.wf
  outBound : ∀ c ∈ s.outMem, c.1 < s.outCap.toNat
  arenaWf : Cells.wf Node.empty s.index.arena
  arenaBound : ∀ c ∈ s.index.arena, c.1 < 4096

/-- The counts of an open encode run (R47): `groups` control bytes have been reserved; the items of all
groups, ENC_CNT of them in the last, are no more than the bytes encoded, and so are their bytes. -/
structure State.EncodingOk (s : State) : Prop where
  fitsIn : s.inLen.toNat ≤ s.inCap.toNat
  fitsOut : worstCase s.inLen.toNat ≤ s.outCap.toNat
  curHigh : s.cur.toNat ≤ s.endPos
  counted : 1 ≤ s.encCnt.val
  groups : ∃ g, s.outLen.toNat + 4096 ≤ 8 + g + s.cur.toNat ∧
    8 * g + s.encCnt.val + 4096 ≤ s.cur.toNat + 8
  headerOut : 8 ≤ s.outLen.toNat
  openGroup : s.encCnt < 8 → 8 ≤ s.encGptr.toNat ∧ s.encGptr.toNat < s.outLen.toNat

/-- An open decode run (R47). -/
structure State.DecodingOk (s : State) : Prop where
  fitsIn : s.inLen.toNat ≤ s.inCap.toNat
  unfinished : s.outLen.toNat < s.decU.toNat
  fitsOut : s.decU.toNat ≤ s.outCap.toNat
  ptrLow : 8 ≤ s.decInPtr.toNat
  ptrHigh : s.decInPtr.toNat ≤ s.inLen.toNat

/-- The run invariants: CUR never passes 4096 + IN_CAP (R31), a pending error leaves no run open (R204),
and an open run meets R47. -/
structure State.RunOk (s : State) : Prop where
  curCap : s.cur.toNat ≤ 4096 + s.inCap.toNat
  errIdle : s.err ≠ .none → s.mode = .idle
  encoding : s.mode = .encoding → s.EncodingOk
  decoding : s.mode = .decoding → s.DecodingOk

/-- The invariant of the machine: it holds after reset, for every legal capacity and all contents of IN
and OUT, and every step keeps it. -/
structure State.Inv (s : State) : Prop where
  caps : s.CapsOk
  storage : s.StorageOk
  window : s.WindowOk
  run : s.RunOk

/-- How many input bytes the item of a search result covers (R161). -/
def itemSpan (m : Nat × Nat) : Nat := if 3 ≤ m.1 then m.1 else 1

/-- The bytes of the item of a search result (R161, R93, R95). -/
def State.itemBytes (s : State) (m : Nat × Nat) : List Byte :=
  if 3 ≤ m.1 then
    let off := refOffset s.cur.toNat ((s.cur.toNat : Int) - m.2)
    [refByte0 off, refByte1 off (refCode m.1)]
  else [s.window.byte s.cur.toNat]

/-- The place of the next item in its group: 0 when it opens one (R162). -/
def State.itemIndex (s : State) : Nat := if s.encCnt = 8 then 0 else s.encCnt.val

/-- Where the next item's bytes go in OUT: after the control byte it reserves, if it opens a group
(R162). -/
def State.itemStart (s : State) : Nat := s.outLen.toNat + if s.encCnt = 8 then 1 else 0

/-- A state is safe when its step stops in no fault: the engine touches no address that does not exist
(R63) and every tree walk ends (R131). -/
def Safe (s : State) : Prop := ∀ f, step s ≠ .fault f

/-! ## Terms the statements use -/

/-- The number of a mode in STATUS bits 3:2, as the table of R24 gives it. -/
def Mode.number : Mode → Nat
  | .idle => 0
  | .encoding => 1
  | .decoding => 2

/-- The code of an error, as the table of R215 gives it. -/
def ErrCode.number : ErrCode → Nat
  | .none => 0
  | .truncatedStream => 1
  | .malformedReference => 2
  | .allocationFailure => 3
  | .outputOverrun => 4
  | .illegalCommand => 5
  | .indexArgument => 6
  | .sequence => 7

/-- The number of a link in ROOT and NODE_*, as R40 gives it. -/
def Link.number : Link → Nat
  | .nil => 0x1000
  | .rootMark => 0x1001
  | .slot s => s.val

/-- What R21 says the registers show, offset by offset, as numbers; STATUS as R24 lays it out. -/
def State.registers (s : State) : List (Nat × Nat) :=
  [(0x00, 0), (0x04, s.arg.toNat),
   (0x08, (if s.engine = .idle then 0 else 1) + 2 * s.done.toNat + 4 * s.mode.number
     + 16 * s.err.number + 256 * s.drop.toNat),
   (0x0C, s.errInfo.toNat), (0x10, s.inLen.toNat), (0x14, s.outLen.toNat), (0x18, s.cur.toNat),
   (0x1C, s.index.root.number), (0x20, s.matchLen.toNat), (0x24, s.matchPos.toNat)] ++
  [(0x28, s.nodeParent.number), (0x2C, s.nodeLeft.number), (0x30, s.nodeRight.number),
   (0x34, s.encGptr.toNat), (0x38, 256 * s.encCtrl.toNat + s.encCnt.val),
   (0x3C, s.decInPtr.toNat), (0x40, s.decU.toNat), (0x44, s.decC.toNat),
   (0x48, 256 * s.decCtrl.toNat + s.decBit.val), (0x4C, 0x53535A4C), (0x50, s.inCap.toNat),
   (0x54, s.outCap.toNat)]

/-- The state a command leaves that raises an error (R223): the error recorded, the run over, DONE clear,
BUSY fallen, every other location as it was. -/
def State.failed (s : State) (code : ErrCode) (info : Word) : State :=
  { s with err := code, errInfo := info, mode := .idle, done := false, engine := .idle }

/-- A command given again and again: the state after n of them, `none` when one does not end. -/
def repeatExec (i : Instr) : Nat → State → Option State
  | 0, s => some s
  | n + 1, s =>
    match exec i s with
    | .next t => repeatExec i n t
    | .fault _ => none
    | .refused _ => none

/-- `advanceWindow(count)` in the words of R128, from CUR = c: for each position, the slot of c - 4095 is
emptied if it holds a node, then position c is inserted. -/
def advanceSpec (w : Window) (c count : Nat) (ix : Index) : Run Index :=
  (List.range count).foldlM (fun ix i => do
    let t := slotOf (c + i + 1)
    let ix ← if ix.parent t ≠ .nil then remove t ix else pure ix
    insert w (c + i) (c + i) ix) ix

/-- `seed()` in the words of R129: an empty tree, then positions 1..4095 in order, with CUR = 4096. -/
def seedSpec (w : Window) : Run Index :=
  (List.range 4095).foldlM (fun ix i => insert w 4096 (i + 1) ix) .cleared

/-! ## The order of the tree -/

/-- R43: key(p) comes before key(q): at the first index where they differ, of 18, p's byte is the smaller,
unsigned. -/
def Window.KeyLt (w : Window) (p q : Nat) : Prop :=
  ∃ m, m < 18 ∧ (∀ i, i < m → w.byte (p + i) = w.byte (q + i)) ∧
    (w.byte (p + m)).toNat < (w.byte (q + m)).toNat

/-- R43: key(p) and key(q) are equal: all 18 bytes are. -/
def Window.KeyEq (w : Window) (p q : Nat) : Prop := ∀ i, i < 18 → w.byte (p + i) = w.byte (q + i)

/-- Slot t is q or a slot below it. -/
inductive Index.Under (ix : Index) : Slot → Slot → Prop where
  | here (q : Slot) : Under ix q q
  | left {q c t : Slot} (e : ix.left q = .slot c) (h : Under ix c t) : Under ix q t
  | right {q c t : Slot} (e : ix.right q = .slot c) (h : Under ix c t) : Under ix q t

/-- R45: the tree is a valid binary search tree by the keys of its positions: the keys under a node's left
link come before its own, those under its right link after it. -/
structure State.OrderOk (s : State) : Prop where
  left : ∀ q c t, s.index.left q = .slot c → s.index.Under c t →
    s.window.KeyLt (posOf s.cur.toNat t) (posOf s.cur.toNat q)
  right : ∀ q c t, s.index.right q = .slot c → s.index.Under c t →
    s.window.KeyLt (posOf s.cur.toNat q) (posOf s.cur.toNat t)

/-- R46: of the last 4095 positions the tree holds exactly those that are the most recent with their key. -/
def State.ContentOk (s : State) : Prop :=
  ∀ q : Nat, s.cur.toNat ≤ q + 4095 → q < s.cur.toNat →
    (s.index.parent (slotOf q) ≠ .nil ↔ ∀ p, q < p → p < s.cur.toNat → ¬ s.window.KeyEq p q)

end Sys2Proof.Machine
end

