-- ==== Sys2Proof/Certificates/Slice0/Obligations.lean ====
section
/-! DEFINITION. Certificates/Slice0/Obligations.lean: the statements for the provers. An equation
`exec i s = .next (record update of s)` says the instruction completes, its result, and its frame: every field
not named in the update keeps its value. -/

section
open Sys2Proof Sys2Proof.Machine

/-! ## Encodings -/

/-- R86, R88: the opcode map, for every 32-bit word. Words 0..15 are the sixteen commands, every other word is
illegal. -/
def Obligations.OpcodeMap : Prop :=
  ∀ w : Word,
    (w.toNat < 16 → [Instr.nop, .clearErr, .mfClear, .mfInit, .mfInsert, .mfRemove, .mfAdvance, .mfSearch,
        .mfReadNode, .encStart, .encStep, .encFinish, .compress, .decStart, .decStep,
        .decompress][w.toNat]? = some (decodeCommand w)) ∧
    (16 ≤ w.toNat → decodeCommand w = .illegal w ∧ (Instr.illegal w).wellFormed = true)

/-- R86, R90, R91, R93, R94: words written out from the spec's tables and test vectors decode to the forms they
stand for: DEC_STEP, an illegal word, the header and reference of S1, a control byte, a literal. The command words
are given as bytes, lowest address least significant: the model's reading (log 15). -/
def Obligations.SpecWordsDecode : Prop :=
  decode .command [0x0E, 0x00, 0x00, 0x00] = some (.decStep, []) ∧
  decode .command [0x07, 0x00, 0x00, 0x00] = some (.mfSearch, []) ∧
  decode .command [0x09, 0x00, 0x00, 0x00] = some (.encStart, []) ∧
  decode .command [0x00, 0x01, 0x00, 0x00] = some (.illegal 0x100, []) ∧
  decode .header [0x0D, 0, 0, 0, 0x0A, 0, 0, 0, 0x03] = some (.streamHeader 13 10, [0x03]) ∧
  decode .control [0x03, 0x41] = some (.streamCtrl 0x03, [0x41]) ∧
  decode .literal [0x41, 0x42] = some (.lit 0x41, [0x42]) ∧
  decode .reference [0xEE, 0xF5] = some (.ref 0xFEE 5, [])

/-- Decode and encode agree: every well-formed instruction, whatever its fields hold, is read back from its own
bytes, and the bytes after it are left. The byte order of a command word is the model's reading (log 15). -/
def Obligations.DecodeOfEncode : Prop :=
  ∀ (i : Instr) (rest : List Byte), i.wellFormed = true →
    decode i.space (encode i ++ rest) = some (i, rest)

/-- Encode and decode agree: whatever bytes the decoder reads, it reads a well-formed instruction of the space
asked for, whose encoding is those bytes; so no bit of an encoding is dropped. The byte order of a command word is
the model's reading (log 15). -/
def Obligations.EncodeOfDecode : Prop :=
  ∀ (k : Space) (bytes rest : List Byte) (i : Instr), decode k bytes = some (i, rest) →
    i.wellFormed = true ∧ i.space = k ∧ encode i ++ rest = bytes

/-- R94, R95, R96: the fields of a reference as numbers. Encoder side: the first byte is off[7:0], the second
`off[11:8] << 4 | lc`, and the offset of a match at mpos seen from cur is `(mpos - 18) mod 4096`, the second form
of the source's formula. Decoder side: off is the second byte's high nibble above the first byte, and the length
is the second byte's low nibble plus 3. -/
def Obligations.ReferenceFields : Prop :=
  (∀ (off : BitVec 12) (lc : BitVec 4),
    (refByte0 off).toNat = off.toNat % 256 ∧ (refByte1 off lc).toNat = off.toNat / 256 * 16 + lc.toNat) ∧
  (∀ cur mpos : Nat, ((refOffset cur ((cur : Int) - mpos)).toNat : Int) = ((mpos : Int) - 18) % 4096) ∧
  (∀ b0 b1 : Byte,
    (refOff b0 b1).toNat = b1.toNat / 16 * 256 + b0.toNat ∧ refLength (refLc b0 b1) = b1.toNat % 16 + 3)

/-- R101: for every output position and every backset 1..4095, the decoder's formula gives back the backset
the encoder's formula encoded; for 4096 it gives 0. -/
def Obligations.OffsetFormulasAgree : Prop :=
  ∀ cur b : Nat,
    (1 ≤ b → b ≤ 4095 → refBackset cur (refOffset cur (b : Int)) = b) ∧
    refBackset cur (refOffset cur 4096) = 0

/-- R69, R70: a header integer is the sum of its bytes, the lowest address least significant, and its bytes
are written back in the same order. -/
def Obligations.LittleEndianWords : Prop :=
  ∀ b0 b1 b2 b3 : Byte,
    (leWord b0 b1 b2 b3).toNat =
      b0.toNat + 256 * b1.toNat + 65536 * b2.toNat + 16777216 * b3.toNat ∧
    leBytes (leWord b0 b1 b2 b3) = [b0, b1, b2, b3]

/-- R42, R67, R121: the position posOf names for a slot is the one position of the last 4096 up to CUR that has
that slot; a window byte is zero before the data and past its end; cmpKey counts the common prefix, capped at n,
and tells EQUAL, LESS or GREATER by the first differing byte, unsigned. -/
def Obligations.KeysAndPositions : Prop :=
  (∀ (cur : Nat) (k : Slot), 4096 ≤ cur →
    (posOf cur k : Int) = cur - ((cur : Int) - k.val) % 4096 ∧
    (∀ p : Nat, cur ≤ p + 4095 → p ≤ cur → p % 4096 = k.val → p = posOf cur k)) ∧
  (∀ (s : State) (p : Nat), s.window.byte p =
    if p < 4096 then 0 else if p < 4096 + s.inLen.toNat then s.inMem.read (p - 4096) else 0) ∧
  (∀ (w : Window) (a b n : Nat),
    (cmpKey w a b n).1 ≤ n ∧
    (∀ k, k < (cmpKey w a b n).1 → w.byte (a + k) = w.byte (b + k)) ∧
    ((cmpKey w a b n).1 = n → (cmpKey w a b n).2 = .equal) ∧
    ((cmpKey w a b n).1 < n →
      ((w.byte (a + (cmpKey w a b n).1)).toNat < (w.byte (b + (cmpKey w a b n).1)).toNat ∧
        (cmpKey w a b n).2 = .less ∨
      (w.byte (b + (cmpKey w a b n).1)).toNat < (w.byte (a + (cmpKey w a b n).1)).toNat ∧
        (cmpKey w a b n).2 = .greater)))

/-! ## Steps and the host -/

/-- A step runs the decoded instruction: when the host's write of w to CMD lands on an idle block, the step is exec
of the instruction w decodes to, with BUSY at 1 then and after it. The activity ends, and BUSY falls, when nothing
waits, a POLL waits, or `engineEnds` is next. An idle engine starts nothing on its own (R200). The host list and
`engineEnds` are the model's (log 5). -/
def Obligations.StepRunsCommand : Prop :=
  (∀ (s t : State) (w : Word) (rest : List HostAccess), s.engine = .idle → s.host = .storeReg 0x00 w :: rest →
    exec (decodeCommand w) { s with host := rest, engine := .running } = .next t →
    step s = .next { t with engine := .running }) ∧
  (∀ (s : State) (rest : List HostAccess), s.engine ≠ .idle →
    (s.host = [] → step s = .next { s with engine := .idle }) ∧
    (s.host = .poll :: rest → step s = .next { s with engine := .idle }) ∧
    (s.host = .engineEnds :: rest → step s = .next { s with host := rest, engine := .idle })) ∧
  (∀ s : State, s.engine = .idle → s.host = [] → step s = .next s)

/-- R102, R103: a command statement, `STORE_REG 0x00, w ; POLL`, on an idle block is three steps: the word is
accepted and its command runs, its activity ends, and the POLL reads STATUS with BUSY = 0. The host list and the
read latch are the model's (logs 5, 6). -/
def Obligations.CommandStatementRuns : Prop :=
  ∀ (s t : State) (w : Word) (rest : List HostAccess), s.engine = .idle →
    s.host = hostCommand w ++ rest →
    exec (decodeCommand w) { s with engine := .running, host := .poll :: rest } = .next t →
    step s = .next { t with engine := .running } ∧
    step { t with engine := .running } = .next t ∧
    step t = .next { t with host := rest, readData := t.statusWord } ∧
    t.statusWord.getLsbD 0 = false

/-- The stream forms are what the decoder's commands do with the bytes that stand next in IN: DEC_START is
STREAM_HEADER of the 8 bytes at IN address 0; DEC_STEP is STREAM_CTRL of the byte at DEC_IN_PTR when no group is
open, LIT of that byte when the next control bit is 1, REF of the two bytes there when it is 0 (log 10). -/
def Obligations.DecoderReadsForms : Prop :=
  (∀ s : State, ∃ i, decode .header [s.inMem.read 0, s.inMem.read 1, s.inMem.read 2, s.inMem.read 3, s.inMem.read 4,
        s.inMem.read 5, s.inMem.read 6, s.inMem.read 7] = some (i, []) ∧
      exec .decStart s = exec i s) ∧
  (∀ s : State, s.mode = .decoding → s.DecodingOk → s.decInPtr.toNat < s.inLen.toNat →
    (s.decBit = 8 → ∃ i, decode .control [s.inMem.read s.decInPtr.toNat] = some (i, []) ∧
      exec .decStep s = exec i s) ∧
    (s.decBit ≠ 8 → s.decCtrl.getLsbD s.decBit.val = true →
      ∃ i, decode .literal [s.inMem.read s.decInPtr.toNat] = some (i, []) ∧
        exec .decStep s = exec i s) ∧
    (s.decBit ≠ 8 → s.decCtrl.getLsbD s.decBit.val = false → s.decInPtr.toNat + 2 ≤ s.inLen.toNat →
      ∃ i, decode .reference [s.inMem.read s.decInPtr.toNat, s.inMem.read (s.decInPtr.toNat + 1)] =
          some (i, []) ∧
        exec .decStep s = exec i s))

/-- R22, R200, R252: a host write of w to CMD starts the command w when BUSY = 0: from a state of the invariant it
runs and BUSY is 1 after the step. It is dropped when BUSY = 1, and DROP is still set when the activity has ended,
also when that is CLEAR_ERR's. CMD reads 0. -/
def Obligations.CmdRegister : Prop :=
  ∀ (s : State) (w : Word) (rest : List HostAccess),
    (s.host = .storeReg 0x00 w :: rest → s.engine = .idle → s.Inv →
      ∃ t, exec (decodeCommand w) { s with host := rest, engine := .running } = .next t ∧
        step s = .next { t with engine := .running } ∧ t.host = rest) ∧
    (s.host = .storeReg 0x00 w :: rest → s.engine ≠ .idle →
      step s = .next { s with host := rest, drop := true } ∧
      step { s with host := .engineEnds :: rest, drop := true } =
        .next { s with host := rest, drop := true, engine := .idle }) ∧
    (s.host = .loadReg 0x00 :: rest → s.engine = .idle →
      step s = .next { s with host := rest, readData := 0 })

/-- R23: ARG takes a host write when BUSY = 0, drops it with STATUS.DROP when BUSY = 1, reads back whole, and no
command writes it. The stream forms are among the instructions: the model's choice (log 10). -/
def Obligations.ArgRegister : Prop :=
  (∀ (s : State) (v : Word) (rest : List HostAccess),
    (s.host = .storeReg 0x04 v :: rest → s.engine = .idle →
      step s = .next { s with host := rest, arg := v }) ∧
    (s.host = .storeReg 0x04 v :: rest → s.engine ≠ .idle →
      step s = .next { s with host := rest, drop := true }) ∧
    (s.host = .loadReg 0x04 :: rest → s.engine = .idle →
      step s = .next { s with host := rest, readData := s.arg })) ∧
  (∀ (i : Instr) (s t : State), exec i s = .next t → t.arg = s.arg)

/-- R27: IN_LEN takes any host write when BUSY = 0 and MODE = IDLE, and drops it with STATUS.DROP otherwise; no
command writes it, nor a byte of IN (R62), nor the capacities (R34), nor what is the host's; every command ends
with BUSY = 0. The stream forms are among the instructions (log 10), and what is the host's are the model's own
fields (logs 3, 5, 6). -/
def Obligations.CommandsLeaveInput : Prop :=
  (∀ (s : State) (v : Word) (rest : List HostAccess), s.host = .storeReg 0x10 v :: rest →
    (s.engine = .idle → s.mode = .idle → step s = .next { s with host := rest, inLen := v }) ∧
    (¬ (s.engine = .idle ∧ s.mode = .idle) → step s = .next { s with host := rest, drop := true })) ∧
  (∀ (i : Instr) (s t : State), exec i s = .next t →
    t.inLen = s.inLen ∧ t.inMem = s.inMem ∧ t.inCap = s.inCap ∧ t.outCap = s.outCap ∧ t.host = s.host ∧
      t.readData = s.readData ∧ t.freeCount = s.freeCount ∧ t.engine = .idle)

/-- R65: a host write of a byte of IN is performed when BUSY = 0 and MODE = IDLE, and is otherwise dropped
with STATUS.DROP; a host write to OUT is always dropped with STATUS.DROP. -/
def Obligations.HostWriteGating : Prop :=
  ∀ (s : State) (a : Nat) (v : Byte) (rest : List HostAccess),
    (s.host = .storeIn a v :: rest → a < s.inCap.toNat → s.engine = .idle → s.mode = .idle →
      ∃ m, step s = .next { s with host := rest, inMem := m } ∧
        ∀ b, m.read b = if b = a then v else s.inMem.read b) ∧
    (s.host = .storeIn a v :: rest → a < s.inCap.toNat → ¬ (s.engine = .idle ∧ s.mode = .idle) →
      step s = .next { s with host := rest, drop := true }) ∧
    (s.host = .storeOut a v :: rest → a < s.outCap.toNat →
      step s = .next { s with host := rest, drop := true })

/-- R203: while BUSY = 1 a host write to CMD, ARG, IN_LEN or IN changes nothing but STATUS.DROP; a write to a
read-only or reserved offset is ignored as always. -/
def Obligations.WritesWhileBusy : Prop :=
  ∀ (s : State) (off a : Nat) (v : Word) (b : Byte) (rest : List HostAccess), s.engine ≠ .idle →
    (s.host = .storeReg off v :: rest → off = 0x00 ∨ off = 0x04 ∨ off = 0x10 →
      step s = .next { s with host := rest, drop := true }) ∧
    (s.host = .storeIn a b :: rest → a < s.inCap.toNat →
      step s = .next { s with host := rest, drop := true }) ∧
    (s.host = .storeReg off v :: rest → off % 4 = 0 → off ≤ 0xFC → off ≠ 0x00 → off ≠ 0x04 → off ≠ 0x10 →
      step s = .next { s with host := rest })

/-- R21, R24, R34, R36, R37, R40, R64: what a host read of each register returns while BUSY = 0, with STATUS, the
links and the group registers laid out as their tables say; a host read of a byte of IN or OUT returns that byte.
A read changes nothing else (R72). (The byte of IN is returned also while BUSY = 1: the model's reading of R62 and
R77, log 7.) -/
def Obligations.HostReads : Prop :=
  ∀ (s : State) (off n a : Nat) (rest : List HostAccess),
    (s.host = .loadReg off :: rest → s.engine = .idle → (off, n) ∈ s.registers →
      step s = .next { s with host := rest, readData := BitVec.ofNat 32 n } ∧ n < 2 ^ 32) ∧
    (s.host = .loadIn a :: rest → a < s.inCap.toNat →
      step s = .next { s with host := rest, readData := (s.inMem.read a).setWidth 32 }) ∧
    (s.host = .loadOut a :: rest → a < s.outCap.toNat → s.engine = .idle →
      step s = .next { s with host := rest, readData := (s.outMem.read a).setWidth 32 })

/-- R34, R38: ID reads the constant, IN_CAP and OUT_CAP read the parameters, and nothing changes the parameters.
Reserved offsets read 0, and writes to them are ignored and do not set STATUS.DROP, at any time (that they read 0
while BUSY = 1 is the model's reading, log 8). -/
def Obligations.ConstantsAndReserved : Prop :=
  (∀ (s : State) (rest : List HostAccess), s.engine = .idle →
    (s.host = .loadReg 0x4C :: rest → step s = .next { s with host := rest, readData := 0x53535A4C }) ∧
    (s.host = .loadReg 0x50 :: rest → step s = .next { s with host := rest, readData := s.inCap }) ∧
    (s.host = .loadReg 0x54 :: rest → step s = .next { s with host := rest, readData := s.outCap })) ∧
  (∀ s t : State, step s = .next t → t.inCap = s.inCap ∧ t.outCap = s.outCap) ∧
  (∀ (s : State) (off : Nat) (v : Word) (rest : List HostAccess), 0x58 ≤ off → off ≤ 0xFC → off % 4 = 0 →
    (s.host = .loadReg off :: rest → step s = .next { s with host := rest, readData := 0 }) ∧
    (s.host = .storeReg off v :: rest → step s = .next { s with host := rest }))

/-- R77: while BUSY = 1 a host read of STATUS shows BUSY = 1, bits 31:9 zero, and anything in the other fields;
a host read of any other register, or of OUT, returns some value the statement says nothing of. The block's own
state does not change. The latch and the counter of free values are the model's (logs 3, 6, 8). -/
def Obligations.ReadsWhileBusy : Prop :=
  ∀ (s : State) (off a : Nat) (rest : List HostAccess), s.engine ≠ .idle →
    (s.host = .loadReg 0x08 :: rest → ∃ v : Word, v.getLsbD 0 = true ∧ v.toNat < 512 ∧
      step s = .next { s with host := rest, readData := v, freeCount := s.freeCount + 1 }) ∧
    (s.host = .loadReg off :: rest → off % 4 = 0 → off ≤ 0x54 → off ≠ 0x08 →
      ∃ v, step s = .next { s with host := rest, readData := v, freeCount := s.freeCount + 1 }) ∧
    (s.host = .loadOut a :: rest → a < s.outCap.toNat →
      ∃ v : Byte, step s = .next { s with
        host := rest, readData := v.setWidth 32, freeCount := s.freeCount + 1 })

/-- R66: a host access outside a space is refused: a REG offset above 0xFF or no multiple of 4, an IN address
at or above IN_CAP, an OUT address at or above OUT_CAP. -/
def Obligations.OutsideAccessRefused : Prop :=
  ∀ (s : State) (off a : Nat) (v : Word) (b : Byte) (rest : List HostAccess),
    (0xFF < off ∨ off % 4 ≠ 0 → s.host = .storeReg off v :: rest ∨ s.host = .loadReg off :: rest →
      step s = .refused .outsideSpace) ∧
    (s.inCap.toNat ≤ a → s.host = .storeIn a b :: rest ∨ s.host = .loadIn a :: rest →
      step s = .refused .outsideSpace) ∧
    (s.outCap.toNat ≤ a → s.host = .storeOut a b :: rest ∨ s.host = .loadOut a :: rest →
      step s = .refused .outsideSpace)

/-- R241: the values after reset, for every capacity and all contents of IN and OUT: every register reads as
the list says, reserved offsets read 0, and every arena entry is empty. -/
def Obligations.ResetValues : Prop :=
  ∀ (inCap outCap : Word) (inMem outMem : Memory) (s : State), s = State.afterReset inCap outCap inMem outMem →
    s.engine = .idle ∧
    s.registers = [(0x00, 0), (0x04, 0), (0x08, 0), (0x0C, 0), (0x10, 0), (0x14, 0), (0x18, 0x1000),
      (0x1C, 0x1000), (0x20, 2), (0x24, 0), (0x28, 0x1000), (0x2C, 0x1000), (0x30, 0x1000), (0x34, 0),
      (0x38, 8), (0x3C, 0), (0x40, 0), (0x44, 0), (0x48, 8), (0x4C, 0x53535A4C), (0x50, inCap.toNat),
      (0x54, outCap.toNat)] ∧
    (∀ off : Nat, 0x58 ≤ off → s.regView off = 0) ∧
    ∀ k : Slot, s.index.node k = ⟨.nil, .nil, .nil⟩

/-- R240: the platform's reset, whatever runs: every register takes its reset value, the arena is cleared, and
BUSY is 1 until the reset sequence ends. Nothing is said of the bytes of IN and OUT, which are free values (log 3).
That the registers take their values when reset is asserted is the model's reading (log 9). -/
def Obligations.PlatformReset : Prop :=
  ∀ (s : State) (rest : List HostAccess), s.host = .platformReset :: rest →
    ∃ t, step s = .next t ∧ t.engine = .resetting ∧ t.host = rest ∧
      t.registers = [(0x00, 0), (0x04, 0), (0x08, 1), (0x0C, 0), (0x10, 0), (0x14, 0), (0x18, 0x1000),
        (0x1C, 0x1000), (0x20, 2), (0x24, 0), (0x28, 0x1000), (0x2C, 0x1000), (0x30, 0x1000), (0x34, 0),
        (0x38, 8), (0x3C, 0), (0x40, 0), (0x44, 0), (0x48, 8), (0x4C, 0x53535A4C), (0x50, s.inCap.toNat),
        (0x54, s.outCap.toNat)] ∧
      (∀ k : Slot, t.index.node k = ⟨.nil, .nil, .nil⟩) ∧
      step { t with host := [] } = .next { t with host := [], engine := .idle }

/-! ## Dispatch and errors -/

/-- R204: while an error is pending every command word but NOP and CLEAR_ERR is refused: it runs nothing, raises
nothing, and sets STATUS.DROP; in a state of the invariant MODE is IDLE then. -/
def Obligations.PendingErrorRefuses : Prop :=
  ∀ (s : State) (w : Word), s.err ≠ .none →
    (2 ≤ w.toNat → exec (decodeCommand w) s = .next { s with drop := true, engine := .idle }) ∧
    (s.Inv → s.mode = .idle)

/-- R220: an illegal command word, with no error pending, raises ILLEGAL_COMMAND with ERR_INFO = the word. -/
def Obligations.IllegalCommandRaises : Prop :=
  ∀ (s : State) (w : Word), s.err = .none →
    w.extractLsb' 8 24 ≠ 0 ∨ 0x10 ≤ (w.extractLsb' 0 8).toNat →
    exec (.illegal w) s = .next (s.failed .illegalCommand w)

/-- R222, R207: SEQUENCE with ERR_INFO = the command word, from a command its row of the mode table marks "no" for
the mode, from ENC_STEP with no input left, and from ENC_FINISH with input left. -/
def Obligations.SequenceErrors : Prop :=
  (∀ (s : State) (w : Word), s.err = .none →
    2 ≤ w.toNat ∧ w.toNat ≤ 6 ∧ s.mode ≠ .idle ∨
    7 ≤ w.toNat ∧ w.toNat ≤ 8 ∧ s.mode = .decoding ∨
    10 ≤ w.toNat ∧ w.toNat ≤ 11 ∧ s.mode ≠ .encoding ∨
    w.toNat = 14 ∧ s.mode ≠ .decoding →
    exec (decodeCommand w) s = .next (s.failed .sequence w)) ∧
  (∀ s : State, s.err = .none → s.mode = .encoding →
    (s.endPos ≤ s.cur.toNat → exec .encStep s = .next (s.failed .sequence 0x0A)) ∧
    (s.cur.toNat ≠ s.endPos → exec .encFinish s = .next (s.failed .sequence 0x0B)))

/-- R223, R202: a command other than DECOMPRESS that raises an error leaves every location as it was but ERR,
ERR_INFO, MODE, DONE and BUSY. -/
def Obligations.ErrorKeepsTheRest : Prop :=
  ∀ (s t : State) (w : Word), s.err = .none → w.toNat ≠ 0x0F → exec (decodeCommand w) s = .next t →
    t.err ≠ .none → t = s.failed t.err t.errInfo

/-- R24, R224: ERR, ERR_INFO and DROP are sticky: no instruction but CLEAR_ERR clears DROP, or changes a pending
error. The stream forms are among the instructions: the model's choice (log 10). -/
def Obligations.ErrorsAreSticky : Prop :=
  ∀ (i : Instr) (s t : State), i.wellFormed = true → i ≠ .clearErr → exec i s = .next t →
    (s.drop = true → t.drop = true) ∧
    (s.err ≠ .none → t.err = s.err ∧ t.errInfo = s.errInfo ∧ t.outMem = s.outMem ∧ t.index = s.index)

/-- R25: only ENC_START opens an encode run and only DEC_START (or its header form) a decode run; every other
instruction leaves MODE or makes it IDLE; COMPRESS and DECOMPRESS end in IDLE. R209, R24: STATUS.DONE is set only
by a command that completes a run; an error clears it; the match index commands that raise none, NOP and CLEAR_ERR
leave it. The stream forms are among the instructions: the model's choice (log 10). -/
def Obligations.ModeAndDoneChanges : Prop :=
  (∀ (i : Instr) (s t : State), s.Inv → exec i s = .next t →
    (t.mode = .encoding → i = .encStart ∨ s.mode = .encoding ∧ i ≠ .compress ∧ i ≠ .encFinish) ∧
    (t.mode = .decoding → i = .decStart ∨ (∃ c u, i = .streamHeader c u) ∨
      s.mode = .decoding ∧ i ≠ .decompress) ∧
    (i = .compress ∨ i = .decompress → s.err = .none → t.mode = .idle)) ∧
  (∀ (i : Instr) (s t : State), exec i s = .next t →
    (t.done = true → s.done = true ∨ i = .encFinish ∨ i = .compress ∨ i = .decStart ∨ i = .decStep ∨
      i = .decompress ∨ i.space ≠ .command) ∧
    (s.err = .none → t.err ≠ .none → t.done = false) ∧
    (i = .nop ∨ i = .clearErr → t.done = s.done) ∧
    (i = .mfClear ∨ i = .mfInit ∨ i = .mfInsert ∨ i = .mfRemove ∨ i = .mfAdvance ∨ i = .mfSearch ∨
      i = .mfReadNode → t.err = s.err → t.done = s.done))

/-- R28, R29, R32, R33, R35, R36, R37: which commands write which registers, the tree and OUT. Every command
not named leaves them. -/
def Obligations.RegisterWriters : Prop :=
  ∀ (w : Word) (s t : State), exec (decodeCommand w) s = .next t →
    (w ≠ 0x08 → t.nodeParent = s.nodeParent ∧ t.nodeLeft = s.nodeLeft ∧ t.nodeRight = s.nodeRight) ∧
    (w ≠ 0x07 → w ≠ 0x0A → w ≠ 0x0C → t.matchLen = s.matchLen ∧ t.matchPos = s.matchPos) ∧
    (w ≠ 0x09 → w ≠ 0x0A → w ≠ 0x0C →
      t.encGptr = s.encGptr ∧ t.encCnt = s.encCnt ∧ t.encCtrl = s.encCtrl) ∧
    (w ≠ 0x0D → w ≠ 0x0E → w ≠ 0x0F → t.decInPtr = s.decInPtr ∧ t.decU = s.decU ∧ t.decC = s.decC ∧
      t.decBit = s.decBit ∧ t.decCtrl = s.decCtrl) ∧
    (w.toNat < 0x09 ∨ 0x0F < w.toNat → t.outLen = s.outLen ∧ t.outMem = s.outMem) ∧
    (w = 0x0B → t.outLen = s.outLen) ∧
    (w ≠ 0x02 → w ≠ 0x03 → w ≠ 0x06 → w ≠ 0x09 → w ≠ 0x0A → w ≠ 0x0C → t.cur = s.cur ∧
      (w ≠ 0x04 → w ≠ 0x05 → t.index = s.index))

/-- R180: the decoder does not write the tree, CUR, MATCH_*, ENC_* or NODE_*. With RegisterWriters this is the
frame of DEC_START, DEC_STEP, DECOMPRESS and of the four stream forms. That the stream forms act by themselves is
the model's choice (log 10). -/
def Obligations.DecoderFrame : Prop :=
  ∀ (i : Instr) (s t : State),
    i = .decStart ∨ i = .decStep ∨ i = .decompress ∨ (∃ c u, i = .streamHeader c u) ∨
      (∃ b, i = .streamCtrl b) ∨ (∃ v, i = .lit v) ∨ (∃ off lc, i = .ref off lc) →
    exec i s = .next t →
    t.index = s.index ∧ t.cur = s.cur ∧ t.matchLen = s.matchLen ∧ t.matchPos = s.matchPos ∧
      t.encGptr = s.encGptr ∧ t.encCnt = s.encCnt ∧ t.encCtrl = s.encCtrl ∧
      t.nodeParent = s.nodeParent ∧ t.nodeLeft = s.nodeLeft ∧ t.nodeRight = s.nodeRight

/-- R218: every command that reads IN, in every mode that allows it, first checks IN_LEN <= IN_CAP; ENC_START and
COMPRESS then check the worst-case stream against OUT_CAP; DEC_START and DECOMPRESS the header's size U. MF_CLEAR,
MF_REMOVE and MF_READ_NODE raise no ALLOCATION_FAILURE. -/
def Obligations.AllocationFailure : Prop :=
  (∀ (s : State) (i : Instr), s.err = .none → s.inCap.toNat < s.inLen.toNat →
    s.mode = .idle ∧ (i = .mfInit ∨ i = .mfInsert ∨ i = .mfAdvance) ∨ s.mode ≠ .decoding ∧ i = .mfSearch ∨
      i = .encStart ∨ i = .compress ∨ i = .decStart ∨ i = .decompress →
    exec i s = .next (s.failed .allocationFailure s.inLen)) ∧
  (∀ (s : State) (i : Instr), s.err = .none → s.inLen.toNat ≤ s.inCap.toNat →
    s.outCap.toNat < 8 + (s.inLen.toNat + 7) / 8 + s.inLen.toNat → i = .encStart ∨ i = .compress →
    exec i s = .next (s.failed .allocationFailure
      (BitVec.ofNat 32 (8 + (s.inLen.toNat + 7) / 8 + s.inLen.toNat)))) ∧
  (∀ (s : State) (i : Instr), s.err = .none → s.inLen.toNat ≤ s.inCap.toNat → 8 ≤ s.inLen.toNat →
    s.outCap.toNat < (s.le32 4).toNat → i = .decStart ∨ i = .decompress →
    exec i s = .next (s.failed .allocationFailure (s.le32 4))) ∧
  (∀ (s t : State) (i : Instr), s.err = .none → i = .mfClear ∨ i = .mfRemove ∨ i = .mfReadNode →
    exec i s = .next t → t.err ≠ .allocationFailure)

/-- R216: TRUNCATED_STREAM with ERR_INFO = IN_LEN, from DEC_START when the header does not fit, and from DEC_STEP
when the control byte, the literal or a reference byte it needs is at or beyond IN_LEN. -/
def Obligations.TruncatedStream : Prop :=
  (∀ s : State, s.err = .none → s.inLen.toNat ≤ s.inCap.toNat → s.inLen.toNat < 8 →
    exec .decStart s = .next (s.failed .truncatedStream s.inLen)) ∧
  (∀ s : State, s.err = .none → s.mode = .decoding → s.DecodingOk →
    (s.decBit = 8 → s.inLen.toNat ≤ s.decInPtr.toNat →
      exec .decStep s = .next (s.failed .truncatedStream s.inLen)) ∧
    (s.decBit = 8 → s.decInPtr.toNat < s.inLen.toNat →
      s.inLen.toNat < s.decInPtr.toNat + (if (s.inMem.read s.decInPtr.toNat).getLsbD 0 then 2 else 3) →
      exec .decStep s = .next (s.failed .truncatedStream s.inLen)) ∧
    (s.decBit ≠ 8 →
      s.inLen.toNat < s.decInPtr.toNat + (if s.decCtrl.getLsbD s.decBit.val then 1 else 2) →
      exec .decStep s = .next (s.failed .truncatedStream s.inLen)))

/-- R217, R187, R219: a reference found present is malformed exactly when its backset, `(OUT_LEN - 18 - off) mod
4096`, is 0: MALFORMED_REFERENCE, before the size check; one that is not malformed and would produce bytes past
DEC_U raises OUTPUT_OVERRUN. ERR_INFO is OUT_LEN in both. That the REF form does this with its own fields is the
model's choice (log 10); DecoderReadsForms ties it to DEC_STEP. -/
def Obligations.ReferenceErrors : Prop :=
  ∀ (s : State) (off : BitVec 12) (lc : BitVec 4), s.err = .none → s.mode = .decoding → s.decBit ≠ 8 →
    s.decCtrl.getLsbD s.decBit.val = false →
    (((s.outLen.toNat : Int) - 18 - off.toNat) % 4096 = 0 →
      exec (.ref off lc) s = .next (s.failed .malformedReference s.outLen)) ∧
    (((s.outLen.toNat : Int) - 18 - off.toNat) % 4096 ≠ 0 → ∀ t, exec (.ref off lc) s = .next t →
      t.err ≠ .malformedReference) ∧
    (((s.outLen.toNat : Int) - 18 - off.toNat) % 4096 ≠ 0 →
      s.decU.toNat < s.outLen.toNat + (lc.toNat + 3) →
      exec (.ref off lc) s = .next (s.failed .outputOverrun s.outLen))

/-! ## Control commands and the match index -/

/-- R205: NOP, in every mode and also while an error is pending, changes nothing (BUSY falls); words with opcode
0x00 and other bits set are illegal, not NOP. R206: CLEAR_ERR, in every mode and also while an error is pending,
clears ERR, ERR_INFO and DROP and nothing else. -/
def Obligations.ControlCommands : Prop :=
  (∀ s : State, exec .nop s = .next { s with engine := .idle }) ∧
  (∀ w : Word, w.extractLsb' 0 8 = 0 → w ≠ 0 → decodeCommand w = .illegal w) ∧
  (∀ s : State, exec .clearErr s =
    .next { s with err := .none, errInfo := 0, drop := false, engine := .idle })

/-- R133: MF_CLEAR in IDLE empties the tree and sets CUR to 4096; in another mode it raises SEQUENCE. R134: MF_INIT
in IDLE, with the input inside IN, builds the seeded window (R129): the tree that inserting positions 1..4095 in
order gives, CUR = 4096. It is a tree (R44). -/
def Obligations.MfClearInitResult : Prop :=
  ∀ s : State, s.err = .none →
    (s.mode = .idle → ∃ ix : Index, ix.root = .nil ∧ (∀ k : Slot, ix.node k = ⟨.nil, .nil, .nil⟩) ∧
      exec .mfClear s = .next { s with index := ix, cur := 4096, engine := .idle }) ∧
    (s.mode ≠ .idle → exec .mfClear s = .next (s.failed .sequence 0x02)) ∧
    (s.mode = .idle → s.inLen.toNat ≤ s.inCap.toNat →
      ∃ ix : Index, seedSpec s.window = .ok ix ∧ ix.TreeShape ∧ ix.parent (slotOf 4096) = .nil ∧
        exec .mfInit s = .next { s with index := ix, cur := 4096, engine := .idle })

/-- R135: MF_INSERT of ARG in IDLE. Outside the live range or into an occupied slot it raises INDEX_ARGUMENT;
else it inserts the position (R123): slot(ARG) becomes occupied, the links stay a tree, and no empty slot but
that one becomes occupied. -/
def Obligations.MfInsertResult : Prop :=
  ∀ s : State, s.err = .none → s.mode = .idle → s.inLen.toNat ≤ s.inCap.toNat →
    ((s.arg.toNat + 4095 < s.cur.toNat ∨ s.cur.toNat < s.arg.toNat + 1 ∨
        s.index.parent (slotOf s.arg.toNat) ≠ .nil) →
      exec .mfInsert s = .next (s.failed .indexArgument s.arg)) ∧
    (s.WindowOk → s.cur.toNat ≤ s.arg.toNat + 4095 → s.arg.toNat + 1 ≤ s.cur.toNat →
      s.index.parent (slotOf s.arg.toNat) = .nil →
      ∃ ix : Index, insert s.window s.cur.toNat s.arg.toNat s.index = .ok ix ∧ ix.TreeShape ∧
        ix.parent (slotOf s.arg.toNat) ≠ .nil ∧
        (∀ k, k ≠ slotOf s.arg.toNat → s.index.parent k = .nil → ix.parent k = .nil) ∧
        exec .mfInsert s = .next { s with index := ix, engine := .idle })

/-- R136: MF_REMOVE of ARG in IDLE. Outside the live range or of an empty slot it raises INDEX_ARGUMENT; else it
removes the position (R124, R125, log 13): slot(ARG) becomes empty, no other slot changes between empty and occupied,
and the links stay a tree. -/
def Obligations.MfRemoveResult : Prop :=
  ∀ s : State, s.err = .none → s.mode = .idle →
    ((s.arg.toNat + 4095 < s.cur.toNat ∨ s.cur.toNat < s.arg.toNat + 1 ∨
        s.index.parent (slotOf s.arg.toNat) = .nil) →
      exec .mfRemove s = .next (s.failed .indexArgument s.arg)) ∧
    (s.WindowOk → s.cur.toNat ≤ s.arg.toNat + 4095 → s.arg.toNat + 1 ≤ s.cur.toNat →
      s.index.parent (slotOf s.arg.toNat) ≠ .nil →
      ∃ ix : Index, remove (slotOf s.arg.toNat) s.index = .ok ix ∧ ix.TreeShape ∧
        (∀ k, ix.parent k = .nil ↔ k = slotOf s.arg.toNat ∨ s.index.parent k = .nil) ∧
        ix.node (slotOf s.arg.toNat) = ⟨.nil, .nil, .nil⟩ ∧
        exec .mfRemove s = .next { s with index := ix, engine := .idle })

/-- R137: MF_ADVANCE by ARG in IDLE. Past END it raises INDEX_ARGUMENT; else it advances the window (R128): each
position in turn retires the slot of the position 4095 before it and enters, and CUR rises by ARG. -/
def Obligations.MfAdvanceResult : Prop :=
  ∀ s : State, s.err = .none → s.mode = .idle → s.inLen.toNat ≤ s.inCap.toNat →
    (4096 + s.inLen.toNat < s.cur.toNat + s.arg.toNat →
      exec .mfAdvance s = .next (s.failed .indexArgument s.arg)) ∧
    (s.WindowOk → s.inCap.toNat ≤ 2 ^ 31 → s.cur.toNat + s.arg.toNat ≤ 4096 + s.inLen.toNat →
      ∃ ix : Index, advanceSpec s.window s.cur.toNat s.arg.toNat s.index = .ok ix ∧ ix.TreeShape ∧
        ix.parent (slotOf (s.cur.toNat + s.arg.toNat)) = .nil ∧
        (s.cur + s.arg).toNat = s.cur.toNat + s.arg.toNat ∧
        exec .mfAdvance s = .next { s with index := ix, cur := s.cur + s.arg, engine := .idle })

/-- R138, R127, R130: MF_SEARCH in IDLE or ENCODING records the match the search finds, and changes nothing else.
A match of 3 or more is at a position in the tree, 1..4095 before CUR, with its bytes equal to those at CUR, inside
the data; otherwise the record is (2, 0), as it is whenever 2 bytes or fewer are left or the tree is empty. -/
def Obligations.MfSearchResult : Prop :=
  ∀ s : State, s.err = .none → s.mode ≠ .decoding → s.inLen.toNat ≤ s.inCap.toNat → s.WindowOk →
    ∃ len pos : Nat, findLongestMatch s.window s.cur.toNat s.index = .ok (len, pos) ∧
      exec .mfSearch s = .next { s with
        matchLen := BitVec.ofNat 5 len, matchPos := BitVec.ofNat 32 pos, engine := .idle } ∧
      (len = 2 ∧ pos = 0 ∨
        3 ≤ len ∧ len ≤ 18 ∧ s.cur.toNat + len ≤ s.endPos ∧ s.cur.toNat ≤ pos + 4095 ∧
        pos < s.cur.toNat ∧ s.index.parent (slotOf pos) ≠ .nil ∧
        ∀ k, k < len → s.window.byte (s.cur.toNat + k) = s.window.byte (pos + k)) ∧
      (s.index.root = .nil ∨ s.endPos ≤ s.cur.toNat + 2 → len = 2)

/-- R132: on a tree that meets the order invariant MF_SEARCH finds the longest match: no position in the tree
shares a longer prefix with the bytes at CUR, of at most 18 and inside the data; and of the positions on the way to
the one it records, that one is the first with its length. -/
def Obligations.SearchFindsLongest : Prop :=
  ∀ s : State, s.err = .none → s.mode ≠ .decoding → s.inLen.toNat ≤ s.inCap.toNat → s.WindowOk → s.OrderOk →
    ∃ len pos : Nat, exec .mfSearch s = .next { s with
        matchLen := BitVec.ofNat 5 len, matchPos := BitVec.ofNat 32 pos, engine := .idle } ∧
      (∀ k : Slot, s.index.parent k ≠ .nil → ∀ n, n ≤ 18 → s.cur.toNat + n ≤ s.endPos →
        (∀ i, i < n → s.window.byte (s.cur.toNat + i) = s.window.byte (posOf s.cur.toNat k + i)) → n ≤ len) ∧
      (len = 2 ∧ pos = 0 ∨
        3 ≤ len ∧ ∃ d : Slot, pos = posOf s.cur.toNat d ∧ s.index.parent d ≠ .nil ∧
          (∀ i, i < len → s.window.byte (s.cur.toNat + i) = s.window.byte (pos + i)) ∧
          ∀ k, s.index.Under k d → k ≠ d → ∃ i, i < len ∧
            s.window.byte (s.cur.toNat + i) ≠ s.window.byte (posOf s.cur.toNat k + i))

/-- R139: MF_READ_NODE in IDLE or ENCODING copies the three links of arena entry ARG to the NODE registers, or
raises INDEX_ARGUMENT when ARG is above 4095. -/
def Obligations.MfReadNodeResult : Prop :=
  ∀ s : State, s.err = .none →
    (s.mode ≠ .decoding → 4096 ≤ s.arg.toNat →
      exec .mfReadNode s = .next (s.failed .indexArgument s.arg)) ∧
    (s.mode ≠ .decoding → ∀ k : Slot, k.val = s.arg.toNat →
      exec .mfReadNode s = .next { s with
        nodeParent := s.index.parent k, nodeLeft := s.index.left k, nodeRight := s.index.right k,
        engine := .idle }) ∧
    (s.mode = .decoding → exec .mfReadNode s = .next (s.failed .sequence 0x08))

/-! ## The encoder -/

/-- R163: ENC_START in any mode, its two checks passed: the seeded window, a zero header in OUT[0..7], OUT_LEN 8,
no group open, MODE = ENCODING, DONE = 0; every other byte of OUT is as it was. -/
def Obligations.EncStartResult : Prop :=
  ∀ s : State, s.err = .none → s.inLen.toNat ≤ s.inCap.toNat →
    8 + (s.inLen.toNat + 7) / 8 + s.inLen.toNat ≤ s.outCap.toNat →
    ∃ (ix : Index) (m : Memory), seedSpec s.window = .ok ix ∧
      (∀ a, m.read a = if a < 8 then 0 else s.outMem.read a) ∧
      exec .encStart s = .next { s with
        index := ix, cur := 4096, outMem := m, done := false, outLen := 8, encGptr := 0, encCnt := 8,
        encCtrl := 0, mode := .encoding, engine := .idle }

/-- R161, R162, R164: ENC_STEP when the search finds no match of 3 or more: a literal, the byte at CUR, after a
new group's control byte if no group is open; its control bit is set, CUR rises by 1 with the window, and a group
of 8 has its control byte backfilled. Every other byte of OUT is as it was. -/
def Obligations.EncStepLiteral : Prop :=
  ∀ s : State, s.Inv → s.err = .none → s.mode = .encoding → s.cur.toNat < s.endPos →
    findLongestMatch s.window s.cur.toNat s.index = .ok (2, 0) →
    ∃ (ix : Index) (m : Memory) (gptr : Word) (ctrl : Byte) (n : Fin 9),
      advanceSpec s.window s.cur.toNat 1 s.index = .ok ix ∧
      gptr = (if s.encCnt = 8 then s.outLen else s.encGptr) ∧ n.val = s.itemIndex + 1 ∧
      ctrl = ((if s.encCnt = 8 then 0 else s.encCtrl) ||| BitVec.twoPow 8 s.itemIndex) ∧
      (∀ a, m.read a =
        if n = 8 ∧ a = gptr.toNat then ctrl
        else if a = s.itemStart then s.window.byte s.cur.toNat
        else if s.encCnt = 8 ∧ a = s.outLen.toNat then 0
        else s.outMem.read a) ∧
      exec .encStep s = .next { s with
        index := ix, cur := s.cur + 1, outMem := m, outLen := BitVec.ofNat 32 (s.itemStart + 1),
        encGptr := gptr, encCnt := n, encCtrl := ctrl, matchLen := 2, matchPos := 0, engine := .idle }

/-- R161, R162, R164, R95: ENC_STEP when the search finds a match of length 3 or more: a reference, its two bytes
carrying `(pos - 18) mod 4096` and the length less 3, after a new group's control byte if no group is open; its
control bit is 0, CUR rises by the length with the window, and a group of 8 has its control byte backfilled. Every
other byte of OUT is as it was. -/
def Obligations.EncStepReference : Prop :=
  ∀ (s : State) (len pos : Nat), s.Inv → s.err = .none → s.mode = .encoding → s.cur.toNat < s.endPos →
    findLongestMatch s.window s.cur.toNat s.index = .ok (len, pos) → 3 ≤ len →
    ∃ (ix : Index) (m : Memory) (gptr : Word) (ctrl : Byte) (n : Fin 9) (off : BitVec 12),
      advanceSpec s.window s.cur.toNat len s.index = .ok ix ∧ s.cur.toNat + len ≤ s.endPos ∧
      (off.toNat : Int) = ((pos : Int) - 18) % 4096 ∧
      gptr = (if s.encCnt = 8 then s.outLen else s.encGptr) ∧ n.val = s.itemIndex + 1 ∧
      ctrl = (if s.encCnt = 8 then 0 else s.encCtrl) ∧
      (∀ a, m.read a =
        if n = 8 ∧ a = gptr.toNat then ctrl
        else if a = s.itemStart then BitVec.ofNat 8 (off.toNat % 256)
        else if a = s.itemStart + 1 then BitVec.ofNat 8 (off.toNat / 256 * 16 + (len - 3))
        else if s.encCnt = 8 ∧ a = s.outLen.toNat then 0
        else s.outMem.read a) ∧
      exec .encStep s = .next { s with
        index := ix, cur := BitVec.ofNat 32 (s.cur.toNat + len), outMem := m,
        outLen := BitVec.ofNat 32 (s.itemStart + 2), encGptr := gptr, encCnt := n, encCtrl := ctrl,
        matchLen := BitVec.ofNat 5 len, matchPos := BitVec.ofNat 32 pos, engine := .idle }

/-- R165: ENC_FINISH at CUR = END backfills a partial group's control byte and writes the header, OUT_LEN then
IN_LEN; MODE is IDLE and DONE is 1. Every other byte of OUT is as it was. -/
def Obligations.EncFinishResult : Prop :=
  ∀ s : State, s.Inv → s.err = .none → s.mode = .encoding → s.cur.toNat = s.endPos →
    ∃ m : Memory,
      (∀ a, m.read a =
        if a < 4 then BitVec.ofNat 8 (s.outLen.toNat / 256 ^ a)
        else if a < 8 then BitVec.ofNat 8 (s.inLen.toNat / 256 ^ (a - 4))
        else if s.encCnt ≠ 8 ∧ a = s.encGptr.toNat then s.encCtrl
        else s.outMem.read a) ∧
      exec .encFinish s = .next { s with outMem := m, mode := .idle, done := true, engine := .idle }

/-- R166, R168, R18: COMPRESS, its two checks passed, completes: DONE = 1, MODE = IDLE, no error, CUR = END; the
stream is no longer than `8 + ceil(N/8) + N`, its header holds its own length and the input's, and the bytes of OUT
from OUT_LEN on are as they were (R254). -/
def Obligations.CompressResult : Prop :=
  ∀ s : State, s.Inv → s.err = .none → s.inLen.toNat ≤ s.inCap.toNat →
    8 + (s.inLen.toNat + 7) / 8 + s.inLen.toNat ≤ s.outCap.toNat →
    ∃ t, exec .compress s = .next t ∧ t.done = true ∧ t.mode = .idle ∧ t.err = .none ∧
      t.cur.toNat = 4096 + s.inLen.toNat ∧
      8 ≤ t.outLen.toNat ∧ t.outLen.toNat ≤ 8 + (s.inLen.toNat + 7) / 8 + s.inLen.toNat ∧
      leWord (t.outMem.read 0) (t.outMem.read 1) (t.outMem.read 2) (t.outMem.read 3) = t.outLen ∧
      leWord (t.outMem.read 4) (t.outMem.read 5) (t.outMem.read 6) (t.outMem.read 7) = s.inLen ∧
      (∀ a, t.outLen.toNat ≤ a → t.outMem.read a = s.outMem.read a)

/-- R166: COMPRESS ends in the state that ENC_START, ENC_STEP until CUR = END, then ENC_FINISH end in. -/
def Obligations.CompressIsStepped : Prop :=
  ∀ s : State, s.Inv → s.err = .none → s.inLen.toNat ≤ s.inCap.toNat →
    8 + (s.inLen.toNat + 7) / 8 + s.inLen.toNat ≤ s.outCap.toNat →
    ∃ (t u : State) (n : Nat), exec .encStart s = .next t ∧ repeatExec .encStep n t = some u ∧
      u.mode = .encoding ∧ u.cur.toNat = u.endPos ∧
      exec .encFinish u = exec .compress s

/-- R167, R242, R254: the compressed stream is a function of IN[0..IN_LEN-1] alone: two blocks that agree on those
bytes and on IN_LEN, and on nothing else, give the same OUT_LEN and the same stream. -/
def Obligations.CompressDependsOnInput : Prop :=
  ∀ s r t u : State, s.Inv → r.Inv → s.err = .none → r.err = .none → s.inLen = r.inLen →
    (∀ a, a < s.inLen.toNat → s.inMem.read a = r.inMem.read a) →
    exec .compress s = .next t → exec .compress r = .next u → t.err = .none → u.err = .none →
    t.outLen = u.outLen ∧ ∀ a, a < t.outLen.toNat → t.outMem.read a = u.outMem.read a

/-! ## The decoder -/

/-- R183, R90: DEC_START in any mode, its checks passed: DEC_C and DEC_U are the header's two integers, DEC_IN_PTR
= 8, no control byte read, OUT_LEN = 0; with U = 0 the run is complete at once, else MODE = DECODING; OUT is as it
was. The header form gives the same for a header that holds csize and usize. The compressed size is recorded and
never checked. That the header form has this effect by itself, with the sizes it holds, is the model's choice (log
10). -/
def Obligations.DecStartResult : Prop :=
  ∀ s : State, s.err = .none → s.inLen.toNat ≤ s.inCap.toNat → 8 ≤ s.inLen.toNat →
    ((s.le32 4).toNat ≤ s.outCap.toNat →
      exec .decStart s = .next { s with
        done := decide (s.le32 4 = 0), decC := s.le32 0, decU := s.le32 4, decInPtr := 8, decBit := 8,
        decCtrl := 0, outLen := 0, mode := if s.le32 4 = 0 then .idle else .decoding, engine := .idle }) ∧
    (∀ csize usize : Word, usize.toNat ≤ s.outCap.toNat →
      exec (.streamHeader csize usize) s = .next { s with
        done := decide (usize = 0), decC := csize, decU := usize, decInPtr := 8, decBit := 8, decCtrl := 0,
        outLen := 0, mode := if usize = 0 then .idle else .decoding, engine := .idle })

/-- R93, R184: a literal item in an open group: its byte goes to OUT[OUT_LEN], OUT_LEN and DEC_IN_PTR rise by 1,
the next control bit is the next one, and a complete output ends the run; every other byte of OUT is as it was. LIT
does so with its byte, DEC_STEP with the byte at DEC_IN_PTR. That LIT has this effect by itself is the model's
choice (log 10). -/
def Obligations.LiteralResult : Prop :=
  ∀ (s : State) (i : Instr) (v : Byte), s.err = .none → s.mode = .decoding → s.DecodingOk → s.decBit ≠ 8 →
    s.decCtrl.getLsbD s.decBit.val = true →
    i = .lit v ∨
      i = .decStep ∧ s.decInPtr.toNat < s.inLen.toNat ∧ v = s.inMem.read s.decInPtr.toNat →
    ∃ (m : Memory) (bit : Fin 9), bit.val = s.decBit.val + 1 ∧
      (∀ a, m.read a = if a = s.outLen.toNat then v else s.outMem.read a) ∧
      exec i s = .next { s with
        outMem := m, outLen := s.outLen + 1, decInPtr := s.decInPtr + 1, decBit := bit,
        mode := if s.outLen + 1 = s.decU then .idle else .decoding,
        done := if s.outLen + 1 = s.decU then true else s.done, engine := .idle }

/-- R94, R182, R184: a reference item in an open group that is not malformed and does not overrun: len bytes go to
OUT from OUT_LEN on, each the byte backset before it in OUT as it then stands (so a copy may overlap itself), or 0
where that lies before the start of OUT; OUT_LEN rises by len, DEC_IN_PTR by 2. Every other byte of OUT is as it
was. That the REF form does this with its own fields is the model's choice (log 10); DecoderReadsForms ties it to
DEC_STEP. -/
def Obligations.RefResult : Prop :=
  ∀ (s : State) (off : BitVec 12) (lc : BitVec 4) (len back : Nat), s.err = .none → s.mode = .decoding →
    s.DecodingOk → s.decBit ≠ 8 → s.decCtrl.getLsbD s.decBit.val = false →
    len = lc.toNat + 3 → (back : Int) = ((s.outLen.toNat : Int) - 18 - off.toNat) % 4096 → back ≠ 0 →
    s.outLen.toNat + len ≤ s.decU.toNat →
    ∃ (m : Memory) (bit : Fin 9), bit.val = s.decBit.val + 1 ∧
      (∀ a, a < s.outLen.toNat ∨ s.outLen.toNat + len ≤ a → m.read a = s.outMem.read a) ∧
      (∀ a, s.outLen.toNat ≤ a → a < s.outLen.toNat + len →
        m.read a = if a < back then 0 else m.read (a - back)) ∧
      exec (.ref off lc) s = .next { s with
        outMem := m, outLen := BitVec.ofNat 32 (s.outLen.toNat + len), decInPtr := s.decInPtr + 2,
        decBit := bit, mode := if s.outLen.toNat + len = s.decU.toNat then .idle else .decoding,
        done := if s.outLen.toNat + len = s.decU.toNat then true else s.done, engine := .idle }

/-- R91, R184: a control byte when no group is open is consumed with the item its bit 0 describes: the result is
that of the item in a group opened with the byte, with DEC_IN_PTR after it; an error of the item undoes the control
byte too. That STREAM_CTRL takes its control byte from the form and the item after it from IN is the model's choice
(log 10). -/
def Obligations.StreamCtrlResult : Prop :=
  ∀ (s : State) (bits : Byte), s.err = .none → s.mode = .decoding → s.DecodingOk → s.decBit = 8 →
    (∀ v, bits.getLsbD 0 = true → s.decInPtr.toNat + 2 ≤ s.inLen.toNat →
      v = s.inMem.read (s.decInPtr.toNat + 1) →
      ∃ t, exec (.streamCtrl bits) s = .next t ∧ t.decBit = 1 ∧ t.decCtrl = bits ∧
        t.outLen = s.outLen + 1 ∧ t.outMem.read s.outLen.toNat = v ∧
        exec (.lit v) { s with decInPtr := s.decInPtr + 1, decBit := 0, decCtrl := bits } = .next t) ∧
    (∀ off lc, bits.getLsbD 0 = false → s.decInPtr.toNat + 3 ≤ s.inLen.toNat →
      decode .reference [s.inMem.read (s.decInPtr.toNat + 1), s.inMem.read (s.decInPtr.toNat + 2)] =
        some (.ref off lc, []) →
      ∀ t, exec (.ref off lc) { s with decInPtr := s.decInPtr + 1, decBit := 0, decCtrl := bits } = .next t →
        exec (.streamCtrl bits) s = .next (if t.err = .none then t else s.failed t.err t.errInfo))

/-- R185, R183, R184: DECOMPRESS completes on a stream of one group of n literals, 1 <= n <= 8: OUT holds the n
bytes, OUT_LEN = n, DONE = 1, MODE = IDLE, no error; bytes after the item that completes the output are not read
(DEC_IN_PTR), and every other byte of OUT is as it was. -/
def Obligations.DecompressLiterals : Prop :=
  ∀ (s : State) (n : Nat), s.Inv → s.err = .none → 1 ≤ n → n ≤ 8 → (s.le32 4).toNat = n →
    s.inMem.read 8 = 0xFF → 9 + n ≤ s.inLen.toNat → s.inLen.toNat ≤ s.inCap.toNat → n ≤ s.outCap.toNat →
    ∃ t, exec .decompress s = .next t ∧ t.outLen.toNat = n ∧ t.done = true ∧ t.mode = .idle ∧ t.err = .none ∧
      t.decInPtr.toNat = 9 + n ∧ t.decBit.val = n ∧ t.decCtrl = 0xFF ∧
      (∀ a, t.outMem.read a = if a < n then s.inMem.read (9 + a) else s.outMem.read a)

/-- R185: DECOMPRESS ends in the state that DEC_START, then DEC_STEP while MODE = DECODING, end in, an error of a
step included. -/
def Obligations.DecompressIsStepped : Prop :=
  ∀ s : State, s.Inv → s.err = .none →
    ∃ (t u : State) (n : Nat), exec .decStart s = .next t ∧ repeatExec .decStep n t = some u ∧
      (∀ k v, k < n → repeatExec .decStep k t = some v → v.mode = .decoding) ∧ u.mode ≠ .decoding ∧
      exec .decompress s = .next u

/-- R186, R18: the round trip. When COMPRESS over an input that fits has ended in t, DECOMPRESS in any block of
any capacities that fit, with the stream OUT[0..OUT_LEN-1] of t as its input, ends with no error and gives the
input back. -/
def Obligations.RoundTrip : Prop :=
  ∀ s t d : State, s.Inv → s.err = .none → s.inLen.toNat ≤ s.inCap.toNat →
    8 + (s.inLen.toNat + 7) / 8 + s.inLen.toNat ≤ s.outCap.toNat → exec .compress s = .next t →
    d.Inv → d.err = .none → d.inLen = t.outLen → d.inLen.toNat ≤ d.inCap.toNat →
    s.inLen.toNat ≤ d.outCap.toNat → (∀ a, a < t.outLen.toNat → d.inMem.read a = t.outMem.read a) →
    ∃ u, exec .decompress d = .next u ∧ u.outLen = s.inLen ∧ u.done = true ∧ u.err = .none ∧
      u.mode = .idle ∧ ∀ a, a < s.inLen.toNat → u.outMem.read a = s.inMem.read a

/-! ## Invariants -/

/-- The state after reset meets the invariant, for every legal capacity and all contents of IN and OUT, and so for
`State.reset`, whose capacities and zero memories are the model's choice (logs 1, 2). -/
def Obligations.ResetMeetsInvariant : Prop :=
  State.reset.Inv ∧
  ∀ (inCap outCap : Word) (inMem outMem : Memory), 8 ≤ inCap.toNat → inCap.toNat ≤ 2 ^ 31 →
    8 ≤ outCap.toNat → inMem.wf → (∀ c ∈ inMem, c.1 < inCap.toNat) → outMem.wf →
    (∀ c ∈ outMem, c.1 < outCap.toNat) → (State.afterReset inCap outCap inMem outMem).Inv

/-- R29, R31, R44, R47, R204: every step, a host access, a reset or a whole command, keeps the invariant: the links
form one tree with slot CUR mod 4096 empty, CUR is in 4096..4096+IN_CAP and at most END in an encode run, the runs
meet R47, a pending error leaves no run open, and the memories stay canonical and inside their spaces. -/
def Obligations.EveryStepKeepsInvariant : Prop :=
  ∀ s t : State, s.Inv → step s = .next t → t.Inv

/-- R45: the tree is a valid binary search tree by the 18-byte keys of its positions. This holds after reset; a
step that leaves IN_LEN and the bytes of IN below it as they were keeps it; and MF_CLEAR, MF_INIT, ENC_START and
COMPRESS, raising no error, establish it whatever the tree was. -/
def Obligations.OrderInvariant : Prop :=
  (∀ (inCap outCap : Word) (inMem outMem : Memory), (State.afterReset inCap outCap inMem outMem).OrderOk) ∧
  (∀ s t : State, s.Inv → s.OrderOk → step s = .next t → t.inLen = s.inLen →
    (∀ a, a < s.inLen.toNat → t.inMem.read a = s.inMem.read a) → t.OrderOk) ∧
  (∀ (s t : State) (i : Instr), s.Inv → s.err = .none → exec i s = .next t → t.err = .none →
    i = .mfClear ∨ i = .mfInit ∨ i = .encStart ∨ i = .compress → t.OrderOk)

/-- R46: after MF_INIT, ENC_START or COMPRESS, raising no error, the tree holds of the last 4095 positions exactly
those that are the most recent with their key; MF_ADVANCE, ENC_STEP, and every command that does not write the tree,
keep this. -/
def Obligations.ContentInvariant : Prop :=
  (∀ (s t : State) (i : Instr), s.Inv → s.err = .none → exec i s = .next t → t.err = .none →
    i = .mfInit ∨ i = .encStart ∨ i = .compress → t.ContentOk) ∧
  (∀ (s t : State) (w : Word), s.Inv → s.OrderOk → s.ContentOk → exec (decodeCommand w) s = .next t →
    w ≠ 0x02 → w ≠ 0x04 → w ≠ 0x05 → t.ContentOk)

/-- R63, R131: from a state of the invariant no step faults: the engine touches no address outside IN and OUT, and
every walk of the tree ends (log 11). -/
def Obligations.NoStepFaults : Prop :=
  ∀ s : State, s.Inv → Safe s

end
end

