-- ==== Sys2Proof/Laws/Cells.lean ====
section
/-! SUPPORT. Laws/Cells.lean: the laws of sparse storage: read after write, and the canonical form. -/

namespace Sys2Proof.Machine

variable {α : Type}

@[simp] theorem Cells.read_nil (d : α) (a : Nat) : Cells.read d [] a = d := rfl

theorem Cells.read_filter_ne (d : α) (m : List (Nat × α)) (a b : Nat) :
    Cells.read d (m.filter (fun c => c.1 != a)) b = if b = a then d else Cells.read d m b := by
  induction m with
  | nil => simp
  | cons c rest ih =>
    obtain ⟨k, x⟩ := c
    by_cases hk : k = a
    · subst hk; simp only [List.filter_cons, bne_self_eq_false, Bool.false_eq_true, if_false, ih]
      by_cases hb : b = k
      · simp [hb]
      · simp [Cells.read, hb, Ne.symm hb]
    · simp only [List.filter_cons, bne_iff_ne, ne_eq, hk, not_false_eq_true, if_true, Cells.read, ih]
      by_cases hb : b = a
      · subst hb; simp [hk]
      · simp [hb]

theorem Cells.read_insert (d : α) (m : List (Nat × α)) (a : Nat) (v : α) (b : Nat)
    (h : ∀ c ∈ m, c.1 ≠ a) :
    Cells.read d (Cells.insert a v m) b = if b = a then v else Cells.read d m b := by
  induction m with
  | nil => by_cases hb : b = a <;> simp [Cells.insert, Cells.read, hb, Ne.symm]
  | cons c rest ih =>
    obtain ⟨k, x⟩ := c
    have hk : k ≠ a := h (k, x) (by simp)
    have ih := ih (fun c hc => h c (by simp [hc]))
    unfold Cells.insert
    by_cases hb : b = a
    · subst hb; split <;> simp [Cells.read, hk, ih]
    · split <;> simp [Cells.read, hb, Ne.symm hb, ih]

/-- Reading after a write, for any list: the written key gives the value, every other key is as before. -/
@[simp] theorem Cells.read_write [DecidableEq α] (d : α) (m : List (Nat × α)) (a : Nat) (v : α)
    (b : Nat) : Cells.read d (Cells.write d m a v) b = if b = a then v else Cells.read d m b := by
  unfold Cells.write
  by_cases hv : v = d
  · simp [hv, Cells.read_filter_ne]
  · rw [if_neg hv, Cells.read_insert]
    · by_cases hb : b = a <;> simp [hb, Cells.read_filter_ne]
    · intro c hc; simp at hc; exact hc.2

theorem Cells.mem_insert (a : Nat) (v : α) (m : List (Nat × α)) (c : Nat × α) :
    c ∈ Cells.insert a v m ↔ c = (a, v) ∨ c ∈ m := by
  induction m with
  | nil => simp [Cells.insert]
  | cons k rest ih => unfold Cells.insert; split <;> simp [ih]; tauto

/-- The cells after a write are the written one and cells that were there. -/
theorem Cells.mem_write [DecidableEq α] (d : α) (m : List (Nat × α)) (a : Nat) (v : α)
    (c : Nat × α) (h : c ∈ Cells.write d m a v) : c = (a, v) ∨ c ∈ m := by
  unfold Cells.write at h
  split at h
  · exact .inr ((List.mem_filter.1 h).1)
  · rcases (Cells.mem_insert a v _ c).1 h with h | h
    · exact .inl h
    · exact .inr ((List.mem_filter.1 h).1)

theorem Cells.pairwise_insert (a : Nat) (v : α) (m : List (Nat × α))
    (h : m.Pairwise (fun x y => x.1 < y.1)) (ha : ∀ c ∈ m, c.1 ≠ a) :
    (Cells.insert a v m).Pairwise (fun x y => x.1 < y.1) := by
  induction m with
  | nil => simp [Cells.insert]
  | cons k rest ih =>
    obtain ⟨hk, hr⟩ := List.pairwise_cons.1 h
    have hka : k.1 ≠ a := ha k (by simp)
    unfold Cells.insert
    split
    · rename_i hlt
      refine List.pairwise_cons.2 ⟨fun y hy => ?_, h⟩
      rcases List.mem_cons.1 hy with rfl | hy
      · exact hlt
      · exact Nat.lt_trans hlt (hk y hy)
    · rename_i hlt
      refine List.pairwise_cons.2 ⟨fun y hy => ?_, ih hr (fun c hc => ha c (by simp [hc]))⟩
      rcases (Cells.mem_insert a v rest y).1 hy with rfl | hy
      · simp only at hlt ⊢; omega
      · exact hk y hy

/-- A write keeps the canonical form. -/
theorem Cells.wf_write [DecidableEq α] (d : α) (m : List (Nat × α)) (a : Nat) (v : α)
    (h : Cells.wf d m) : Cells.wf d (Cells.write d m a v) := by
  have hp := h.1.filter (fun c => c.1 != a)
  unfold Cells.write
  split
  · exact ⟨hp, fun c hc => h.2 c ((List.mem_filter.1 hc).1)⟩
  · rename_i hv
    refine ⟨Cells.pairwise_insert a v _ hp (fun c hc => by simp at hc; exact hc.2), fun c hc => ?_⟩
    rcases (Cells.mem_insert a v _ c).1 hc with rfl | hc
    · exact hv
    · exact h.2 c ((List.mem_filter.1 hc).1)

/-! ## Bytes -/

@[simp] theorem Memory.read_write (m : Memory) (a : Nat) (v : Byte) (b : Nat) :
    (m.write a v).read b = if b = a then v else m.read b := by
  simp [Memory.read, Memory.write]

theorem Memory.wf_write (m : Memory) (a : Nat) (v : Byte) (h : m.wf) : (m.write a v).wf :=
  Cells.wf_write _ _ _ _ h

/-- A write at an address below a bound keeps every listed address below it. -/
theorem Memory.bound_write (m : Memory) (a : Nat) (v : Byte) (cap : Nat) (ha : a < cap)
    (h : ∀ c ∈ m, c.1 < cap) : ∀ c ∈ m.write a v, c.1 < cap := by
  intro c hc
  rcases Cells.mem_write _ _ _ _ _ hc with rfl | hc
  · exact ha
  · exact h c hc

theorem Memory.ofCells_invariant (cap : Nat) (cells : List Host.Cell) (m : Memory) (hm : m.wf)
    (hb : ∀ c ∈ m, c.1 < cap) :
    let r := cells.foldl (fun m c => if c.1 < cap then Memory.write m c.1 c.2 else m) m
    Memory.wf r ∧ ∀ c ∈ r, c.1 < cap := by
  induction cells generalizing m with
  | nil => exact ⟨hm, hb⟩
  | cons c rest ih =>
    simp only [List.foldl_cons]
    split
    · rename_i h; exact ih _ (Memory.wf_write m _ _ hm) (Memory.bound_write m _ _ _ h hb)
    · exact ih _ hm hb

/-- The memory a list of cells describes is canonical, and lists no address outside its size. -/
theorem Memory.ofCells_wf (cap : Nat) (cells : List Host.Cell) :
    (Memory.ofCells cap cells).wf ∧ ∀ c ∈ Memory.ofCells cap cells, c.1 < cap :=
  Memory.ofCells_invariant cap cells [] ⟨List.Pairwise.nil, by simp⟩ (by simp)

end Sys2Proof.Machine
end

