-- ==== Sys2Proof/Laws/State.lean ====
section
/-! SUPPORT. Laws/State.lean: one lemma per field per named update of the state, each true by rfl. -/

namespace Sys2Proof.Machine

/-- What `emit` leaves when OUT has room (R160). -/
def State.emitted (s : State) (v : Byte) : State :=
  { s with outMem := s.outMem.write s.outLen.toNat v, outLen := s.outLen + 1 }

namespace State

variable (s : State)

@[simp] theorem raise_arg (c : ErrCode) (i : Word) : (s.raise c i).arg = s.arg := rfl
@[simp] theorem raise_engine (c : ErrCode) (i : Word) : (s.raise c i).engine = s.engine := rfl
@[simp] theorem raise_done (c : ErrCode) (i : Word) : (s.raise c i).done = false := rfl
@[simp] theorem raise_mode (c : ErrCode) (i : Word) : (s.raise c i).mode = .idle := rfl
@[simp] theorem raise_err (c : ErrCode) (i : Word) : (s.raise c i).err = c := rfl
@[simp] theorem raise_drop (c : ErrCode) (i : Word) : (s.raise c i).drop = s.drop := rfl
@[simp] theorem raise_errInfo (c : ErrCode) (i : Word) : (s.raise c i).errInfo = i := rfl
@[simp] theorem raise_inLen (c : ErrCode) (i : Word) : (s.raise c i).inLen = s.inLen := rfl
@[simp] theorem raise_outLen (c : ErrCode) (i : Word) : (s.raise c i).outLen = s.outLen := rfl
@[simp] theorem raise_cur (c : ErrCode) (i : Word) : (s.raise c i).cur = s.cur := rfl
@[simp] theorem raise_index (c : ErrCode) (i : Word) : (s.raise c i).index = s.index := rfl
@[simp] theorem raise_matchLen (c : ErrCode) (i : Word) : (s.raise c i).matchLen = s.matchLen := rfl
@[simp] theorem raise_matchPos (c : ErrCode) (i : Word) : (s.raise c i).matchPos = s.matchPos := rfl
@[simp] theorem raise_nodeParent (c : ErrCode) (i : Word) : (s.raise c i).nodeParent = s.nodeParent := rfl
@[simp] theorem raise_nodeLeft (c : ErrCode) (i : Word) : (s.raise c i).nodeLeft = s.nodeLeft := rfl
@[simp] theorem raise_nodeRight (c : ErrCode) (i : Word) : (s.raise c i).nodeRight = s.nodeRight := rfl
@[simp] theorem raise_encGptr (c : ErrCode) (i : Word) : (s.raise c i).encGptr = s.encGptr := rfl
@[simp] theorem raise_encCnt (c : ErrCode) (i : Word) : (s.raise c i).encCnt = s.encCnt := rfl
@[simp] theorem raise_encCtrl (c : ErrCode) (i : Word) : (s.raise c i).encCtrl = s.encCtrl := rfl
@[simp] theorem raise_decInPtr (c : ErrCode) (i : Word) : (s.raise c i).decInPtr = s.decInPtr := rfl
@[simp] theorem raise_decU (c : ErrCode) (i : Word) : (s.raise c i).decU = s.decU := rfl
@[simp] theorem raise_decC (c : ErrCode) (i : Word) : (s.raise c i).decC = s.decC := rfl
@[simp] theorem raise_decBit (c : ErrCode) (i : Word) : (s.raise c i).decBit = s.decBit := rfl
@[simp] theorem raise_decCtrl (c : ErrCode) (i : Word) : (s.raise c i).decCtrl = s.decCtrl := rfl
@[simp] theorem raise_inCap (c : ErrCode) (i : Word) : (s.raise c i).inCap = s.inCap := rfl
@[simp] theorem raise_outCap (c : ErrCode) (i : Word) : (s.raise c i).outCap = s.outCap := rfl
@[simp] theorem raise_inMem (c : ErrCode) (i : Word) : (s.raise c i).inMem = s.inMem := rfl
@[simp] theorem raise_outMem (c : ErrCode) (i : Word) : (s.raise c i).outMem = s.outMem := rfl
@[simp] theorem raise_host (c : ErrCode) (i : Word) : (s.raise c i).host = s.host := rfl
@[simp] theorem raise_readData (c : ErrCode) (i : Word) : (s.raise c i).readData = s.readData := rfl
@[simp] theorem raise_freeCount (c : ErrCode) (i : Word) : (s.raise c i).freeCount = s.freeCount := rfl

@[simp] theorem acknowledge_arg : (s.acknowledge).arg = s.arg := rfl
@[simp] theorem acknowledge_engine : (s.acknowledge).engine = s.engine := rfl
@[simp] theorem acknowledge_done : (s.acknowledge).done = s.done := rfl
@[simp] theorem acknowledge_mode : (s.acknowledge).mode = s.mode := rfl
@[simp] theorem acknowledge_err : (s.acknowledge).err = .none := rfl
@[simp] theorem acknowledge_drop : (s.acknowledge).drop = false := rfl
@[simp] theorem acknowledge_errInfo : (s.acknowledge).errInfo = 0 := rfl
@[simp] theorem acknowledge_inLen : (s.acknowledge).inLen = s.inLen := rfl
@[simp] theorem acknowledge_outLen : (s.acknowledge).outLen = s.outLen := rfl
@[simp] theorem acknowledge_cur : (s.acknowledge).cur = s.cur := rfl
@[simp] theorem acknowledge_index : (s.acknowledge).index = s.index := rfl
@[simp] theorem acknowledge_matchLen : (s.acknowledge).matchLen = s.matchLen := rfl
@[simp] theorem acknowledge_matchPos : (s.acknowledge).matchPos = s.matchPos := rfl
@[simp] theorem acknowledge_nodeParent : (s.acknowledge).nodeParent = s.nodeParent := rfl
@[simp] theorem acknowledge_nodeLeft : (s.acknowledge).nodeLeft = s.nodeLeft := rfl
@[simp] theorem acknowledge_nodeRight : (s.acknowledge).nodeRight = s.nodeRight := rfl
@[simp] theorem acknowledge_encGptr : (s.acknowledge).encGptr = s.encGptr := rfl
@[simp] theorem acknowledge_encCnt : (s.acknowledge).encCnt = s.encCnt := rfl
@[simp] theorem acknowledge_encCtrl : (s.acknowledge).encCtrl = s.encCtrl := rfl
@[simp] theorem acknowledge_decInPtr : (s.acknowledge).decInPtr = s.decInPtr := rfl
@[simp] theorem acknowledge_decU : (s.acknowledge).decU = s.decU := rfl
@[simp] theorem acknowledge_decC : (s.acknowledge).decC = s.decC := rfl
@[simp] theorem acknowledge_decBit : (s.acknowledge).decBit = s.decBit := rfl
@[simp] theorem acknowledge_decCtrl : (s.acknowledge).decCtrl = s.decCtrl := rfl
@[simp] theorem acknowledge_inCap : (s.acknowledge).inCap = s.inCap := rfl
@[simp] theorem acknowledge_outCap : (s.acknowledge).outCap = s.outCap := rfl
@[simp] theorem acknowledge_inMem : (s.acknowledge).inMem = s.inMem := rfl
@[simp] theorem acknowledge_outMem : (s.acknowledge).outMem = s.outMem := rfl
@[simp] theorem acknowledge_host : (s.acknowledge).host = s.host := rfl
@[simp] theorem acknowledge_readData : (s.acknowledge).readData = s.readData := rfl
@[simp] theorem acknowledge_freeCount : (s.acknowledge).freeCount = s.freeCount := rfl

@[simp] theorem dropped_arg : (s.dropped).arg = s.arg := rfl
@[simp] theorem dropped_engine : (s.dropped).engine = s.engine := rfl
@[simp] theorem dropped_done : (s.dropped).done = s.done := rfl
@[simp] theorem dropped_mode : (s.dropped).mode = s.mode := rfl
@[simp] theorem dropped_err : (s.dropped).err = s.err := rfl
@[simp] theorem dropped_drop : (s.dropped).drop = true := rfl
@[simp] theorem dropped_errInfo : (s.dropped).errInfo = s.errInfo := rfl
@[simp] theorem dropped_inLen : (s.dropped).inLen = s.inLen := rfl
@[simp] theorem dropped_outLen : (s.dropped).outLen = s.outLen := rfl
@[simp] theorem dropped_cur : (s.dropped).cur = s.cur := rfl
@[simp] theorem dropped_index : (s.dropped).index = s.index := rfl
@[simp] theorem dropped_matchLen : (s.dropped).matchLen = s.matchLen := rfl
@[simp] theorem dropped_matchPos : (s.dropped).matchPos = s.matchPos := rfl
@[simp] theorem dropped_nodeParent : (s.dropped).nodeParent = s.nodeParent := rfl
@[simp] theorem dropped_nodeLeft : (s.dropped).nodeLeft = s.nodeLeft := rfl
@[simp] theorem dropped_nodeRight : (s.dropped).nodeRight = s.nodeRight := rfl
@[simp] theorem dropped_encGptr : (s.dropped).encGptr = s.encGptr := rfl
@[simp] theorem dropped_encCnt : (s.dropped).encCnt = s.encCnt := rfl
@[simp] theorem dropped_encCtrl : (s.dropped).encCtrl = s.encCtrl := rfl
@[simp] theorem dropped_decInPtr : (s.dropped).decInPtr = s.decInPtr := rfl
@[simp] theorem dropped_decU : (s.dropped).decU = s.decU := rfl
@[simp] theorem dropped_decC : (s.dropped).decC = s.decC := rfl
@[simp] theorem dropped_decBit : (s.dropped).decBit = s.decBit := rfl
@[simp] theorem dropped_decCtrl : (s.dropped).decCtrl = s.decCtrl := rfl
@[simp] theorem dropped_inCap : (s.dropped).inCap = s.inCap := rfl
@[simp] theorem dropped_outCap : (s.dropped).outCap = s.outCap := rfl
@[simp] theorem dropped_inMem : (s.dropped).inMem = s.inMem := rfl
@[simp] theorem dropped_outMem : (s.dropped).outMem = s.outMem := rfl
@[simp] theorem dropped_host : (s.dropped).host = s.host := rfl
@[simp] theorem dropped_readData : (s.dropped).readData = s.readData := rfl
@[simp] theorem dropped_freeCount : (s.dropped).freeCount = s.freeCount := rfl

@[simp] theorem endActivity_arg : (s.endActivity).arg = s.arg := rfl
@[simp] theorem endActivity_engine : (s.endActivity).engine = .idle := rfl
@[simp] theorem endActivity_done : (s.endActivity).done = s.done := rfl
@[simp] theorem endActivity_mode : (s.endActivity).mode = s.mode := rfl
@[simp] theorem endActivity_err : (s.endActivity).err = s.err := rfl
@[simp] theorem endActivity_drop : (s.endActivity).drop = s.drop := rfl
@[simp] theorem endActivity_errInfo : (s.endActivity).errInfo = s.errInfo := rfl
@[simp] theorem endActivity_inLen : (s.endActivity).inLen = s.inLen := rfl
@[simp] theorem endActivity_outLen : (s.endActivity).outLen = s.outLen := rfl
@[simp] theorem endActivity_cur : (s.endActivity).cur = s.cur := rfl
@[simp] theorem endActivity_index : (s.endActivity).index = s.index := rfl
@[simp] theorem endActivity_matchLen : (s.endActivity).matchLen = s.matchLen := rfl
@[simp] theorem endActivity_matchPos : (s.endActivity).matchPos = s.matchPos := rfl
@[simp] theorem endActivity_nodeParent : (s.endActivity).nodeParent = s.nodeParent := rfl
@[simp] theorem endActivity_nodeLeft : (s.endActivity).nodeLeft = s.nodeLeft := rfl
@[simp] theorem endActivity_nodeRight : (s.endActivity).nodeRight = s.nodeRight := rfl
@[simp] theorem endActivity_encGptr : (s.endActivity).encGptr = s.encGptr := rfl
@[simp] theorem endActivity_encCnt : (s.endActivity).encCnt = s.encCnt := rfl
@[simp] theorem endActivity_encCtrl : (s.endActivity).encCtrl = s.encCtrl := rfl
@[simp] theorem endActivity_decInPtr : (s.endActivity).decInPtr = s.decInPtr := rfl
@[simp] theorem endActivity_decU : (s.endActivity).decU = s.decU := rfl
@[simp] theorem endActivity_decC : (s.endActivity).decC = s.decC := rfl
@[simp] theorem endActivity_decBit : (s.endActivity).decBit = s.decBit := rfl
@[simp] theorem endActivity_decCtrl : (s.endActivity).decCtrl = s.decCtrl := rfl
@[simp] theorem endActivity_inCap : (s.endActivity).inCap = s.inCap := rfl
@[simp] theorem endActivity_outCap : (s.endActivity).outCap = s.outCap := rfl
@[simp] theorem endActivity_inMem : (s.endActivity).inMem = s.inMem := rfl
@[simp] theorem endActivity_outMem : (s.endActivity).outMem = s.outMem := rfl
@[simp] theorem endActivity_host : (s.endActivity).host = s.host := rfl
@[simp] theorem endActivity_readData : (s.endActivity).readData = s.readData := rfl
@[simp] theorem endActivity_freeCount : (s.endActivity).freeCount = s.freeCount := rfl

@[simp] theorem recordMatch_arg (m : Nat × Nat) : (s.recordMatch m).arg = s.arg := rfl
@[simp] theorem recordMatch_engine (m : Nat × Nat) : (s.recordMatch m).engine = s.engine := rfl
@[simp] theorem recordMatch_done (m : Nat × Nat) : (s.recordMatch m).done = s.done := rfl
@[simp] theorem recordMatch_mode (m : Nat × Nat) : (s.recordMatch m).mode = s.mode := rfl
@[simp] theorem recordMatch_err (m : Nat × Nat) : (s.recordMatch m).err = s.err := rfl
@[simp] theorem recordMatch_drop (m : Nat × Nat) : (s.recordMatch m).drop = s.drop := rfl
@[simp] theorem recordMatch_errInfo (m : Nat × Nat) : (s.recordMatch m).errInfo = s.errInfo := rfl
@[simp] theorem recordMatch_inLen (m : Nat × Nat) : (s.recordMatch m).inLen = s.inLen := rfl
@[simp] theorem recordMatch_outLen (m : Nat × Nat) : (s.recordMatch m).outLen = s.outLen := rfl
@[simp] theorem recordMatch_cur (m : Nat × Nat) : (s.recordMatch m).cur = s.cur := rfl
@[simp] theorem recordMatch_index (m : Nat × Nat) : (s.recordMatch m).index = s.index := rfl
@[simp] theorem recordMatch_matchLen (m : Nat × Nat) : (s.recordMatch m).matchLen = BitVec.ofNat 5 m.1 := rfl
@[simp] theorem recordMatch_matchPos (m : Nat × Nat) : (s.recordMatch m).matchPos = BitVec.ofNat 32 m.2 := rfl
@[simp] theorem recordMatch_nodeParent (m : Nat × Nat) : (s.recordMatch m).nodeParent = s.nodeParent := rfl
@[simp] theorem recordMatch_nodeLeft (m : Nat × Nat) : (s.recordMatch m).nodeLeft = s.nodeLeft := rfl
@[simp] theorem recordMatch_nodeRight (m : Nat × Nat) : (s.recordMatch m).nodeRight = s.nodeRight := rfl
@[simp] theorem recordMatch_encGptr (m : Nat × Nat) : (s.recordMatch m).encGptr = s.encGptr := rfl
@[simp] theorem recordMatch_encCnt (m : Nat × Nat) : (s.recordMatch m).encCnt = s.encCnt := rfl
@[simp] theorem recordMatch_encCtrl (m : Nat × Nat) : (s.recordMatch m).encCtrl = s.encCtrl := rfl
@[simp] theorem recordMatch_decInPtr (m : Nat × Nat) : (s.recordMatch m).decInPtr = s.decInPtr := rfl
@[simp] theorem recordMatch_decU (m : Nat × Nat) : (s.recordMatch m).decU = s.decU := rfl
@[simp] theorem recordMatch_decC (m : Nat × Nat) : (s.recordMatch m).decC = s.decC := rfl
@[simp] theorem recordMatch_decBit (m : Nat × Nat) : (s.recordMatch m).decBit = s.decBit := rfl
@[simp] theorem recordMatch_decCtrl (m : Nat × Nat) : (s.recordMatch m).decCtrl = s.decCtrl := rfl
@[simp] theorem recordMatch_inCap (m : Nat × Nat) : (s.recordMatch m).inCap = s.inCap := rfl
@[simp] theorem recordMatch_outCap (m : Nat × Nat) : (s.recordMatch m).outCap = s.outCap := rfl
@[simp] theorem recordMatch_inMem (m : Nat × Nat) : (s.recordMatch m).inMem = s.inMem := rfl
@[simp] theorem recordMatch_outMem (m : Nat × Nat) : (s.recordMatch m).outMem = s.outMem := rfl
@[simp] theorem recordMatch_host (m : Nat × Nat) : (s.recordMatch m).host = s.host := rfl
@[simp] theorem recordMatch_readData (m : Nat × Nat) : (s.recordMatch m).readData = s.readData := rfl
@[simp] theorem recordMatch_freeCount (m : Nat × Nat) : (s.recordMatch m).freeCount = s.freeCount := rfl

@[simp] theorem emitted_arg (v : Byte) : (s.emitted v).arg = s.arg := rfl
@[simp] theorem emitted_engine (v : Byte) : (s.emitted v).engine = s.engine := rfl
@[simp] theorem emitted_done (v : Byte) : (s.emitted v).done = s.done := rfl
@[simp] theorem emitted_mode (v : Byte) : (s.emitted v).mode = s.mode := rfl
@[simp] theorem emitted_err (v : Byte) : (s.emitted v).err = s.err := rfl
@[simp] theorem emitted_drop (v : Byte) : (s.emitted v).drop = s.drop := rfl
@[simp] theorem emitted_errInfo (v : Byte) : (s.emitted v).errInfo = s.errInfo := rfl
@[simp] theorem emitted_inLen (v : Byte) : (s.emitted v).inLen = s.inLen := rfl
@[simp] theorem emitted_outLen (v : Byte) : (s.emitted v).outLen = s.outLen + 1 := rfl
@[simp] theorem emitted_cur (v : Byte) : (s.emitted v).cur = s.cur := rfl
@[simp] theorem emitted_index (v : Byte) : (s.emitted v).index = s.index := rfl
@[simp] theorem emitted_matchLen (v : Byte) : (s.emitted v).matchLen = s.matchLen := rfl
@[simp] theorem emitted_matchPos (v : Byte) : (s.emitted v).matchPos = s.matchPos := rfl
@[simp] theorem emitted_nodeParent (v : Byte) : (s.emitted v).nodeParent = s.nodeParent := rfl
@[simp] theorem emitted_nodeLeft (v : Byte) : (s.emitted v).nodeLeft = s.nodeLeft := rfl
@[simp] theorem emitted_nodeRight (v : Byte) : (s.emitted v).nodeRight = s.nodeRight := rfl
@[simp] theorem emitted_encGptr (v : Byte) : (s.emitted v).encGptr = s.encGptr := rfl
@[simp] theorem emitted_encCnt (v : Byte) : (s.emitted v).encCnt = s.encCnt := rfl
@[simp] theorem emitted_encCtrl (v : Byte) : (s.emitted v).encCtrl = s.encCtrl := rfl
@[simp] theorem emitted_decInPtr (v : Byte) : (s.emitted v).decInPtr = s.decInPtr := rfl
@[simp] theorem emitted_decU (v : Byte) : (s.emitted v).decU = s.decU := rfl
@[simp] theorem emitted_decC (v : Byte) : (s.emitted v).decC = s.decC := rfl
@[simp] theorem emitted_decBit (v : Byte) : (s.emitted v).decBit = s.decBit := rfl
@[simp] theorem emitted_decCtrl (v : Byte) : (s.emitted v).decCtrl = s.decCtrl := rfl
@[simp] theorem emitted_inCap (v : Byte) : (s.emitted v).inCap = s.inCap := rfl
@[simp] theorem emitted_outCap (v : Byte) : (s.emitted v).outCap = s.outCap := rfl
@[simp] theorem emitted_inMem (v : Byte) : (s.emitted v).inMem = s.inMem := rfl
@[simp] theorem emitted_outMem (v : Byte) : (s.emitted v).outMem = s.outMem.write s.outLen.toNat v := rfl
@[simp] theorem emitted_host (v : Byte) : (s.emitted v).host = s.host := rfl
@[simp] theorem emitted_readData (v : Byte) : (s.emitted v).readData = s.readData := rfl
@[simp] theorem emitted_freeCount (v : Byte) : (s.emitted v).freeCount = s.freeCount := rfl

end State

end Sys2Proof.Machine
end

