-- ==== Sys2Proof/Laws/Index.lean ====
section
/-! SUPPORT. Laws/Index.lean: reading the arena after each link write. -/

namespace Sys2Proof.Machine.Index

variable (ix : Index) (s t : Slot) (l : Link) (n : Node)

@[simp] theorem node_setNode : (ix.setNode s n).node t = if t = s then n else ix.node t := by
  simp [node, setNode, Fin.ext_iff]

@[simp] theorem root_setNode : (ix.setNode s n).root = ix.root := rfl
@[simp] theorem root_setParent : (ix.setParent s l).root = ix.root := rfl
@[simp] theorem root_setLeft : (ix.setLeft s l).root = ix.root := rfl
@[simp] theorem root_setRight : (ix.setRight s l).root = ix.root := rfl
@[simp] theorem root_clear : (ix.clear s).root = ix.root := rfl
@[simp] theorem root_setRoot : (ix.setRoot l).root = l := rfl

@[simp] theorem node_setRoot : (ix.setRoot l).node t = ix.node t := rfl
@[simp] theorem parent_setRoot : (ix.setRoot l).parent t = ix.parent t := rfl
@[simp] theorem left_setRoot : (ix.setRoot l).left t = ix.left t := rfl
@[simp] theorem right_setRoot : (ix.setRoot l).right t = ix.right t := rfl

@[simp] theorem parent_setNode :
    (ix.setNode s n).parent t = if t = s then n.parent else ix.parent t := by
  simp only [parent, node_setNode]; split <;> rfl

@[simp] theorem left_setNode :
    (ix.setNode s n).left t = if t = s then n.left else ix.left t := by
  simp only [left, node_setNode]; split <;> rfl

@[simp] theorem right_setNode :
    (ix.setNode s n).right t = if t = s then n.right else ix.right t := by
  simp only [right, node_setNode]; split <;> rfl

@[simp] theorem parent_setParent :
    (ix.setParent s l).parent t = if t = s then l else ix.parent t := by
  simp [setParent]

@[simp] theorem left_setParent : (ix.setParent s l).left t = ix.left t := by
  simp only [setParent, left_setNode]; split <;> simp_all [left]

@[simp] theorem right_setParent : (ix.setParent s l).right t = ix.right t := by
  simp only [setParent, right_setNode]; split <;> simp_all [right]

@[simp] theorem parent_setLeft : (ix.setLeft s l).parent t = ix.parent t := by
  simp only [setLeft, parent_setNode]; split <;> simp_all [parent]

@[simp] theorem left_setLeft : (ix.setLeft s l).left t = if t = s then l else ix.left t := by
  simp [setLeft]

@[simp] theorem right_setLeft : (ix.setLeft s l).right t = ix.right t := by
  simp only [setLeft, right_setNode]; split <;> simp_all [right]

@[simp] theorem parent_setRight : (ix.setRight s l).parent t = ix.parent t := by
  simp only [setRight, parent_setNode]; split <;> simp_all [parent]

@[simp] theorem left_setRight : (ix.setRight s l).left t = ix.left t := by
  simp only [setRight, left_setNode]; split <;> simp_all [left]

@[simp] theorem right_setRight : (ix.setRight s l).right t = if t = s then l else ix.right t := by
  simp [setRight]

@[simp] theorem parent_clear : (ix.clear s).parent t = if t = s then .nil else ix.parent t := by
  simp [clear, Node.empty]

@[simp] theorem left_clear : (ix.clear s).left t = if t = s then .nil else ix.left t := by
  simp [clear, Node.empty]

@[simp] theorem right_clear : (ix.clear s).right t = if t = s then .nil else ix.right t := by
  simp [clear, Node.empty]

@[simp] theorem parent_of_node : (ix.node s).parent = ix.parent s := rfl
@[simp] theorem left_of_node : (ix.node s).left = ix.left s := rfl
@[simp] theorem right_of_node : (ix.node s).right = ix.right s := rfl

@[simp] theorem parent_cleared : Index.cleared.parent s = .nil := rfl
@[simp] theorem left_cleared : Index.cleared.left s = .nil := rfl
@[simp] theorem right_cleared : Index.cleared.right s = .nil := rfl
@[simp] theorem root_cleared : Index.cleared.root = .nil := rfl

end Sys2Proof.Machine.Index
end

