-- ==== Sys2Proof/Laws/Tree.lean ====
section
/-! SUPPORT. Laws/Tree.lean: the link updates of the match index end in no fault on a tree, and keep the
tree shape of R44. -/

namespace Sys2Proof.Machine.Index

variable {ix : Index} {rank : Slot → Nat}

/-! ## The shared link writes -/

/-- What `reparent` leaves when the link is no ROOTMARK. -/
def adopt (ix : Index) (l p : Link) : Index :=
  match l with
  | .slot c => ix.setParent c p
  | _ => ix

@[simp] theorem root_adopt (l p : Link) : (ix.adopt l p).root = ix.root := by
  cases l <;> rfl

@[simp] theorem left_adopt (l p : Link) (t : Slot) : (ix.adopt l p).left t = ix.left t := by
  cases l <;> simp [adopt]

@[simp] theorem right_adopt (l p : Link) (t : Slot) : (ix.adopt l p).right t = ix.right t := by
  cases l <;> simp [adopt]

@[simp] theorem parent_adopt (l p : Link) (t : Slot) :
    (ix.adopt l p).parent t = if l = .slot t then p else ix.parent t := by
  cases l <;> simp [adopt, eq_comm]

theorem reparent_ok (l p : Link) (h : l ≠ .rootMark) : reparent l p ix = .ok (ix.adopt l p) := by
  cases l <;> simp_all [reparent, adopt]

/-- What `replaceChild` leaves at an occupied slot x. -/
def relink (ix : Index) (x : Slot) (y : Link) : Index :=
  match ix.parent x with
  | .nil => ix
  | .rootMark => (ix.setRoot y).adopt y .rootMark
  | .slot pp =>
    if ix.left pp = .slot x then (ix.setLeft pp y).adopt y (.slot pp)
    else (ix.setRight pp y).adopt y (.slot pp)

theorem replaceChild_ok (x : Slot) (y : Link) (hx : ix.parent x ≠ .nil) (hy : y ≠ .rootMark) :
    replaceChild x y ix = .ok (ix.relink x y) := by
  unfold replaceChild relink
  split <;> simp_all [reparent_ok]
  split <;> simp

theorem root_relink (x : Slot) (y : Link) :
    (ix.relink x y).root = if ix.parent x = .rootMark then y else ix.root := by
  unfold relink; split <;> simp_all; split <;> simp

theorem parent_relink (x : Slot) (y : Link) (t : Slot) (hx : ix.parent x ≠ .nil) :
    (ix.relink x y).parent t = if y = .slot t then ix.parent x else ix.parent t := by
  unfold relink; split <;> simp_all; split <;> simp

theorem left_relink (x : Slot) (y : Link) (t : Slot) :
    (ix.relink x y).left t =
      if ix.parent x = .slot t ∧ ix.left t = .slot x then y else ix.left t := by
  unfold relink; split <;> simp_all; split <;> grind [left_adopt, left_setLeft, left_setRight]

theorem right_relink (x : Slot) (y : Link) (t : Slot) :
    (ix.relink x y).right t =
      if ix.parent x = .slot t ∧ ix.left t ≠ .slot x then y else ix.right t := by
  unfold relink; split <;> simp_all; split <;> grind [right_adopt, right_setLeft, right_setRight]

/-- A link is NIL or leads to a slot with a property, told by what it is not. -/
theorem link_cases {a : Link} {P : Slot → Prop} (h : a ≠ .rootMark) (hc : ∀ c, a = .slot c → P c) :
    a = .nil ∨ ∃ c, a = .slot c ∧ P c := by
  cases a with
  | nil => exact .inl rfl
  | rootMark => exact absurd rfl h
  | slot c => exact .inr ⟨c, rfl, hc c rfl⟩

/-! ## Insert -/

theorem IsTree.clearChildren (h : ix.IsTree rank) {s : Slot} (hs : ix.parent s = .nil) :
    ((ix.setLeft s .nil).setRight s .nil).IsTree rank := by
  obtain ⟨h1, h2, h3, h4, h5, h6, h7, h8, h9⟩ := h
  constructor <;> grind [root_setRight, root_setLeft, parent_setRight, parent_setLeft, left_setLeft,
    left_setRight, right_setLeft, right_setRight]

theorem IsTree.attachLeft (h : ix.IsTree rank) {q s : Slot} (hq : ix.parent q ≠ .nil)
    (hl : ix.left q = .nil) (hs : ix.parent s = .nil) :
    ((ix.setLeft q (.slot s)).setParent s (.slot q)).IsTree
      (fun t => if t = s then rank q + 1 else rank t) := by
  obtain ⟨h1, h2, h3, h4, h5, h6, h7, h8, h9⟩ := h
  constructor <;> grind [root_setParent, root_setLeft, left_setParent, right_setParent,
    parent_setParent, parent_setLeft, left_setLeft, right_setLeft]

theorem IsTree.attachRight (h : ix.IsTree rank) {q s : Slot} (hq : ix.parent q ≠ .nil)
    (hl : ix.right q = .nil) (hs : ix.parent s = .nil) :
    ((ix.setRight q (.slot s)).setParent s (.slot q)).IsTree
      (fun t => if t = s then rank q + 1 else rank t) := by
  obtain ⟨h1, h2, h3, h4, h5, h6, h7, h8, h9⟩ := h
  constructor <;> grind [root_setParent, root_setRight, left_setParent, right_setParent,
    parent_setParent, parent_setRight, left_setRight, right_setRight]

theorem IsTree.plantRoot (h : ix.IsTree rank) {s : Slot} (hr : ix.root = .nil)
    (hs : ix.parent s = .nil) : ((ix.setRoot (.slot s)).setParent s .rootMark).IsTree rank := by
  obtain ⟨h1, h2, h3, h4, h5, h6, h7, h8, h9⟩ := h
  constructor <;> grind [root_setParent, root_setRoot, left_setParent, right_setParent,
    parent_setParent, parent_setRoot, left_setRoot, right_setRoot]

/-- What the EQUAL branch of insert leaves. -/
def substituted (ix : Index) (q s : Slot) : Index :=
  ((((ix.setNode s (ix.node q)).adopt (ix.left q) (.slot s)).adopt (ix.right q) (.slot s)).relink q
    (.slot s)).clear q

theorem IsTree.leftLink_ne (h : ix.IsTree rank) (s : Slot) : ix.left s ≠ .rootMark := by
  rcases h.leftLink s with e | ⟨c, e, _⟩ <;> simp [e]

theorem IsTree.rightLink_ne (h : ix.IsTree rank) (s : Slot) : ix.right s ≠ .rootMark := by
  rcases h.rightLink s with e | ⟨c, e, _⟩ <;> simp [e]

theorem IsTree.replaceNode_ok (h : ix.IsTree rank) {q s : Slot} (hq : ix.parent q ≠ .nil)
    (hs : ix.parent s = .nil) : replaceNode q s ix = .ok (ix.substituted q s) := by
  have hqs : q ≠ s := by rintro rfl; exact hq hs
  have hl := h.leftLink_ne q
  have hr := h.rightLink_ne q
  have hlq : ix.left q ≠ .slot q := by
    intro e; rcases h.leftLink q with e' | ⟨c, e', hc⟩
    · simp [e] at e'
    · have : c = q := by simpa [e] using e'.symm
      subst this; exact absurd (h.ranked _ _ hc) (by omega)
  have hrq : ix.right q ≠ .slot q := by
    intro e; rcases h.rightLink q with e' | ⟨c, e', hc⟩
    · simp [e] at e'
    · have : c = q := by simpa [e] using e'.symm
      subst this; exact absurd (h.ranked _ _ hc) (by omega)
  simp only [replaceNode, bind, Except.bind, pure, Except.pure]
  simp only [left_setNode, hqs, if_false]
  rw [reparent_ok _ _ hl]
  simp only [right_adopt, right_setNode, hqs, if_false]
  rw [reparent_ok _ _ hr]
  simp only
  rw [replaceChild_ok _ _ (by simp [hqs, hlq, hrq, hq]) (by simp)]
  rfl

theorem IsTree.parent_substituted (h : ix.IsTree rank) {q s : Slot} (hq : ix.parent q ≠ .nil)
    (hs : ix.parent s = .nil) (t : Slot) : (ix.substituted q s).parent t =
      if t = q then .nil else if t = s then ix.parent q
      else if ix.left q = .slot t ∨ ix.right q = .slot t then .slot s else ix.parent t := by
  obtain ⟨h1, h2, h3, h4, h5, h6, h7, h8, h9⟩ := h
  have hqs : q ≠ s := by rintro rfl; exact hq hs
  unfold Index.substituted
  grind [parent_clear, parent_relink, parent_adopt, parent_setNode, parent_of_node]

theorem IsTree.left_substituted (h : ix.IsTree rank) {q s : Slot} (hq : ix.parent q ≠ .nil)
    (hs : ix.parent s = .nil) (t : Slot) : (ix.substituted q s).left t =
      if t = q then .nil else if t = s then ix.left q
      else if ix.left t = .slot q then .slot s else ix.left t := by
  obtain ⟨h1, h2, h3, h4, h5, h6, h7, h8, h9⟩ := h
  have hqs : q ≠ s := by rintro rfl; exact hq hs
  unfold Index.substituted
  grind [left_clear, left_relink, left_adopt, left_setNode, left_of_node, parent_adopt, parent_setNode]

theorem IsTree.right_substituted (h : ix.IsTree rank) {q s : Slot} (hq : ix.parent q ≠ .nil)
    (hs : ix.parent s = .nil) (t : Slot) : (ix.substituted q s).right t =
      if t = q then .nil else if t = s then ix.right q
      else if ix.right t = .slot q then .slot s else ix.right t := by
  obtain ⟨h1, h2, h3, h4, h5, h6, h7, h8, h9⟩ := h
  have hqs : q ≠ s := by rintro rfl; exact hq hs
  unfold Index.substituted
  grind [right_clear, right_relink, right_adopt, right_setNode, right_of_node, parent_adopt,
    parent_setNode, left_adopt, left_setNode]

theorem IsTree.substituted (h : ix.IsTree rank) {q s : Slot} (hq : ix.parent q ≠ .nil)
    (hs : ix.parent s = .nil) :
    (ix.substituted q s).IsTree (fun t => if t = s then rank q else rank t) := by
  have hp := fun t => h.parent_substituted hq hs t
  have hl := fun t => h.left_substituted hq hs t
  have hr := fun t => h.right_substituted hq hs t
  obtain ⟨h1, h2, h3, h4, h5, h6, h7, h8, h9⟩ := h
  have hqs : q ≠ s := by rintro rfl; exact hq hs
  have hroot : (ix.substituted q s).root = if ix.root = .slot q then .slot s else ix.root := by
    unfold Index.substituted
    grind [root_clear, root_relink, root_adopt, root_setNode, parent_adopt, parent_setNode]
  constructor
  all_goals simp only [hp, hl, hr, hroot]
  · grind
  · grind
  · grind
  · grind
  · intro t
    rcases h5 t with e | ⟨c, e, hc⟩
    · rcases h5 q with e' | ⟨c, e', hc⟩ <;> [skip; have : c ≠ q ∧ c ≠ s := by grind] <;> grind
    · by_cases hcq : c = q
      · refine .inr ⟨s, ?_⟩; grind
      · by_cases htq : t = q
        · exact .inl (by simp [htq])
        · refine .inr ⟨c, ?_⟩; grind
  · intro t
    rcases h6 t with e | ⟨c, e, hc⟩
    · rcases h6 q with e' | ⟨c, e', hc⟩ <;> [skip; have : c ≠ q ∧ c ≠ s := by grind] <;> grind
    · by_cases hcq : c = q
      · refine .inr ⟨s, ?_⟩; grind
      · by_cases htq : t = q
        · exact .inl (by simp [htq])
        · refine .inr ⟨c, ?_⟩; grind
  · grind
  · grind
  · grind

/-! ## Remove -/

theorem IsTree.left_splice (h : ix.IsTree rank) {s : Slot} (y : Link) (t : Slot) :
    ((ix.relink s y).clear s).left t =
      if t = s then .nil else if ix.left t = .slot s then y else ix.left t := by
  obtain ⟨h1, h2, h3, h4, h5, h6, h7, h8, h9⟩ := h
  grind [left_clear, left_relink]

theorem IsTree.right_splice (h : ix.IsTree rank) {s : Slot} (y : Link) (t : Slot) :
    ((ix.relink s y).clear s).right t =
      if t = s then .nil else if ix.right t = .slot s then y else ix.right t := by
  obtain ⟨h1, h2, h3, h4, h5, h6, h7, h8, h9⟩ := h
  grind [right_clear, right_relink]

theorem IsTree.splice (h : ix.IsTree rank) {s : Slot} {y : Link} (hs : ix.parent s ≠ .nil)
    (hy : ix.left s = .nil ∧ y = ix.right s ∨ ix.right s = .nil ∧ y = ix.left s) :
    ((ix.relink s y).clear s).IsTree rank := by
  have hl := fun t => h.left_splice (s := s) y t
  have hr := fun t => h.right_splice (s := s) y t
  obtain ⟨h1, h2, h3, h4, h5, h6, h7, h8, h9⟩ := h
  have hp : ∀ t, ((ix.relink s y).clear s).parent t =
      if t = s then .nil else if y = .slot t then ix.parent s else ix.parent t := by
    intro t; grind [parent_clear, parent_relink]
  have hroot : ((ix.relink s y).clear s).root = if ix.root = .slot s then y else ix.root := by
    grind [root_clear, root_relink]
  constructor
  all_goals simp only [hp, hl, hr, hroot]
  · grind
  · grind
  · grind
  · grind
  · grind
  · grind
  · grind
  · grind
  · grind

/-- What `removeTwo` leaves, once s is cleared, when the successor y is right[s] itself. -/
def promotedChild (ix : Index) (s y : Slot) : Index :=
  (((ix.setLeft y (ix.left s)).adopt (ix.left s) (.slot y)).relink s (.slot y)).clear s

/-- What `removeTwo` leaves, once s is cleared, when the successor y lies deeper. -/
def promotedDeep (ix : Index) (s y : Slot) : Index :=
  (((((ix.relink y (ix.right y)).setRight y (ix.right s)).adopt (ix.right s) (.slot y)).setLeft y
    (ix.left s)).adopt (ix.left s) (.slot y) |>.relink s (.slot y)).clear s

theorem IsTree.left_promotedChild (h : ix.IsTree rank) {s y l : Slot} (hl : ix.left s = .slot l)
    (hr : ix.right s = .slot y) (t : Slot) : (ix.promotedChild s y).left t =
      if t = s then .nil else if t = y then ix.left s
      else if ix.left t = .slot s then .slot y else ix.left t := by
  obtain ⟨h1, h2, h3, h4, h5, h6, h7, h8, h9⟩ := h
  have hys : ix.parent y = .slot s := by grind
  have hne : y ≠ s := by grind
  unfold Index.promotedChild
  grind [left_clear, left_relink, left_adopt, left_setLeft, parent_adopt, parent_setLeft]

theorem IsTree.right_promotedChild (h : ix.IsTree rank) {s y l : Slot} (hl : ix.left s = .slot l)
    (hr : ix.right s = .slot y) (t : Slot) : (ix.promotedChild s y).right t =
      if t = s then .nil else if ix.right t = .slot s then .slot y else ix.right t := by
  obtain ⟨h1, h2, h3, h4, h5, h6, h7, h8, h9⟩ := h
  have hys : ix.parent y = .slot s := by grind
  have hne : y ≠ s := by grind
  unfold Index.promotedChild
  grind [right_clear, right_relink, right_adopt, right_setLeft, left_adopt, left_setLeft,
    parent_adopt, parent_setLeft]

theorem IsTree.promotedChild (h : ix.IsTree rank) {s y l : Slot} (hs : ix.parent s ≠ .nil)
    (hl : ix.left s = .slot l) (hr : ix.right s = .slot y) (hy : ix.left y = .nil) :
    (ix.promotedChild s y).IsTree (fun t => if t = y then rank s else rank t) := by
  have hl' := fun t => h.left_promotedChild hl hr t
  have hr' := fun t => h.right_promotedChild hl hr t
  obtain ⟨h1, h2, h3, h4, h5, h6, h7, h8, h9⟩ := h
  have hys : ix.parent y = .slot s := by grind
  have hne : y ≠ s := by grind
  have hp' : ∀ t, (ix.promotedChild s y).parent t =
      if t = s then .nil else if t = y then ix.parent s
      else if ix.left s = .slot t then .slot y else ix.parent t := by
    intro t; unfold Index.promotedChild
    grind [parent_clear, parent_relink, parent_adopt, parent_setLeft]
  have hroot : (ix.promotedChild s y).root = if ix.root = .slot s then .slot y else ix.root := by
    unfold Index.promotedChild
    grind [root_clear, root_relink, root_adopt, root_setLeft, parent_adopt, parent_setLeft]
  constructor
  all_goals simp only [hp', hl', hr', hroot]
  · grind
  · grind
  · grind
  · intro t p hc
    have i1 := h4 t p
    have i2 := h4 t s
    have i3 := h4 s p
    split_ifs at hc <;> grind
  · intro t
    have k1 := h5 t
    have k2 := h6 t
    refine link_cases ?_ fun c hc => ?_
    · split_ifs <;> grind
    · split_ifs at hc <;> grind
  · intro t
    have k1 := h5 t
    have k2 := h6 t
    refine link_cases ?_ fun c hc => ?_
    · split_ifs <;> grind
    · split_ifs at hc <;> grind
  · grind
  · grind
  · grind

/-- The links after a deep successor y, the left child of p, took the place of s. -/
theorem IsTree.promotedDeep_links (h : ix.IsTree rank) {s y l r p : Slot} (hs : ix.parent s ≠ .nil)
    (hl : ix.left s = .slot l) (hr : ix.right s = .slot r) (hy : ix.left y = .nil)
    (hp : ix.parent y = .slot p) (hpy : ix.left p = .slot y) (hps : p ≠ s) (hpl : p ≠ l) (hyr : rank r < rank y)
    (hsy : rank s < rank p) :
    (∀ t, (ix.promotedDeep s y).parent t =
      if t = s then .nil else if t = y then ix.parent s
      else if t = l ∨ t = r then .slot y
      else if ix.right y = .slot t then .slot p else ix.parent t) ∧
    (∀ t, (ix.promotedDeep s y).left t =
      if t = s then .nil else if t = y then ix.left s
      else if t = p then ix.right y
      else if ix.left t = .slot s then .slot y else ix.left t) ∧
    (∀ t, (ix.promotedDeep s y).right t =
      if t = s then .nil else if t = y then ix.right s
      else if ix.right t = .slot s then .slot y else ix.right t) ∧
    (ix.promotedDeep s y).root = if ix.root = .slot s then .slot y else ix.root := by
  obtain ⟨h1, h2, h3, h4, h5, h6, h7, h8, h9⟩ := h
  have hrs : ix.parent r = .slot s := by grind
  have hls : ix.parent l = .slot s := by grind
  have hys : y ≠ s := by grind
  have hlr : l ≠ r := by grind
  have hyl : y ≠ l := by grind
  have hyne : y ≠ r := by grind
  have hsr := h9 r s hrs
  have hsl := h9 l s hls
  have hr'' : ∀ c, ix.right y = .slot c → ix.parent c = .slot y := by grind
  have hpr := h9 y p hp
  have ns : ix.right y ≠ .slot s := fun e => by have := h9 s y (hr'' s e); omega
  have np : ix.right y ≠ .slot p := fun e => by have := h9 p y (hr'' p e); omega
  have nl : ix.right y ≠ .slot l := fun e => by have := hr'' l e; grind
  have nr : ix.right y ≠ .slot r := fun e => by have := hr'' r e; grind
  generalize hA : ((((ix.relink y (ix.right y)).setRight y (ix.right s)).adopt (ix.right s)
    (.slot y)).setLeft y (ix.left s)).adopt (ix.left s) (.slot y) = A
  have aP : ∀ t, A.parent t = if t = l ∨ t = r then .slot y
      else if ix.right y = .slot t then .slot p else ix.parent t := by
    intro t; subst hA
    have := @parent_relink ix y (ix.right y) t (by simp [hp])
    grind [parent_adopt, parent_setLeft, parent_setRight]
  have aL : ∀ t, A.left t = if t = y then ix.left s else if t = p then ix.right y else ix.left t := by
    intro t; subst hA
    have := @left_relink ix y (ix.right y) t
    grind [left_adopt, left_setLeft, left_setRight]
  have aR : ∀ t, A.right t = if t = y then ix.right s else ix.right t := by
    intro t; subst hA
    have := @right_relink ix y (ix.right y) t
    grind [right_adopt, right_setLeft, right_setRight]
  have aRoot : A.root = ix.root := by
    subst hA
    have := @root_relink ix y (ix.right y)
    grind [root_adopt, root_setLeft, root_setRight]
  have hD : ix.promotedDeep s y = (A.relink s (.slot y)).clear s := by subst hA; rfl
  have aPs : A.parent s = ix.parent s := by grind
  clear hA
  refine ⟨?_, ?_, ?_, ?_⟩
  · intro t; rw [hD]
    have := @parent_relink A s (.slot y) t
    grind [parent_clear]
  · intro t; rw [hD]
    have := @left_relink A s (.slot y) t
    have k1 := h5 t
    grind [left_clear]
  · intro t; rw [hD]
    have := @right_relink A s (.slot y) t
    have k2 := h4 s t
    have k3 := h6 t
    have k4 := h7 t s
    rw [right_clear, this, aPs, aL t, aR t]
    split_ifs <;> grind
  · rw [hD]
    have := @root_relink A s (.slot y)
    grind [root_clear]

theorem IsTree.promotedDeep (h : ix.IsTree rank) {s y l r p : Slot} (hs : ix.parent s ≠ .nil)
    (hl : ix.left s = .slot l) (hr : ix.right s = .slot r) (hy : ix.left y = .nil)
    (hp : ix.parent y = .slot p) (hpy : ix.left p = .slot y) (hps : p ≠ s) (hpl : p ≠ l) (hyr : rank r < rank y)
    (hsy : rank s < rank p) :
    (ix.promotedDeep s y).IsTree (fun t => if t = y then rank s else rank t) := by
  obtain ⟨hp', hl', hr', hroot⟩ := h.promotedDeep_links hs hl hr hy hp hpy hps hpl hyr hsy
  obtain ⟨h1, h2, h3, h4, h5, h6, h7, h8, h9⟩ := h
  have hrs : ix.parent r = .slot s := by grind
  have hls : ix.parent l = .slot s := by grind
  have hys : y ≠ s := by grind
  have hlr : l ≠ r := by grind
  have hyl : y ≠ l := by grind
  have hyne : y ≠ r := by grind
  have hsr := h9 r s hrs
  have hsl := h9 l s hls
  have hr'' : ∀ c, ix.right y = .slot c → ix.parent c = .slot y := by grind
  have hpr := h9 y p hp
  have ns : ix.right y ≠ .slot s := fun e => by have := h9 s y (hr'' s e); omega
  have np : ix.right y ≠ .slot p := fun e => by have := h9 p y (hr'' p e); omega
  have nl : ix.right y ≠ .slot l := fun e => by have := hr'' l e; grind
  have nr : ix.right y ≠ .slot r := fun e => by have := hr'' r e; grind
  constructor
  all_goals simp only [hp', hl', hr', hroot]
  · grind
  · grind
  · grind
  · intro t p' hc
    have i1 := h4 t p'
    have i2 := h4 t s
    have i3 := h4 s p'
    have i4 := h4 t y
    split_ifs at hc <;> grind
  · intro t
    have k1 := h5 t
    have k2 := h6 t
    refine link_cases ?_ fun c hc => ?_
    · split_ifs <;> grind
    · split_ifs at hc <;> grind
  · intro t
    have k1 := h5 t
    have k2 := h6 t
    refine link_cases ?_ fun c hc => ?_
    · split_ifs <;> grind
    · split_ifs at hc <;> grind
  · intro t c e1 e2
    have k1 := h7 t c
    have k2 := h7 s c
    have k3 := h5 t
    have k4 := h6 t
    have k5 := h5 s
    split_ifs at e1 e2 <;> grind
  · intro t e
    have k1 := h8 t
    have k2 := h4 y p hp
    split_ifs at e <;> grind
  · intro t q e
    have k1 := h9 t q
    have k2 := h9 s q
    have k3 := h9 t y
    split_ifs at e <;> grind

end Sys2Proof.Machine.Index
end

