-- ==== Sys2Proof/Laws/MatchIndex.lean ====
section
/-! SUPPORT. Laws/MatchIndex.lean: what the primitives of the match index do on a tree: each ends without
a fault, keeps the tree shape (R44), and occupies or frees the slots its rule says (R122 to R129). -/

namespace Sys2Proof.Machine

open Index

/-- From `x >>= f = ok b`: the value x gave. -/
theorem Run.bind_ok {α β : Type} {x : Run α} {f : α → Run β} {b : β} (h : (x >>= f) = .ok b) :
    ∃ a, x = .ok a ∧ f a = .ok b := by
  cases x with
  | error e => cases h
  | ok a => exact ⟨a, rfl, h⟩

@[simp] theorem Run.ok_bind {α β : Type} (a : α) (f : α → Run β) : ((.ok a : Run α) >>= f) = f a := rfl

@[simp] theorem Run.pure_eq {α : Type} (a : α) : (pure a : Run α) = .ok a := rfl

/-! ## Walks end -/

/-- Slots of rising rank met before q leave room for q: there are at most 4095 of them. -/
theorem walk_room {rank : Slot → Nat} {q : Slot} {seen : List Slot} (hn : seen.Nodup)
    (hr : ∀ v ∈ seen, rank v < rank q) : seen.length < 4096 := by
  have h : (q :: seen).Nodup := List.nodup_cons.2 ⟨fun hq => Nat.lt_irrefl _ (hr q hq), hn⟩
  have := h.length_le_card
  simpa using this

/-- A walk that goes on to a slot c of higher rank. -/
theorem walk_next {rank : Slot → Nat} {q c : Slot} {seen : List Slot} {fuel : Nat}
    (hn : seen.Nodup) (hr : ∀ v ∈ seen, rank v < rank q) (hf : 4096 ≤ seen.length + (fuel + 1))
    (hc : rank q < rank c) :
    (q :: seen).Nodup ∧ (∀ v ∈ q :: seen, rank v < rank c) ∧ 4096 ≤ (q :: seen).length + fuel := by
  refine ⟨List.nodup_cons.2 ⟨fun hq => Nat.lt_irrefl _ (hr q hq), hn⟩, fun v hv => ?_, ?_⟩
  · rcases List.mem_cons.1 hv with rfl | hv
    · exact hc
    · exact Nat.lt_trans (hr v hv) hc
  · simp only [List.length_cons]; omega

namespace Index.IsTree

variable {ix : Index} {rank : Slot → Nat}

theorem left_child (h : ix.IsTree rank) {q c : Slot} (e : ix.left q = .slot c) :
    ix.parent c = .slot q ∧ rank q < rank c := by
  rcases h.leftLink q with e' | ⟨d, e', hd⟩
  · simp [e] at e'
  · obtain rfl : c = d := by simpa [e] using e'
    exact ⟨hd, h.ranked _ _ hd⟩

theorem right_child (h : ix.IsTree rank) {q c : Slot} (e : ix.right q = .slot c) :
    ix.parent c = .slot q ∧ rank q < rank c := by
  rcases h.rightLink q with e' | ⟨d, e', hd⟩
  · simp [e] at e'
  · obtain rfl : c = d := by simpa [e] using e'
    exact ⟨hd, h.ranked _ _ hd⟩

/-- The leftmost slot y below r: it has no left child, and it is r or the left child of a slot p at or
below r, which is r or itself a child of a slot at or below r. -/
theorem leftmost_walk (h : ix.IsTree rank) (r : Slot) (fuel : Nat) :
    ∀ (y : Slot) (seen : List Slot), seen.Nodup → (∀ v ∈ seen, rank v < rank y) →
      4096 ≤ seen.length + fuel → rank r ≤ rank y →
      (y = r ∨ ∃ p, ix.parent y = .slot p ∧ ix.left p = .slot y ∧ rank r ≤ rank p ∧
        (p = r ∨ ∃ p', ix.parent p = .slot p' ∧ rank r ≤ rank p')) →
      ∃ z, leftmost ix fuel y = .ok z ∧ ix.left z = .nil ∧ rank r ≤ rank z ∧
        (z = r ∨ ∃ p, ix.parent z = .slot p ∧ ix.left p = .slot z ∧ rank r ≤ rank p ∧
          (p = r ∨ ∃ p', ix.parent p = .slot p' ∧ rank r ≤ rank p')) := by
  induction fuel with
  | zero =>
    intro y seen hn hr hf _ _
    have := walk_room hn hr; omega
  | succ fuel ih =>
    intro y seen hn hr hf hry hy
    unfold leftmost
    cases e : ix.left y with
    | nil => exact ⟨y, rfl, e, hry, hy⟩
    | rootMark => exact absurd e (h.leftLink_ne y)
    | slot c =>
      obtain ⟨hc, hrank⟩ := h.left_child e
      obtain ⟨a, b, d⟩ := walk_next hn hr hf hrank
      refine ih c (y :: seen) a b d (by omega) (.inr ⟨y, hc, e, hry, ?_⟩)
      rcases hy with rfl | ⟨p, hp, _, hrp, _⟩
      · exact .inl rfl
      · exact .inr ⟨p, hp, hrp⟩

theorem leftmost_ok (h : ix.IsTree rank) (r : Slot) :
    ∃ z, leftmost ix 4096 r = .ok z ∧ ix.left z = .nil ∧ rank r ≤ rank z ∧
      (z = r ∨ ∃ p, ix.parent z = .slot p ∧ ix.left p = .slot z ∧ rank r ≤ rank p ∧
        (p = r ∨ ∃ p', ix.parent p = .slot p' ∧ rank r ≤ rank p')) :=
  h.leftmost_walk r 4096 r [] List.nodup_nil (by simp) (by simp) le_rfl (.inl rfl)

end Index.IsTree

/-! ## Remove -/

theorem removeTwo_child {ix : Index} {rank : Slot → Nat} (h : ix.IsTree rank) {s l r : Slot}
    (hs : ix.parent s ≠ .nil) (hl : ix.left s = .slot l) (hr : ix.right s = .slot r)
    (hm : leftmost ix 4096 r = .ok r) :
    removeTwo s r ix = .ok (((ix.setLeft r (ix.left s)).adopt (ix.left s) (.slot r)).relink s
      (.slot r)) := by
  obtain ⟨hrs, hrk⟩ := h.right_child hr
  obtain ⟨hls, hlk⟩ := h.left_child hl
  have hne : s ≠ l := by rintro rfl; omega
  simp only [removeTwo, detach, hm, Run.ok_bind, if_true]
  rw [reparent_ok _ _ (h.leftLink_ne s), Run.ok_bind, replaceChild_ok _ _ _ (by simp)]
  simp [hl, Ne.symm hne, hs]

theorem removeTwo_deep {ix : Index} {rank : Slot → Nat} (h : ix.IsTree rank) {s l r y p : Slot}
    (hs : ix.parent s ≠ .nil) (hl : ix.left s = .slot l) (hr : ix.right s = .slot r)
    (hm : leftmost ix 4096 r = .ok y) (hy : y ≠ r) (hp : ix.parent y = .slot p)
    (hps : p ≠ s) (hyr : rank r < rank y) :
    removeTwo s r ix = .ok (((((ix.relink y (ix.right y)).setRight y (ix.right s)).adopt (ix.right s)
      (.slot y)).setLeft y (ix.left s)).adopt (ix.left s) (.slot y) |>.relink s (.slot y)) := by
  obtain ⟨hrs, hrk⟩ := h.right_child hr
  obtain ⟨hls, hlk⟩ := h.left_child hl
  have hsl : s ≠ l := by rintro rfl; omega
  have hsr : s ≠ r := by rintro rfl; omega
  have hys : y ≠ s := by rintro rfl; omega
  have hyp : ix.parent y ≠ .nil := by simp [hp]
  have hsp : s ≠ p := Ne.symm hps
  have hry : ix.right y ≠ .slot s := fun e => by have := (h.right_child e).2; omega
  have a1 : (ix.relink y (ix.right y)).right s = ix.right s := by
    rw [right_relink]; simp [hp, hps]
  have a2 : (ix.relink y (ix.right y)).left s = ix.left s := by
    rw [left_relink]; simp [hp, hps]
  simp only [removeTwo, detach, hm, Run.ok_bind, if_neg hy]
  rw [replaceChild_ok _ _ hyp (h.rightLink_ne y), Run.ok_bind, a1, reparent_ok _ _ (h.rightLink_ne s),
    Run.ok_bind]
  simp only [left_adopt, left_setRight, a2]
  rw [reparent_ok _ _ (h.leftLink_ne s), Run.ok_bind, replaceChild_ok _ _ _ (by simp)]
  rw [parent_adopt, parent_setLeft, parent_adopt, parent_setRight, parent_relink _ _ _ hyp]
  simp [hl, hr, Ne.symm hsl, Ne.symm hsr, hry, hs]

/-- What `remove(s)` leaves on a tree with s occupied (R124, R125): s spliced out for its one child or none;
its right child y moved up; or a deep successor y, the left child of p, moved up. -/
inductive Removed (ix : Index) (rank : Slot → Nat) (s : Slot) : Index → Prop where
  | splice (y : Link) (hy : y ≠ .rootMark)
      (hc : ix.left s = .nil ∧ y = ix.right s ∨ ix.right s = .nil ∧ y = ix.left s) :
      Removed ix rank s ((ix.relink s y).clear s)
  | child (l y : Slot) (hl : ix.left s = .slot l) (hr : ix.right s = .slot y) (hy : ix.left y = .nil) :
      Removed ix rank s (ix.promotedChild s y)
  | deep (l r y p : Slot) (hl : ix.left s = .slot l) (hr : ix.right s = .slot r) (hy : ix.left y = .nil)
      (hm : leftmost ix 4096 r = .ok y) (hp : ix.parent y = .slot p) (hpy : ix.left p = .slot y)
      (hps : p ≠ s) (hpl : p ≠ l) (hry : rank r < rank y) (hsp : rank s < rank p) :
      Removed ix rank s (ix.promotedDeep s y)

theorem remove_forms {ix : Index} {rank : Slot → Nat} (h : ix.IsTree rank) {s : Slot}
    (hs : ix.parent s ≠ .nil) : ∃ ix', remove s ix = .ok ix' ∧ Removed ix rank s ix' := by
  have spliced : ∀ y, y ≠ .rootMark →
      (ix.left s = .nil ∧ y = ix.right s ∨ ix.right s = .nil ∧ y = ix.left s) →
      unlink s ix = replaceChild s y ix →
      ∃ ix', remove s ix = .ok ix' ∧ Removed ix rank s ix' := by
    intro y hy hc hu
    refine ⟨_, ?_, .splice y hy hc⟩
    simp [remove, hu, replaceChild_ok s y hs hy]
  cases hl : ix.left s with
  | rootMark => exact absurd hl (h.leftLink_ne s)
  | nil =>
    cases hr : ix.right s with
    | rootMark => exact absurd hr (h.rightLink_ne s)
    | nil => exact spliced .nil (by simp) (.inl ⟨hl, hr.symm⟩) (by simp [unlink, hl, hr])
    | slot r => exact spliced (.slot r) (by simp) (.inl ⟨hl, hr.symm⟩) (by simp [unlink, hl, hr])
  | slot l =>
    cases hr : ix.right s with
    | rootMark => exact absurd hr (h.rightLink_ne s)
    | nil => exact spliced (.slot l) (by simp) (.inr ⟨hr, hl.symm⟩) (by simp [unlink, hl, hr])
    | slot r =>
      obtain ⟨hls, hlk⟩ := h.left_child hl
      obtain ⟨hrs, hrk⟩ := h.right_child hr
      obtain ⟨y, hm, hyl, hry, hy⟩ := h.leftmost_ok r
      have hu : unlink s ix = removeTwo s r ix := by simp [unlink, hl, hr]
      by_cases hyr : y = r
      · subst hyr
        refine ⟨_, ?_, .child l y hl hr hyl⟩
        rw [remove, hu, removeTwo_child h hs hl hr hm]; rfl
      · obtain ⟨p, hp, hpy, hrp, hpr⟩ := hy.resolve_left hyr
        have hps : p ≠ s := by rintro rfl; omega
        have hpl : p ≠ l := by
          rintro rfl
          rcases hpr with rfl | ⟨p', hp', hrp'⟩
          · exact absurd hr (h.childOnce _ _ hl)
          · obtain rfl : s = p' := by simpa [hls] using hp'
            omega
        have hyk := h.ranked _ _ hp
        refine ⟨_, ?_, .deep l r y p hl hr hyl hm hp hpy hps hpl (by omega) (by omega)⟩
        rw [remove, hu, removeTwo_deep h hs hl hr hm hyr hp hps (by omega)]; rfl

/-- `remove(s)` on a tree with s occupied (R124, R125): it ends, leaves a tree, empties slot s, and
empties and occupies no other slot. -/
theorem remove_ok {ix : Index} (h : ix.TreeShape) {s : Slot} (hs : ix.parent s ≠ .nil) :
    ∃ ix', remove s ix = .ok ix' ∧ ix'.TreeShape ∧
      ∀ t, ix'.parent t = .nil ↔ t = s ∨ ix.parent t = .nil := by
  obtain ⟨rank, h⟩ := h
  obtain ⟨ix', h1, h2⟩ := remove_forms h hs
  refine ⟨ix', h1, ?_⟩
  cases h2 with
  | splice y hy hc =>
    refine ⟨⟨rank, h.splice hs hc⟩, fun t => ?_⟩
    rw [parent_clear, parent_relink _ _ _ hs]
    have k1 := fun e : ix.left s = .slot t => (h.left_child e).1
    have k2 := fun e : ix.right s = .slot t => (h.right_child e).1
    grind
  | child l y hl hr hy =>
    obtain ⟨hls, hlk⟩ := h.left_child hl
    obtain ⟨hrs, hrk⟩ := h.right_child hr
    refine ⟨⟨_, h.promotedChild hs hl hr hy⟩, fun t => ?_⟩
    unfold Index.promotedChild
    rw [parent_clear, parent_relink _ _ _ (by rw [parent_adopt, parent_setLeft]; grind)]
    simp only [parent_adopt, parent_setLeft]
    grind
  | deep l r y p hl hr hy hm hp hpy hps hpl hry hsp =>
    obtain ⟨hls, hlk⟩ := h.left_child hl
    obtain ⟨hrs, hrk⟩ := h.right_child hr
    refine ⟨⟨_, h.promotedDeep hs hl hr hy hp hpy hps hpl hry hsp⟩, fun t => ?_⟩
    rw [(h.promotedDeep_links hs hl hr hy hp hpy hps hpl hry hsp).1 t]
    have k2 := fun e : ix.right y = .slot t => (h.right_child e).1
    grind

/-! ## Insert -/

theorem descend_walk {ix : Index} {rank : Slot → Nat} (h : ix.IsTree rank) (w : Window)
    (cur p fuel : Nat) :
    ∀ (q : Slot) (seen : List Slot), seen.Nodup → (∀ v ∈ seen, rank v < rank q) →
      4096 ≤ seen.length + fuel → ix.parent q ≠ .nil →
      ∃ place, descend w cur p ix fuel q = .ok place ∧
        match place with
        | .equal q => ix.parent q ≠ .nil
        | .left q => ix.parent q ≠ .nil ∧ ix.left q = .nil
        | .right q => ix.parent q ≠ .nil ∧ ix.right q = .nil := by
  induction fuel with
  | zero =>
    intro q seen hn hr hf _
    have := walk_room hn hr; omega
  | succ fuel ih =>
    intro q seen hn hr hf hq
    unfold descend
    cases (cmpKey w p (posOf cur q) 18).2 with
    | equal => exact ⟨.equal q, rfl, hq⟩
    | less =>
      cases e : ix.left q with
      | nil => exact ⟨.left q, rfl, hq, e⟩
      | rootMark => exact absurd e (h.leftLink_ne q)
      | slot c =>
        obtain ⟨hc, hrank⟩ := h.left_child e
        obtain ⟨a, b, d⟩ := walk_next hn hr hf hrank
        exact ih c (q :: seen) a b d (by simp [hc])
    | greater =>
      cases e : ix.right q with
      | nil => exact ⟨.right q, rfl, hq, e⟩
      | rootMark => exact absurd e (h.rightLink_ne q)
      | slot c =>
        obtain ⟨hc, hrank⟩ := h.right_child e
        obtain ⟨a, b, d⟩ := walk_next hn hr hf hrank
        exact ih c (q :: seen) a b d (by simp [hc])

/-- `insert(p)` on a tree with slot(p) empty (R123): it ends, leaves a tree, occupies slot(p), and
occupies no other slot. -/
theorem insert_ok {ix : Index} (h : ix.TreeShape) (w : Window) (cur p : Nat)
    (hs : ix.parent (slotOf p) = .nil) :
    ∃ ix', insert w cur p ix = .ok ix' ∧ ix'.TreeShape ∧ ix'.parent (slotOf p) ≠ .nil ∧
      ∀ t, t ≠ slotOf p → ix.parent t = .nil → ix'.parent t = .nil := by
  obtain ⟨rank, h⟩ := h
  have h' := h.clearChildren hs
  have hs' : ((ix.setLeft (slotOf p) .nil).setRight (slotOf p) .nil).parent (slotOf p) = .nil := by
    simpa using hs
  have hkeep : ∀ t, ix.parent t = .nil →
      ((ix.setLeft (slotOf p) .nil).setRight (slotOf p) .nil).parent t = .nil := by simp
  unfold insert
  simp only
  generalize (ix.setLeft (slotOf p) .nil).setRight (slotOf p) .nil = jx at *
  generalize slotOf p = s at *
  cases hr : jx.root with
  | rootMark => exact absurd hr h'.rootLink
  | nil =>
    refine ⟨_, rfl, ⟨rank, h'.plantRoot hr hs'⟩, by simp, fun t ht e => ?_⟩
    simp [ht, hkeep t e]
  | slot r =>
    obtain ⟨place, hd, hp⟩ := descend_walk h' w cur p 4096 r [] List.nodup_nil (by simp) (by simp)
      (by rw [h'.rootParent r hr]; simp)
    simp only [hd, Run.ok_bind, attach]
    cases place with
    | equal q =>
      refine ⟨_, h'.replaceNode_ok hp hs', ⟨_, h'.substituted hp hs'⟩, ?_⟩
      have hqs : q ≠ s := by rintro rfl; exact hp hs'
      have hpar : ∀ t, (jx.substituted q s).parent t =
          if t = q then .nil else if t = s then jx.parent q
          else if jx.left q = .slot t ∨ jx.right q = .slot t then .slot s else jx.parent t :=
        fun t => h'.parent_substituted hp hs' t
      refine ⟨by rw [hpar]; simp [Ne.symm hqs, hp], fun t ht e => ?_⟩
      have k1 := fun e : jx.left q = .slot t => (h'.left_child e).1
      have k2 := fun e : jx.right q = .slot t => (h'.right_child e).1
      have k3 := hkeep t e
      rw [hpar]; grind
    | left q =>
      refine ⟨_, rfl, ⟨_, h'.attachLeft hp.1 hp.2 hs'⟩, by simp, fun t ht e => ?_⟩
      simp [ht, hkeep t e]
    | right q =>
      refine ⟨_, rfl, ⟨_, h'.attachRight hp.1 hp.2 hs'⟩, by simp, fun t ht e => ?_⟩
      simp [ht, hkeep t e]

end Sys2Proof.Machine
end

