-- ==== Sys2Proof/Laws/Window.lean ====
section
/-! SUPPORT. Laws/Window.lean: positions and slots (R42), key comparison (R121), the search (R127, R130),
and the loops of advanceWindow and seed (R128, R129). -/

namespace Sys2Proof.Machine

open Index

/-! ## Positions and slots -/

theorem slotOf_eq {a b : Nat} : slotOf a = slotOf b ↔ a % 4096 = b % 4096 := by
  simp [slotOf, Fin.ext_iff]

/-- R42 in the integers: posOf(s) is CUR minus the Euclidean remainder of CUR - s. -/
theorem posOf_int (cur : Nat) (s : Slot) (h : 4096 ≤ cur) :
    (posOf cur s : Int) = cur - ((cur : Int) - s.val) % 4096 := by
  unfold posOf; omega

/-- The position of any slot is one of the last 4096, and its slot is the one asked for (R42). -/
theorem posOf_range (cur : Nat) (s : Slot) (h : 4096 ≤ cur) :
    cur ≤ posOf cur s + 4095 ∧ posOf cur s ≤ cur ∧ slotOf (posOf cur s) = s := by
  refine ⟨by unfold posOf; omega, by unfold posOf; omega, ?_⟩
  unfold posOf slotOf
  apply Fin.ext
  simp only
  omega

/-- A slot other than CUR's own lies in CUR-4095..CUR-1 (R44, range). -/
theorem posOf_lt (cur : Nat) (s : Slot) (h : 4096 ≤ cur) (hs : s ≠ slotOf cur) :
    posOf cur s < cur := by
  have := posOf_range cur s h
  rcases Nat.lt_or_ge (posOf cur s) cur with h1 | h1
  · exact h1
  · exact absurd (by rw [← this.2.2]; congr 1; omega) hs

/-! ## Key comparison -/

theorem cmpFrom_spec (w : Window) (a b rem m : Nat) :
    m ≤ (cmpFrom w a b rem m).1 ∧ (cmpFrom w a b rem m).1 ≤ m + rem ∧
    (∀ i, m ≤ i → i < (cmpFrom w a b rem m).1 → w.byte (a + i) = w.byte (b + i)) := by
  induction rem generalizing m with
  | zero => exact ⟨Nat.le_refl _, by simp [cmpFrom], fun i h1 h2 => by simp [cmpFrom] at h2; omega⟩
  | succ rem ih =>
    unfold cmpFrom
    split
    · rename_i e
      obtain ⟨h1, h2, h3⟩ := ih (m + 1)
      refine ⟨by omega, by omega, fun i hi hl => ?_⟩
      rcases Nat.eq_or_lt_of_le hi with rfl | hi
      · exact e
      · exact h3 i hi hl
    · exact ⟨Nat.le_refl _, by simp, fun i h1 h2 => absurd h2 (by simp; omega)⟩

/-- The common prefix that cmpKey counts is at most n long and is common (R121). -/
theorem cmpKey_spec (w : Window) (a b n : Nat) :
    (cmpKey w a b n).1 ≤ n ∧ ∀ i, i < (cmpKey w a b n).1 → w.byte (a + i) = w.byte (b + i) := by
  obtain ⟨_, h2, h3⟩ := cmpFrom_spec w a b n 0
  exact ⟨by simpa [cmpKey] using h2, fun i hi => h3 i (Nat.zero_le _) hi⟩

/-! ## Search -/

theorem search_walk {ix : Index} {rank : Slot → Nat} (h : ix.IsTree rank) (w : Window)
    (cur lim fuel : Nat) :
    ∀ (q : Link) (best : Nat × Nat) (seen : List Slot), seen.Nodup →
      4096 ≤ seen.length + fuel →
      (q = .nil ∨ ∃ c, q = .slot c ∧ ix.parent c ≠ .nil ∧ ∀ v ∈ seen, rank v < rank c) →
      ∃ m, searchFrom w cur lim ix fuel q best = .ok m ∧
        (m = best ∨ best.1 < m.1 ∧ ∃ c, ix.parent c ≠ .nil ∧ m.2 = posOf cur c ∧
          m.1 = (cmpKey w cur m.2 lim).1) := by
  induction fuel with
  | zero =>
    rintro q best seen hn hf (rfl | ⟨c, rfl, hc, hr⟩)
    · exact ⟨best, rfl, .inl rfl⟩
    · have := walk_room hn hr; omega
  | succ fuel ih =>
    rintro q best seen hn hf (rfl | ⟨c, rfl, hc, hr⟩)
    · exact ⟨best, rfl, .inl rfl⟩
    · have next : ∀ l b, (l = ix.left c ∨ l = ix.right c) →
          ∃ m, searchFrom w cur lim ix fuel l b = .ok m ∧
            (m = b ∨ b.1 < m.1 ∧ ∃ c, ix.parent c ≠ .nil ∧ m.2 = posOf cur c ∧
              m.1 = (cmpKey w cur m.2 lim).1) := by
        intro l b hl
        have hn' : (c :: seen).Nodup :=
          List.nodup_cons.2 ⟨fun hq => Nat.lt_irrefl _ (hr c hq), hn⟩
        refine ih l b (c :: seen) hn' (by simp only [List.length_cons]; omega) ?_
        have child : ∀ d, ix.parent d = .slot c → rank c < rank d →
            ix.parent d ≠ .nil ∧ ∀ v ∈ c :: seen, rank v < rank d := fun d hd hk =>
          ⟨by simp [hd], fun v hv => by
            rcases List.mem_cons.1 hv with rfl | hv
            · exact hk
            · exact Nat.lt_trans (hr v hv) hk⟩
        rcases hl with rfl | rfl
        · rcases h.leftLink c with e | ⟨d, e, hd⟩
          · exact .inl e
          · exact .inr ⟨d, e, child d hd (h.ranked _ _ hd)⟩
        · rcases h.rightLink c with e | ⟨d, e, hd⟩
          · exact .inl e
          · exact .inr ⟨d, e, child d hd (h.ranked _ _ hd)⟩
      simp only [searchFrom]
      generalize hb : (if (cmpKey w cur (posOf cur c) lim).1 > best.1 then
        ((cmpKey w cur (posOf cur c) lim).1, posOf cur c) else best) = b
      have hbest : b = best ∨ best.1 < b.1 ∧ ∃ c, ix.parent c ≠ .nil ∧ b.2 = posOf cur c ∧
          b.1 = (cmpKey w cur b.2 lim).1 := by
        subst hb
        split
        · rename_i hgt; exact .inr ⟨hgt, c, hc, rfl, rfl⟩
        · exact .inl rfl
      have join : ∀ m, (m = b ∨ b.1 < m.1 ∧ ∃ c, ix.parent c ≠ .nil ∧ m.2 = posOf cur c ∧
            m.1 = (cmpKey w cur m.2 lim).1) →
          (m = best ∨ best.1 < m.1 ∧ ∃ c, ix.parent c ≠ .nil ∧ m.2 = posOf cur c ∧
            m.1 = (cmpKey w cur m.2 lim).1) := by
        rintro m (rfl | ⟨h1, h2⟩)
        · exact hbest
        · rcases hbest with rfl | ⟨h3, _⟩
          · exact .inr ⟨h1, h2⟩
          · exact .inr ⟨Nat.lt_trans h3 h1, h2⟩
      split
      · exact ⟨b, rfl, hbest⟩
      · split
        · obtain ⟨m, hm, hj⟩ := next _ b (.inl rfl); exact ⟨m, hm, join m hj⟩
        · obtain ⟨m, hm, hj⟩ := next _ b (.inr rfl); exact ⟨m, hm, join m hj⟩

/-- `findLongestMatch(cur)` on a tree whose slot cur mod 4096 is empty (R127, R130): it ends, and its
result is (2, 0) or a match of 3 to 18 bytes, inside the data, at one of the last 4095 positions. -/
theorem findLongestMatch_ok {ix : Index} (h : ix.TreeShape) (w : Window) {cur : Nat}
    (hc : 4096 ≤ cur) (hf : ix.parent (slotOf cur) = .nil) :
    ∃ m, findLongestMatch w cur ix = .ok m ∧
      (m = (2, 0) ∨ 3 ≤ m.1 ∧ m.1 ≤ 18 ∧ cur + m.1 ≤ 4096 + w.inLen ∧ cur ≤ m.2 + 4095 ∧
        m.2 < cur ∧ ∀ i, i < m.1 → w.byte (cur + i) = w.byte (m.2 + i)) := by
  obtain ⟨rank, h⟩ := h
  have hroot : ix.root = .nil ∨ ∃ c, ix.root = .slot c ∧ ix.parent c ≠ .nil ∧
      ∀ v ∈ ([] : List Slot), rank v < rank c := by
    cases e : ix.root with
    | nil => exact .inl rfl
    | rootMark => exact absurd e h.rootLink
    | slot c => exact .inr ⟨c, rfl, by rw [h.rootParent c e]; simp, by simp⟩
  obtain ⟨m, hm, hr⟩ := search_walk h w cur (min 18 (4096 + w.inLen - cur)) 4096 ix.root (2, 0) []
    List.nodup_nil (by simp) hroot
  refine ⟨m, hm, ?_⟩
  rcases hr with rfl | ⟨h2, c, hp, hpos, hlen⟩
  · exact .inl rfl
  · have hs := cmpKey_spec w cur m.2 (min 18 (4096 + w.inLen - cur))
    rw [← hlen] at hs
    have hr := posOf_range cur c hc
    have hlt := posOf_lt cur c hc (by rintro rfl; exact hp hf)
    simp only at h2
    exact .inr ⟨by omega, by omega, by omega, by omega, by omega, hs.2⟩

/-- A match that the search finds stands at an occupied slot (R127). -/
theorem findLongestMatch_occupied {ix : Index} (h : ix.TreeShape) {w : Window} {cur : Nat}
    {m : Nat × Nat} (hc : 4096 ≤ cur) (hm : findLongestMatch w cur ix = .ok m) (h2 : m ≠ (2, 0)) :
    ix.parent (slotOf m.2) ≠ .nil := by
  obtain ⟨rank, h⟩ := h
  have hroot : ix.root = .nil ∨ ∃ c, ix.root = .slot c ∧ ix.parent c ≠ .nil ∧
      ∀ v ∈ ([] : List Slot), rank v < rank c := by
    cases e : ix.root with
    | nil => exact .inl rfl
    | rootMark => exact absurd e h.rootLink
    | slot c => exact .inr ⟨c, rfl, by rw [h.rootParent c e]; simp, by simp⟩
  obtain ⟨k, hk, hr⟩ := search_walk h w cur (min 18 (4096 + w.inLen - cur)) 4096 ix.root (2, 0) []
    List.nodup_nil (by simp) hroot
  obtain rfl : m = k := Except.ok.inj (hm.symm.trans hk)
  obtain ⟨_, c, hp, hpos, _⟩ := hr.resolve_left h2
  rw [hpos, (posOf_range cur c hc).2.2]
  exact hp

/-- An empty tree holds no match (R130). -/
theorem findLongestMatch_empty {ix : Index} (w : Window) (cur : Nat) (h : ix.root = .nil) :
    findLongestMatch w cur ix = .ok (2, 0) := by
  rw [findLongestMatch, h, searchFrom]

/-! ## The window moves -/

/-- The loop of advanceWindow is the one R128 writes out. -/
theorem advanceSpec_eq (w : Window) (count : Nat) : ∀ (c : Nat) (ix : Index),
    advanceSpec w c count ix = advanceIndex w count c ix := by
  induction count with
  | zero => intro c ix; rfl
  | succ count ih =>
    intro c ix
    have tail : ∀ jx, (List.range count).foldlM (fun ix i => do
          let t := slotOf (c + (i + 1) + 1)
          let ix ← if ix.parent t ≠ .nil then remove t ix else pure ix
          insert w (c + (i + 1)) (c + (i + 1)) ix) jx = advanceIndex w count (c + 1) jx := by
      intro jx
      rw [← ih, advanceSpec]
      congr 1
      funext kx i
      rw [show c + (i + 1) = c + 1 + i by omega]
    rw [advanceIndex, advanceSpec, List.range_succ_eq_map, List.foldlM_cons]
    simp only [List.foldlM_map, Nat.succ_eq_add_one, tail, Nat.add_zero]
    unfold retire
    by_cases e : ix.parent (slotOf (c + 1)) = .nil
    · simp only [e, ne_eq, not_true_eq_false, if_false, if_true, Run.pure_eq, Run.ok_bind]
    · simp only [e, ne_eq, not_false_eq_true, if_false, if_true]
      cases remove (slotOf (c + 1)) ix <;> rfl

/-- The loop of the seed is the one R129 writes out. -/
theorem seedFrom_fold (w : Window) (count : Nat) : ∀ (p : Nat) (ix : Index),
    (List.range count).foldlM (fun ix i => insert w 4096 (i + p) ix) ix = seedFrom w count p ix := by
  induction count with
  | zero => intro p ix; rfl
  | succ count ih =>
    intro p ix
    have tail : ∀ jx, (List.range count).foldlM (fun ix i => insert w 4096 (i + 1 + p) ix) jx =
        seedFrom w count (p + 1) jx := by
      intro jx
      rw [← ih]
      congr 1
      funext kx i
      rw [show i + 1 + p = i + (p + 1) by omega]
    rw [seedFrom, List.range_succ_eq_map, List.foldlM_cons]
    simp only [List.foldlM_map, Nat.succ_eq_add_one, tail, Nat.zero_add]

theorem seedSpec_eq (w : Window) : seedSpec w = seedFrom w 4095 1 .cleared := seedFrom_fold w 4095 1 .cleared

/-- `advanceWindow(count)` from CUR = c on a tree with slot(c) empty (R128): it ends, and leaves a tree
with the slot of the new CUR empty. -/
theorem advanceIndex_ok (w : Window) (count : Nat) : ∀ (c : Nat) (ix : Index), ix.TreeShape →
    ix.parent (slotOf c) = .nil →
    ∃ ix', advanceIndex w count c ix = .ok ix' ∧ ix'.TreeShape ∧
      ix'.parent (slotOf (c + count)) = .nil := by
  induction count with
  | zero => intro c ix h hf; exact ⟨ix, rfl, h, hf⟩
  | succ count ih =>
    intro c ix h hf
    have hne : slotOf (c + 1) ≠ slotOf c := by rw [Ne, slotOf_eq]; omega
    have retired : ∃ jx, retire (slotOf (c + 1)) ix = .ok jx ∧ jx.TreeShape ∧
        jx.parent (slotOf (c + 1)) = .nil ∧ jx.parent (slotOf c) = .nil := by
      unfold retire
      split
      · rename_i e; exact ⟨ix, rfl, h, e, hf⟩
      · rename_i e
        obtain ⟨jx, h1, h2, h3⟩ := remove_ok h e
        exact ⟨jx, h1, h2, (h3 _).2 (.inl rfl), (h3 _).2 (.inr hf)⟩
    obtain ⟨jx, h1, h2, h3, h4⟩ := retired
    obtain ⟨kx, k1, k2, _, k4⟩ := insert_ok h2 w c c h4
    obtain ⟨lx, l1, l2, l3⟩ := ih (c + 1) kx k2 (k4 _ hne h3)
    refine ⟨lx, ?_, l2, by rw [show c + (count + 1) = c + 1 + count by omega]; exact l3⟩
    simp only [advanceIndex]
    rw [h1, Run.ok_bind, k1, Run.ok_bind, l1]

theorem Index.TreeShape.cleared : Index.cleared.TreeShape :=
  ⟨fun _ => 0, by constructor <;> simp⟩

/-- The inserts of the seed, positions p..p+count-1 below 4096, into a tree that holds none of their
slots and not slot 0: they end and leave slot 0 empty. -/
theorem seedFrom_ok (w : Window) (count : Nat) : ∀ (p : Nat) (ix : Index), ix.TreeShape →
    1 ≤ p → p + count ≤ 4096 → (∀ t : Slot, p ≤ t.val ∨ t.val = 0 → ix.parent t = .nil) →
    ∃ ix', seedFrom w count p ix = .ok ix' ∧ ix'.TreeShape ∧ ix'.parent (slotOf 4096) = .nil := by
  induction count with
  | zero => intro p ix h _ _ he; exact ⟨ix, rfl, h, he _ (.inr (by simp [slotOf]))⟩
  | succ count ih =>
    intro p ix h hp hb he
    have hs : (slotOf p).val = p := Nat.mod_eq_of_lt (by omega)
    obtain ⟨jx, h1, h2, _, h4⟩ := insert_ok h w 4096 p (he _ (.inl (by omega)))
    obtain ⟨kx, k1, k2⟩ := ih (p + 1) jx h2 (by omega) (by omega) (fun t ht =>
      h4 t (fun e => by rw [e, hs] at ht; omega) (he t (by omega)))
    exact ⟨kx, by simp only [seedFrom]; rw [h1, Run.ok_bind, k1], k2⟩

/-- `seed()` (R129) ends, and leaves a tree with slot 0, that of CUR = 4096, empty. -/
theorem seed_ok (w : Window) : ∃ ix', seedFrom w 4095 1 .cleared = .ok ix' ∧ ix'.TreeShape ∧
    ix'.parent (slotOf 4096) = .nil :=
  seedFrom_ok w 4095 1 .cleared .cleared (by omega) (by omega) (by simp)

/-! ## The window's bytes are all that matters -/

/-- Two windows with the same bytes and the same length. -/
structure Window.Same (w v : Window) : Prop where
  byte : ∀ p, w.byte p = v.byte p
  inLen : w.inLen = v.inLen

namespace Window.Same

variable {w v : Window}

theorem cmpFrom (h : w.Same v) (a b rem : Nat) : ∀ m, cmpFrom w a b rem m = cmpFrom v a b rem m := by
  induction rem with
  | zero => intro m; rfl
  | succ rem ih => intro m; simp only [Machine.cmpFrom, h.byte, ih]

theorem cmpKey (h : w.Same v) (a b n : Nat) : cmpKey w a b n = cmpKey v a b n := h.cmpFrom a b n 0

theorem descend (h : w.Same v) (cur p : Nat) (ix : Index) (fuel : Nat) :
    ∀ q, descend w cur p ix fuel q = descend v cur p ix fuel q := by
  induction fuel with
  | zero => intro q; rfl
  | succ fuel ih => intro q; simp only [Machine.descend, h.cmpKey, ih]

theorem insert (h : w.Same v) (cur p : Nat) (ix : Index) : insert w cur p ix = insert v cur p ix := by
  simp only [Machine.insert, h.descend]

theorem searchFrom (h : w.Same v) (cur lim : Nat) (ix : Index) (fuel : Nat) :
    ∀ q best, searchFrom w cur lim ix fuel q best = searchFrom v cur lim ix fuel q best := by
  induction fuel with
  | zero => intro q best; cases q <;> rfl
  | succ fuel ih => intro q best; cases q <;> simp only [Machine.searchFrom, h.cmpKey, ih]

theorem findLongestMatch (h : w.Same v) (cur : Nat) (ix : Index) :
    findLongestMatch w cur ix = findLongestMatch v cur ix := by
  simp only [Machine.findLongestMatch, h.searchFrom, h.inLen]

theorem advanceIndex (h : w.Same v) (count : Nat) : ∀ c ix,
    advanceIndex w count c ix = advanceIndex v count c ix := by
  induction count with
  | zero => intro c ix; rfl
  | succ count ih => intro c ix; simp only [Machine.advanceIndex, h.insert, ih]

theorem seedFrom (h : w.Same v) (count : Nat) : ∀ p ix,
    seedFrom w count p ix = seedFrom v count p ix := by
  induction count with
  | zero => intro p ix; rfl
  | succ count ih => intro p ix; simp only [Machine.seedFrom, h.insert, ih]

end Window.Same

/-- A window byte read from the state (R67). -/
theorem State.window_byte (s : State) (p : Nat) : s.window.byte p =
    if p < 4096 then 0 else if p < 4096 + s.inLen.toNat then s.inMem.read (p - 4096) else 0 := rfl

/-- States that agree on IN_LEN and on IN below it have the same window (R67). -/
theorem State.window_same {s r : State} (hl : s.inLen = r.inLen)
    (hm : ∀ a, a < s.inLen.toNat → s.inMem.read a = r.inMem.read a) : s.window.Same r.window := by
  refine ⟨fun p => ?_, by simp only [State.window, hl]⟩
  rw [State.window_byte, State.window_byte, ← hl]
  by_cases h1 : p < 4096
  · rw [if_pos h1, if_pos h1]
  · by_cases h2 : p < 4096 + s.inLen.toNat
    · rw [if_neg h1, if_neg h1, if_pos h2, if_pos h2]
      exact hm (p - 4096) (by omega)
    · rw [if_neg h1, if_neg h1, if_neg h2, if_neg h2]

/-! ## Storage -/

/-- The arena is in canonical form and lists no slot outside it. -/
def Index.Stored (ix : Index) : Prop :=
  Cells.wf Node.empty ix.arena ∧ ∀ c ∈ ix.arena, c.1 < 4096

namespace Index.Stored

variable {ix ix' : Index}

theorem cleared : Index.cleared.Stored := ⟨⟨List.Pairwise.nil, by simp [Index.cleared]⟩, by simp [Index.cleared]⟩

theorem setNode (h : ix.Stored) (s : Slot) (n : Node) : (ix.setNode s n).Stored :=
  ⟨Cells.wf_write _ _ _ _ h.1, fun c hc => by
    rcases Cells.mem_write _ _ _ _ _ hc with rfl | hc
    · exact s.isLt
    · exact h.2 c hc⟩

theorem setParent (h : ix.Stored) (s : Slot) (l : Link) : (ix.setParent s l).Stored := h.setNode _ _
theorem setLeft (h : ix.Stored) (s : Slot) (l : Link) : (ix.setLeft s l).Stored := h.setNode _ _
theorem setRight (h : ix.Stored) (s : Slot) (l : Link) : (ix.setRight s l).Stored := h.setNode _ _
theorem clear (h : ix.Stored) (s : Slot) : (ix.clear s).Stored := h.setNode _ _
theorem setRoot (h : ix.Stored) (l : Link) : (ix.setRoot l).Stored := h

theorem reparent (h : ix.Stored) {l p : Link} (e : reparent l p ix = .ok ix') : ix'.Stored := by
  cases l with
  | nil => cases e; exact h
  | rootMark => cases e
  | slot c => cases e; exact h.setParent _ _

theorem replaceChild (h : ix.Stored) {x : Slot} {y : Link} (e : replaceChild x y ix = .ok ix') :
    ix'.Stored := by
  unfold Sys2Proof.Machine.replaceChild at e
  split at e
  · cases e
  · exact (h.setRoot y).reparent e
  · split at e
    · exact (h.setLeft _ _).reparent e
    · exact (h.setRight _ _).reparent e

theorem attach (h : ix.Stored) {s : Slot} {p : Place} (e : attach s p ix = .ok ix') : ix'.Stored := by
  cases p with
  | equal q =>
    simp only [Sys2Proof.Machine.attach, replaceNode] at e
    obtain ⟨a, ha, e⟩ := Run.bind_ok e
    obtain ⟨b, hb, e⟩ := Run.bind_ok e
    obtain ⟨c, hc, e⟩ := Run.bind_ok e
    cases e
    exact ((((h.setNode s _).reparent ha).reparent hb).replaceChild hc).clear q
  | left q => cases e; exact (h.setLeft _ _).setParent _ _
  | right q => cases e; exact (h.setRight _ _).setParent _ _

theorem insert (h : ix.Stored) {w : Window} {cur p : Nat} (e : insert w cur p ix = .ok ix') :
    ix'.Stored := by
  have h' := (h.setLeft (slotOf p) .nil).setRight (slotOf p) .nil
  unfold Sys2Proof.Machine.insert at e
  simp only at e
  split at e
  · cases e; exact (h'.setRoot _).setParent _ _
  · cases e
  · obtain ⟨place, _, e⟩ := Run.bind_ok e
    exact h'.attach e

theorem removeTwo (h : ix.Stored) {s r : Slot} (e : removeTwo s r ix = .ok ix') : ix'.Stored := by
  unfold Sys2Proof.Machine.removeTwo at e
  obtain ⟨y, _, e⟩ := Run.bind_ok e
  obtain ⟨a, ha, e⟩ := Run.bind_ok e
  obtain ⟨b, hb, e⟩ := Run.bind_ok e
  have hA : a.Stored := by
    unfold detach at ha
    split at ha
    · cases ha; exact h
    · obtain ⟨c, hc, ha⟩ := Run.bind_ok ha
      exact ((h.replaceChild hc).setRight _ _).reparent ha
  exact ((hA.setLeft _ _).reparent hb).replaceChild e

theorem remove (h : ix.Stored) {s : Slot} (e : remove s ix = .ok ix') : ix'.Stored := by
  unfold Sys2Proof.Machine.remove at e
  obtain ⟨a, ha, e⟩ := Run.bind_ok e
  cases e
  refine clear ?_ s
  unfold unlink at ha
  split at ha
  · exact h.replaceChild ha
  · exact h.replaceChild ha
  · exact h.replaceChild ha
  · exact h.removeTwo ha
  · cases ha

theorem advanceIndex (w : Window) (count : Nat) : ∀ (c : Nat) (ix ix' : Index), ix.Stored →
    advanceIndex w count c ix = .ok ix' → ix'.Stored := by
  induction count with
  | zero => intro c ix ix' h e; cases e; exact h
  | succ count ih =>
    intro c ix ix' h e
    simp only [Sys2Proof.Machine.advanceIndex] at e
    obtain ⟨a, ha, e⟩ := Run.bind_ok e
    obtain ⟨b, hb, e⟩ := Run.bind_ok e
    have hA : a.Stored := by
      unfold retire at ha
      split at ha
      · cases ha; exact h
      · exact h.remove ha
    exact ih _ _ _ (hA.insert hb) e

theorem seedFrom (w : Window) (count : Nat) : ∀ (p : Nat) (ix ix' : Index), ix.Stored →
    seedFrom w count p ix = .ok ix' → ix'.Stored := by
  induction count with
  | zero => intro p ix ix' h e; cases e; exact h
  | succ count ih =>
    intro p ix ix' h e
    simp only [Sys2Proof.Machine.seedFrom] at e
    obtain ⟨b, hb, e⟩ := Run.bind_ok e
    exact ih _ _ _ (h.insert hb) e

end Index.Stored

end Sys2Proof.Machine
end

