-- ==== Sys2Proof/Laws/Run.lean ====
section
/-! SUPPORT. Laws/Run.lean: what the shared operations of Ops.lean can do, one inversion lemma each, and the
dispatch of a command (R200). -/

namespace Sys2Proof.Machine

namespace State

variable {s t : State}

theorem writeOut_ok {a : Nat} (v : Byte) (h : a < s.outCap.toNat) :
    s.writeOut a v = .ok { s with outMem := s.outMem.write a v } := by
  simp [writeOut, h]

theorem writeOut_inv {a : Nat} {v : Byte} (h : s.writeOut a v = .ok t) :
    a < s.outCap.toNat ∧ t = { s with outMem := s.outMem.write a v } := by
  unfold writeOut at h
  split at h
  · rename_i ha; cases h; exact ⟨ha, rfl⟩
  · cases h

theorem emit_ok (v : Byte) (h : s.outLen.toNat < s.outCap.toNat) : s.emit v = .ok (s.emitted v) := by
  simp only [emit, writeOut_ok v h]; rfl

theorem emit_inv {v : Byte} (h : s.emit v = .ok t) :
    s.outLen.toNat < s.outCap.toNat ∧ t = s.emitted v := by
  obtain ⟨u, hu, h⟩ := Run.bind_ok h
  obtain ⟨ha, rfl⟩ := writeOut_inv hu
  cases h
  exact ⟨ha, rfl⟩

/-- OUT_LEN counts up without wrapping below a capacity. -/
theorem emitted_outLen_toNat (v : Byte) (h : s.outLen.toNat < s.outCap.toNat) :
    (s.emitted v).outLen.toNat = s.outLen.toNat + 1 := by
  have := s.outCap.isLt
  have one : (1 : Word).toNat = 1 := rfl
  simp only [emitted_outLen, BitVec.toNat_add, one]
  omega

theorem writeOutBytes_ok (bytes : List Byte) : ∀ (s : State) (a : Nat),
    a + bytes.length ≤ s.outCap.toNat →
    s.writeOutBytes a bytes = .ok { s with outMem := s.outMem.writeBytes a bytes } := by
  induction bytes with
  | nil => intro s a _; rfl
  | cons v rest ih =>
    intro s a h
    simp only [List.length_cons] at h
    simp only [writeOutBytes, writeOut_ok v (show a < s.outCap.toNat by omega), Run.ok_bind]
    rw [ih _ _ (by simp only; omega)]
    rfl

theorem writeOutBytes_inv (bytes : List Byte) : ∀ (s t : State) (a : Nat),
    s.writeOutBytes a bytes = .ok t →
    (bytes = [] ∨ a + bytes.length ≤ s.outCap.toNat) ∧
      t = { s with outMem := s.outMem.writeBytes a bytes } := by
  induction bytes with
  | nil => intro s t a h; cases h; exact ⟨.inl rfl, rfl⟩
  | cons v rest ih =>
    intro s t a h
    simp only [writeOutBytes] at h
    obtain ⟨u, hu, h⟩ := Run.bind_ok h
    obtain ⟨ha, rfl⟩ := writeOut_inv hu
    obtain ⟨hb, rfl⟩ := ih _ _ _ h
    refine ⟨.inr ?_, rfl⟩
    rcases hb with rfl | hb
    · simp; omega
    · simp only [List.length_cons] at hb ⊢; omega

theorem readIn_ok {a : Nat} (h : a < s.inCap.toNat) : s.readIn a = .ok (s.inMem.read a) := by
  simp [readIn, h]

theorem readIn_inv {a : Nat} {v : Byte} (h : s.readIn a = .ok v) :
    a < s.inCap.toNat ∧ v = s.inMem.read a := by
  unfold readIn at h
  split at h
  · rename_i ha; cases h; exact ⟨ha, rfl⟩
  · cases h

/-- The first check of the commands that read IN (R218): an error, or the part. -/
theorem checkInput_inv {part : Run State} (h : s.checkInput part = .ok t) :
    t = s.raise .allocationFailure s.inLen ∨ s.inLen.toNat ≤ s.inCap.toNat ∧ part = .ok t := by
  unfold checkInput at h
  split at h
  · cases h; exact .inl rfl
  · exact .inr ⟨by omega, h⟩

theorem checkInput_ok (part : Run State) (h : s.inLen.toNat ≤ s.inCap.toNat) :
    s.checkInput part = part := by
  simp [checkInput, Nat.not_lt.2 h]

end State

/-- The bytes a list leaves in memory: those from its start address on, the rest as before. -/
theorem Memory.read_writeBytes (bytes : List Byte) : ∀ (m : Memory) (a b : Nat),
    (m.writeBytes a bytes).read b =
      if a ≤ b ∧ b < a + bytes.length then bytes.getD (b - a) 0 else m.read b := by
  induction bytes with
  | nil => intro m a b; simp only [writeBytes, List.length_nil]; split <;> [omega; rfl]
  | cons v rest ih =>
    intro m a b
    simp only [writeBytes, ih, Memory.read_write, List.length_cons]
    by_cases hb : b = a
    · subst hb; simp
    · by_cases h : a + 1 ≤ b ∧ b < a + 1 + rest.length
      · rw [if_pos h, if_pos (by omega), show b - a = (b - (a + 1)) + 1 by omega]; rfl
      · rw [if_neg h, if_neg hb, if_neg (by omega)]

theorem Memory.wf_writeBytes (bytes : List Byte) : ∀ (m : Memory) (a : Nat), m.wf →
    (m.writeBytes a bytes).wf := by
  induction bytes with
  | nil => intro m a h; exact h
  | cons v rest ih => intro m a h; exact ih _ _ (Memory.wf_write _ _ _ h)

theorem Memory.bound_writeBytes (cap : Nat) (bytes : List Byte) : ∀ (m : Memory) (a : Nat),
    a + bytes.length ≤ cap → (∀ c ∈ m, c.1 < cap) → ∀ c ∈ m.writeBytes a bytes, c.1 < cap := by
  induction bytes with
  | nil => intro m a _ h; exact h
  | cons v rest ih =>
    intro m a hl h
    simp only [List.length_cons] at hl
    exact ih _ _ (by omega) (Memory.bound_write _ _ _ _ (by omega) h)

/-! ## Dispatch -/

/-- What a dispatched command can do when it goes on (R200, R201): be refused, raise one of the two
dispatch errors, or run its body. -/
theorem dispatch_cases {w : Word} {body : State → Run State} {s t : State}
    (h : dispatch w body s = .next t) :
    (s.err ≠ .none ∧ w ≠ 0 ∧ w ≠ 1 ∧ t = s.dropped.endActivity) ∨
    ((s.err = .none ∨ w = 0 ∨ w = 1) ∧ illegalWord w = true ∧
      t = (s.raise .illegalCommand w).endActivity) ∨
    ((s.err = .none ∨ w = 0 ∨ w = 1) ∧ allowed (w.extractLsb' 0 8) s.mode = false ∧
      t = (s.raise .sequence w).endActivity) ∨
    ((s.err = .none ∨ w = 0 ∨ w = 1) ∧ illegalWord w = false ∧
      allowed (w.extractLsb' 0 8) s.mode = true ∧ ∃ u, body s = .ok u ∧ t = u.endActivity) := by
  unfold dispatch at h
  split at h
  · rename_i h1; cases h; exact .inl ⟨h1.1, h1.2.1, h1.2.2, rfl⟩
  · rename_i h1
    have hp : s.err = .none ∨ w = 0 ∨ w = 1 := by
      by_contra hc; simp only [not_or] at hc; exact h1 hc
    split at h
    · rename_i h2; cases h; exact .inr (.inl ⟨hp, h2, rfl⟩)
    · rename_i h2
      split at h
      · rename_i h3; cases h; exact .inr (.inr (.inl ⟨hp, h3, rfl⟩))
      · rename_i h3
        split at h
        · rename_i u hu
          cases h
          exact .inr (.inr (.inr ⟨hp, by simpa using h2, by simpa using h3, u, hu, rfl⟩))
        · cases h

/-- A legal command that the mode allows, with no error pending, runs its body. -/
theorem dispatch_next {w : Word} {body : State → Run State} {s u : State} (he : s.err = .none)
    (hw : illegalWord w = false) (ha : allowed (w.extractLsb' 0 8) s.mode = true)
    (hb : body s = .ok u) : dispatch w body s = .next u.endActivity := by
  simp [dispatch, he, hw, ha, hb]

/-- A dispatched command faults only through its body. -/
theorem dispatch_fault {w : Word} {body : State → Run State} {s : State} {f : Fault}
    (h : dispatch w body s = .fault f) :
    (s.err = .none ∨ w = 0 ∨ w = 1) ∧ allowed (w.extractLsb' 0 8) s.mode = true ∧
      body s = .error f := by
  unfold dispatch at h
  split at h
  · cases h
  · rename_i h1
    split at h
    · cases h
    · split at h
      · cases h
      · rename_i h3
        split at h
        · cases h
        · rename_i f' hf
          cases h
          refine ⟨?_, by simpa using h3, hf⟩
          by_contra hc; simp only [not_or] at hc; exact h1 hc

end Sys2Proof.Machine
end

