-- ==== Sys2Proof/Laws/Inv.lean ====
section
/-! SUPPORT. Laws/Inv.lean: the invariant under the plain updates of the state. -/

namespace Sys2Proof.Machine.State

variable {s t : State}

/-- The fields the invariant speaks of are the same. -/
structure SameCore (s t : State) : Prop where
  inCap : t.inCap = s.inCap
  outCap : t.outCap = s.outCap
  inMem : t.inMem = s.inMem
  outMem : t.outMem = s.outMem
  index : t.index = s.index
  cur : t.cur = s.cur
  err : t.err = s.err
  mode : t.mode = s.mode
  inLen : t.inLen = s.inLen
  outLen : t.outLen = s.outLen
  encCnt : t.encCnt = s.encCnt
  encGptr : t.encGptr = s.encGptr
  decU : t.decU = s.decU
  decInPtr : t.decInPtr = s.decInPtr

theorem Inv.of_same (h : s.Inv) (e : SameCore s t) : t.Inv := by
  obtain ⟨e1, e2, e3, e4, e5, e6, e7, e8, e9, e10, e11, e12, e13, e14⟩ := e
  obtain ⟨⟨a1, a2, a3⟩, ⟨b1, b2, b3, b4, b5, b6⟩, ⟨c1, c2, c3⟩, ⟨d1, d2, d3, d4⟩⟩ := h
  refine ⟨⟨?_, ?_, ?_⟩, ⟨?_, ?_, ?_, ?_, ?_, ?_⟩, ⟨?_, ?_, ?_⟩, ⟨?_, ?_, fun hm => ?_, fun hm => ?_⟩⟩
  any_goals simpa only [e1, e2, e3, e4, e5, e6, e7, e8, e9, e10, e11, e12, e13, e14]
  · obtain ⟨f1, f2, f3, f4, f5, f6, f7⟩ := d3 (e8 ▸ hm)
    constructor <;>
      simpa only [State.endPos, e1, e2, e3, e4, e5, e6, e7, e8, e9, e10, e11, e12, e13, e14]
  · obtain ⟨f1, f2, f3, f4, f5⟩ := d4 (e8 ▸ hm)
    constructor <;>
      simpa only [e1, e2, e3, e4, e5, e6, e7, e8, e9, e10, e11, e12, e13, e14]

/-- A state with no run open needs only the bounds of its memories, its window and CUR. -/
theorem Inv.of_idle (hc : t.CapsOk) (hs : t.StorageOk) (hw : t.WindowOk) (hm : t.mode = .idle)
    (hcur : t.cur.toNat ≤ 4096 + t.inCap.toNat) : t.Inv :=
  ⟨hc, hs, hw, ⟨hcur, fun _ => hm, fun e => by simp [hm] at e, fun e => by simp [hm] at e⟩⟩

theorem Inv.raise (h : s.Inv) (c : ErrCode) (i : Word) : (s.raise c i).Inv :=
  .of_idle ⟨h.caps.1, h.caps.2, h.caps.3⟩
    ⟨h.storage.1, h.storage.2, h.storage.3, h.storage.4, h.storage.5, h.storage.6⟩
    ⟨h.window.1, h.window.2, h.window.3⟩ rfl h.run.curCap

theorem Inv.dropped (h : s.Inv) : s.dropped.Inv := h.of_same (by constructor <;> rfl)

theorem Inv.endActivity (h : s.Inv) : s.endActivity.Inv := h.of_same (by constructor <;> rfl)

theorem Inv.recordMatch (h : s.Inv) (m : Nat × Nat) : (s.recordMatch m).Inv :=
  h.of_same (by constructor <;> rfl)

theorem Inv.acknowledge (h : s.Inv) : s.acknowledge.Inv := by
  obtain ⟨⟨a1, a2, a3⟩, ⟨b1, b2, b3, b4, b5, b6⟩, ⟨c1, c2, c3⟩, ⟨d1, d2, d3, d4⟩⟩ := h
  refine ⟨⟨a1, a2, a3⟩, ⟨b1, b2, b3, b4, b5, b6⟩, ⟨c1, c2, c3⟩,
    ⟨d1, fun e => absurd rfl e, fun hm => ?_, fun hm => ?_⟩⟩
  · obtain ⟨f1, f2, f3, f4, f5, f6, f7⟩ := d3 hm
    exact ⟨f1, f2, f3, f4, f5, f6, f7⟩
  · obtain ⟨f1, f2, f3, f4, f5⟩ := d4 hm
    exact ⟨f1, f2, f3, f4, f5⟩

/-- With no run open, the index and CUR may be replaced by any stored tree with the slot of CUR empty. -/
theorem Inv.withIndex (h : s.Inv) (hm : s.mode = .idle) {ix : Index} {cur : Word} (hs : ix.Stored)
    (ht : ix.TreeShape) (hf : ix.parent (slotOf cur.toNat) = .nil) (hl : 4096 ≤ cur.toNat)
    (hc : cur.toNat ≤ 4096 + s.inCap.toNat) : ({ s with index := ix, cur := cur } : State).Inv :=
  .of_idle ⟨h.caps.1, h.caps.2, h.caps.3⟩
    ⟨h.storage.1, h.storage.2, h.storage.3, h.storage.4, hs.1, hs.2⟩ ⟨ht, hl, hf⟩ hm hc

theorem Inv.stored (h : s.Inv) : s.index.Stored := ⟨h.storage.arenaWf, h.storage.arenaBound⟩

/-- `advanceWindow(count)` up to END, from a state whose window is well formed (R128). -/
theorem advanceWindow_ok (hw : s.WindowOk) (hst : s.index.Stored) (hcap : s.inCap.toNat ≤ 2 ^ 31)
    {count : Nat} (hb : s.cur.toNat + count ≤ 4096 + s.inCap.toNat) :
    ∃ ix, advanceIndex s.window count s.cur.toNat s.index = .ok ix ∧
      s.advanceWindow count = .ok { s with index := ix, cur := BitVec.ofNat 32 (s.cur.toNat + count) } ∧
      ix.TreeShape ∧ ix.Stored ∧ ix.parent (slotOf (s.cur.toNat + count)) = .nil ∧
      (BitVec.ofNat 32 (s.cur.toNat + count)).toNat = s.cur.toNat + count := by
  obtain ⟨ix, h1, h2, h3⟩ := advanceIndex_ok s.window count s.cur.toNat s.index hw.shape hw.free
  refine ⟨ix, h1, ?_, h2, Index.Stored.advanceIndex _ _ _ _ _ hst h1, h3, ?_⟩
  · simp [advanceWindow, h1]
  · simp only [BitVec.toNat_ofNat]; omega

/-- `seed()` always ends (R129). -/
theorem seed_state_ok (s : State) : ∃ ix, seedFrom s.window 4095 1 .cleared = .ok ix ∧
    s.seed = .ok { s with index := ix, cur := 0x1000 } ∧ ix.TreeShape ∧ ix.Stored ∧
      ix.parent (slotOf 4096) = .nil := by
  obtain ⟨ix, h1, h2, h3⟩ := seed_ok s.window
  exact ⟨ix, h1, by simp [seed, h1], h2, Index.Stored.seedFrom _ _ _ _ _ .cleared h1, h3⟩

end Sys2Proof.Machine.State
end

