-- ==== Sys2Proof/Laws/Decoder.lean ====
section
/-! SUPPORT. Laws/Decoder.lean: what one decoder step does (R181, R182, R184), and that it keeps the invariant
and stays inside OUT (R63). -/

namespace Sys2Proof.Machine

namespace State

/-- Only OUT and OUT_LEN differ: `n` bytes were appended, the memory stays canonical and in bounds. -/
structure Appended (s : State) (n : Nat) (t : State) : Prop where
  rest : t = { s with outMem := t.outMem, outLen := t.outLen }
  outLen : t.outLen.toNat = s.outLen.toNat + n
  before : ∀ a, a < s.outLen.toNat → t.outMem.read a = s.outMem.read a
  after : ∀ a, s.outLen.toNat + n ≤ a → t.outMem.read a = s.outMem.read a
  wf : s.outMem.wf → t.outMem.wf
  bound : (∀ c ∈ s.outMem, c.1 < s.outCap.toNat) → ∀ c ∈ t.outMem, c.1 < s.outCap.toNat

theorem Appended.zero (s : State) : Appended s 0 s :=
  ⟨rfl, rfl, fun _ _ => rfl, fun _ _ => rfl, id, id⟩

theorem Appended.outCap {s t : State} {n : Nat} (h : Appended s n t) : t.outCap = s.outCap := by
  rw [h.rest]

theorem Appended.trans {s t u : State} {m n : Nat} (h : Appended s m t) (k : Appended t n u) :
    Appended s (m + n) u := by
  refine ⟨?_, ?_, fun a ha => ?_, fun a ha => ?_, fun w => k.wf (h.wf w), fun b => ?_⟩
  · rw [k.rest, h.rest]
  · rw [k.outLen, h.outLen]; omega
  · rw [k.before a (by rw [h.outLen]; omega), h.before a ha]
  · rw [k.after a (by rw [h.outLen]; omega), h.after a (by omega)]
  · have := k.bound (by rw [h.outCap]; exact h.bound b)
    rwa [h.outCap] at this

theorem emit_appended {s : State} (v : Byte) (h : s.outLen.toNat < s.outCap.toNat) :
    Appended s 1 (s.emitted v) ∧ (s.emitted v).outMem.read s.outLen.toNat = v := by
  refine ⟨⟨rfl, emitted_outLen_toNat v h, fun a ha => ?_, fun a ha => ?_,
    fun w => Memory.wf_write _ _ _ w, fun b => Memory.bound_write _ _ _ _ h b⟩, by simp⟩
  · simp only [emitted_outMem, Memory.read_write]; rw [if_neg (by omega)]
  · simp only [emitted_outMem, Memory.read_write]; rw [if_neg (by omega)]

/-- Emitting n zeros (R182). -/
theorem emitZeros_ok (n : Nat) : ∀ {s : State}, s.outLen.toNat + n ≤ s.outCap.toNat →
    ∃ t, emitZeros n s = .ok t ∧ Appended s n t ∧
      ∀ k, k < n → t.outMem.read (s.outLen.toNat + k) = 0 := by
  induction n with
  | zero => intro s _; exact ⟨s, rfl, .zero s, fun k hk => by omega⟩
  | succ n ih =>
    intro s h
    obtain ⟨a1, a2⟩ := emit_appended (s := s) 0 (by omega)
    obtain ⟨t, t1, t2, t3⟩ := ih (s := s.emitted 0) (by rw [a1.outLen, a1.outCap]; omega)
    refine ⟨t, ?_, Nat.add_comm 1 n ▸ a1.trans t2, fun k hk => ?_⟩
    · simp only [emitZeros, emit_ok (s := s) 0 (by omega), Run.ok_bind, t1]
    · rcases k with _ | k
      · rw [Nat.add_zero, t2.before _ (by rw [a1.outLen]; omega)]; exact a2
      · have := t3 k (by omega)
        rw [a1.outLen] at this
        rw [show s.outLen.toNat + (k + 1) = s.outLen.toNat + 1 + k by omega]; exact this

/-- Copying n bytes from r on, below OUT_LEN (R182, R75): each byte is the one `OUT_LEN - r` before it. -/
theorem copyOut_ok (n : Nat) : ∀ {s : State} {r : Nat}, s.outLen.toNat + n ≤ s.outCap.toNat →
    r < s.outLen.toNat → ∃ t, copyOut n r s = .ok t ∧ Appended s n t ∧
      ∀ k, k < n → t.outMem.read (s.outLen.toNat + k) = t.outMem.read (r + k) := by
  induction n with
  | zero => intro s r _ _; exact ⟨s, rfl, .zero s, fun k hk => by omega⟩
  | succ n ih =>
    intro s r h hr
    obtain ⟨a1, a2⟩ := emit_appended (s := s) (s.outMem.read r) (by omega)
    obtain ⟨t, t1, t2, t3⟩ := ih (s := s.emitted (s.outMem.read r)) (r := r + 1)
      (by rw [a1.outLen, a1.outCap]; omega) (by rw [a1.outLen]; omega)
    refine ⟨t, ?_, Nat.add_comm 1 n ▸ a1.trans t2, fun k hk => ?_⟩
    · simp only [copyOut, emit_ok (s := s) _ (show s.outLen.toNat < s.outCap.toNat by omega), Run.ok_bind, t1]
    · rcases k with _ | k
      · rw [Nat.add_zero, Nat.add_zero, t2.before _ (by rw [a1.outLen]; omega), a2,
          t2.before _ (by rw [a1.outLen]; omega), a1.before _ hr]
      · have := t3 k (by omega)
        rw [a1.outLen] at this
        rw [show s.outLen.toNat + (k + 1) = s.outLen.toNat + 1 + k by omega, this]
        congr 1; omega

/-- `copyRef(len, backset)` with backset >= 1 and room in OUT (R182): it appends len bytes, each of them
zero where it lies fewer than backset bytes after the start of OUT, else the byte backset before it. -/
theorem copyRef_ok {s : State} {len backset : Nat} (h : s.outLen.toNat + len ≤ s.outCap.toNat)
    (hb : 1 ≤ backset) :
    ∃ t, copyRef len backset s = .ok t ∧ Appended s len t ∧
      ∀ k, k < len → t.outMem.read (s.outLen.toNat + k) =
        if s.outLen.toNat + k < backset then 0 else t.outMem.read (s.outLen.toNat + k - backset) := by
  by_cases hr : s.outLen.toNat < backset
  · obtain ⟨u, u1, u2, u3⟩ := emitZeros_ok (s := s) (min len (backset - s.outLen.toNat)) (by omega)
    have hz : (if (s.outLen.toNat : Int) - backset < 0 then
        min len (-((s.outLen.toNat : Int) - backset)).toNat else 0) =
        min len (backset - s.outLen.toNat) := by rw [if_pos (by omega)]; omega
    by_cases hl : len ≤ backset - s.outLen.toNat
    · have hm : min len (backset - s.outLen.toNat) = len := by omega
      rw [hm] at u1 u2 u3
      refine ⟨u, ?_, u2, fun k hk => ?_⟩
      · simp only [copyRef, hz, hm, u1, Run.ok_bind, Nat.sub_self]; rfl
      · rw [if_pos (by omega)]; exact u3 k hk
    · have hm : min len (backset - s.outLen.toNat) = backset - s.outLen.toNat := by omega
      rw [hm] at u1 u2 u3
      have hout : u.outLen.toNat = backset := by rw [u2.outLen]; omega
      obtain ⟨t, t1, t2, t3⟩ := copyOut_ok (s := u) (r := 0) (len - (backset - s.outLen.toNat))
        (by rw [hout, u2.outCap]; omega) (by rw [hout]; omega)
      refine ⟨t, ?_, ?_, fun k hk => ?_⟩
      · have h0 : ((s.outLen.toNat : Int) - backset +
            ((backset - s.outLen.toNat : Nat) : Int)).toNat = 0 := by omega
        simp only [copyRef, hz, hm, u1, Run.ok_bind, h0, t1]
      · have := u2.trans t2
        rwa [show backset - s.outLen.toNat + (len - (backset - s.outLen.toNat)) = len by omega] at this
      · split
        · rw [t2.before _ (by rw [hout]; omega)]; exact u3 k (by omega)
        · have := t3 (s.outLen.toNat + k - backset) (by omega)
          rw [hout, show backset + (s.outLen.toNat + k - backset) = s.outLen.toNat + k by omega,
            Nat.zero_add] at this
          exact this
  · have hz : (if (s.outLen.toNat : Int) - backset < 0 then
        min len (-((s.outLen.toNat : Int) - backset)).toNat else 0) = 0 := by rw [if_neg (by omega)]
    obtain ⟨t, t1, t2, t3⟩ := copyOut_ok (s := s) (r := s.outLen.toNat - backset) len h (by omega)
    refine ⟨t, ?_, t2, fun k hk => ?_⟩
    · have h0 : ((s.outLen.toNat : Int) - backset + ((0 : Nat) : Int)).toNat =
          s.outLen.toNat - backset := by omega
      simp only [copyRef, hz, emitZeros, Run.ok_bind, Nat.sub_zero, h0, t1]
    · rw [if_neg (by omega), t3 k hk]; congr 1; omega

/-! ## One item -/

theorem closeStep_eq (c : Cursor) (s : State) :
    closeStep c s = { s with
      decInPtr := BitVec.ofNat 32 c.ptr, decBit := Fin.ofNat 9 (c.bit.val + 1), decCtrl := c.ctrl,
      mode := if s.outLen = s.decU then .idle else s.mode,
      done := if s.outLen = s.decU then true else s.done } := by
  unfold closeStep
  simp only
  split <;> simp

/-- What an item of n output bytes leaves, with the cursor c after it (R184). -/
structure Produced (s : State) (c : Cursor) (n : Nat) (t : State) : Prop where
  rest : t = { s with
    outMem := t.outMem, outLen := t.outLen, decInPtr := BitVec.ofNat 32 c.ptr,
    decBit := Fin.ofNat 9 (c.bit.val + 1), decCtrl := c.ctrl,
    mode := if s.outLen.toNat + n = s.decU.toNat then .idle else s.mode,
    done := if s.outLen.toNat + n = s.decU.toNat then true else s.done }
  outLen : t.outLen.toNat = s.outLen.toNat + n
  before : ∀ a, a < s.outLen.toNat → t.outMem.read a = s.outMem.read a
  after : ∀ a, s.outLen.toNat + n ≤ a → t.outMem.read a = s.outMem.read a
  wf : s.outMem.wf → t.outMem.wf
  bound : (∀ c ∈ s.outMem, c.1 < s.outCap.toNat) → ∀ c ∈ t.outMem, c.1 < s.outCap.toNat

theorem Appended.produced {s t : State} {n : Nat} (h : Appended s n t) (c : Cursor) :
    Produced s c n (closeStep c t) := by
  have hu : t.decU = s.decU := by rw [h.rest]
  have hm : t.mode = s.mode := by rw [h.rest]
  have hd : t.done = s.done := by rw [h.rest]
  have hiff : (t.outLen = t.decU) ↔ s.outLen.toNat + n = s.decU.toNat := by
    rw [← h.outLen, hu, BitVec.toNat_inj]
  rw [closeStep_eq]
  refine ⟨?_, h.outLen, h.before, h.after, h.wf, h.bound⟩
  simp only [hiff, hm, hd]
  rw [h.rest]

/-- An item keeps the invariant, when its cursor stays inside the stream and its output inside DEC_U. -/
theorem Produced.inv {s t : State} {c : Cursor} {n : Nat} (p : Produced s c n t) (h : s.Inv)
    (hm : s.mode = .decoding) (hp : 8 ≤ c.ptr ∧ c.ptr ≤ s.inLen.toNat)
    (hn : s.outLen.toNat + n ≤ s.decU.toNat) : t.Inv := by
  obtain ⟨⟨a1, a2, a3⟩, ⟨b1, b2, b3, b4, b5, b6⟩, ⟨c1, c2, c3⟩, ⟨d1, d2, d3, d4⟩⟩ := h
  obtain ⟨f1, f2, f3, f4, f5⟩ := d4 hm
  have g := p.bound b4
  have k := p.wf b3
  have o := p.outLen
  rw [p.rest] at g k o ⊢
  simp only at o
  have hptr : (BitVec.ofNat 32 c.ptr).toNat = c.ptr := by
    have := s.inLen.isLt
    simp only [BitVec.toNat_ofNat]; omega
  by_cases hc : s.outLen.toNat + n = s.decU.toNat
  · simp only [hc, if_true]
    exact .of_idle ⟨a1, a2, a3⟩ ⟨b1, b2, k, g, b5, b6⟩ ⟨c1, c2, c3⟩ rfl d1
  · simp only [hc, if_false]
    refine ⟨⟨a1, a2, a3⟩, ⟨b1, b2, k, g, b5, b6⟩, ⟨c1, c2, c3⟩, ⟨d1, d2, fun e => ?_, fun _ => ?_⟩⟩
    · simp [hm] at e
    · exact ⟨f1, by simp only; omega, f3, by simp only [hptr]; omega, by simp only [hptr]; omega⟩

theorem literalItem_ok {s : State} (h : s.Inv) (hm : s.mode = .decoding) (c : Cursor) (v : Byte) :
    ∃ t, literalItem c v s = .ok t ∧ Produced s { c with ptr := c.ptr + 1 } 1 t ∧
      t.outMem.read s.outLen.toNat = v := by
  have hd := h.run.decoding hm
  have hroom : s.outLen.toNat < s.outCap.toNat := by have := hd.unfinished; have := hd.fitsOut; omega
  obtain ⟨a1, a2⟩ := emit_appended v hroom
  refine ⟨_, by simp only [literalItem, emit_ok v hroom, Run.ok_bind, Run.pure_eq],
    a1.produced _, ?_⟩
  rw [closeStep_eq]; exact a2

theorem refLength_range (lc : BitVec 4) : 3 ≤ refLength lc ∧ refLength lc ≤ 18 := by
  unfold refLength; omega

/-- A reference item that passes its checks (R184, R182). -/
theorem referenceItem_ok {s : State} (h : s.Inv) (hm : s.mode = .decoding) (c : Cursor)
    (off : BitVec 12) (lc : BitVec 4) (hb : refBackset s.outLen.toNat off ≠ 0)
    (hl : s.outLen.toNat + refLength lc ≤ s.decU.toNat) :
    ∃ t, referenceItem c off lc s = .ok t ∧
      Produced s { c with ptr := c.ptr + 2 } (refLength lc) t ∧
      ∀ k, k < refLength lc → t.outMem.read (s.outLen.toNat + k) =
        if s.outLen.toNat + k < refBackset s.outLen.toNat off then 0
        else t.outMem.read (s.outLen.toNat + k - refBackset s.outLen.toNat off) := by
  have hd := h.run.decoding hm
  obtain ⟨u, u1, u2, u3⟩ := copyRef_ok (s := s) (len := refLength lc)
    (backset := refBackset s.outLen.toNat off) (by have := hd.fitsOut; omega) (by omega)
  refine ⟨closeStep { c with ptr := c.ptr + 2 } u, ?_, u2.produced _, ?_⟩
  · simp only [referenceItem, if_neg hb, if_neg (Nat.not_lt.2 hl), u1, Run.ok_bind, Run.pure_eq]
  · rw [closeStep_eq]; exact u3

/-- What an item can do in an open decode run: raise one of the three stream errors, or produce
(R184, R216, R217, R219). -/
theorem itemAt_cases {s : State} (h : s.Inv) (hm : s.mode = .decoding) (c : Cursor) :
    (∃ e w, itemAt c s = .ok (s.raise e w)) ∨
    ∃ t n k, itemAt c s = .ok t ∧ Produced s { c with ptr := c.ptr + k } n t ∧ 1 ≤ n ∧
      s.outLen.toNat + n ≤ s.decU.toNat ∧ c.ptr + k ≤ s.inLen.toNat := by
  have hd := h.run.decoding hm
  unfold itemAt
  split
  · split
    · exact .inl ⟨_, _, rfl⟩
    · rename_i hx
      obtain ⟨t, t1, t2, _⟩ := literalItem_ok h hm c (s.inMem.read c.ptr)
      refine .inr ⟨t, 1, 1, ?_, t2, Nat.le_refl _, by have := hd.unfinished; omega, by omega⟩
      rw [readIn_ok (by have := hd.fitsIn; omega), Run.ok_bind, t1]
  · split
    · exact .inl ⟨_, _, rfl⟩
    · rename_i hx
      rw [readIn_ok (by have := hd.fitsIn; omega), Run.ok_bind,
        readIn_ok (by have := hd.fitsIn; omega), Run.ok_bind]
      generalize refOff (s.inMem.read c.ptr) (s.inMem.read (c.ptr + 1)) = off
      generalize refLc (s.inMem.read c.ptr) (s.inMem.read (c.ptr + 1)) = lc
      by_cases hb : refBackset s.outLen.toNat off = 0
      · exact .inl ⟨.malformedReference, s.outLen, by simp only [referenceItem, if_pos hb]⟩
      · by_cases hl : s.outLen.toNat + refLength lc ≤ s.decU.toNat
        · obtain ⟨t, t1, t2, _⟩ := referenceItem_ok h hm c off lc hb hl
          exact .inr ⟨t, _, 2, t1, t2, by have := refLength_range lc; omega, hl, by omega⟩
        · exact .inl ⟨.outputOverrun, s.outLen, by
            simp only [referenceItem, if_neg hb, if_pos (Nat.not_le.1 hl)]⟩

/-- What DEC_STEP's body can do in an open decode run (R184): raise an error, or produce a byte or more
inside DEC_U; the invariant is kept. -/
theorem decStepBody_cases {s : State} (h : s.Inv) (hm : s.mode = .decoding) :
    (∃ e w, decStepBody s = .ok (s.raise e w)) ∨
    ∃ t c n, decStepBody s = .ok t ∧ Produced s c n t ∧ 1 ≤ n ∧
      s.outLen.toNat + n ≤ s.decU.toNat ∧ t.Inv := by
  have hd := h.run.decoding hm
  have hcase : ∀ c : Cursor, 8 ≤ c.ptr → decStepBody s = itemAt c s →
      (∃ e w, decStepBody s = .ok (s.raise e w)) ∨
      ∃ t c n, decStepBody s = .ok t ∧ Produced s c n t ∧ 1 ≤ n ∧
        s.outLen.toNat + n ≤ s.decU.toNat ∧ t.Inv := by
    intro c hc he
    rw [he]
    rcases itemAt_cases h hm c with hx | ⟨t, n, k, t1, t2, t3, t4, t5⟩
    · exact .inl hx
    · exact .inr ⟨t, _, n, t1, t2, t3, t4, t2.inv h hm ⟨by simp only; omega, t5⟩ t4⟩
  by_cases h8 : s.decBit = 8
  · by_cases hx : s.decInPtr.toNat ≥ s.inLen.toNat
    · exact .inl ⟨.truncatedStream, s.inLen, by simp only [decStepBody, h8, if_true, if_pos hx]⟩
    · refine hcase ⟨s.decInPtr.toNat + 1, 0, s.inMem.read s.decInPtr.toNat⟩
        (by have := hd.ptrLow; simp only; omega) ?_
      simp only [decStepBody, h8, if_true, if_neg hx]
      rw [readIn_ok (by have := hd.fitsIn; omega)]
      rfl
  · exact hcase s.cursor hd.ptrLow (by simp only [decStepBody, if_neg h8])

/-! ## Whole runs -/

/-- What DEC_START's body leaves when its checks pass (R183). -/
def decStarted (s : State) (c u : Word) : State :=
  { s with
    done := decide (u = 0), decC := c, decU := u, decInPtr := 8, decBit := 8, decCtrl := 0, outLen := 0,
    mode := if u = 0 then .idle else .decoding }

theorem decStarted_inv {s : State} (h : s.Inv) (he : s.err = .none) {c u : Word}
    (hi : s.inLen.toNat ≤ s.inCap.toNat) (h8 : 8 ≤ s.inLen.toNat) (hu : u.toNat ≤ s.outCap.toNat) :
    (s.decStarted c u).Inv := by
  obtain ⟨⟨a1, a2, a3⟩, ⟨b1, b2, b3, b4, b5, b6⟩, ⟨c1, c2, c3⟩, ⟨d1, d2, d3, d4⟩⟩ := h
  unfold decStarted
  by_cases h0 : u = 0
  · simp only [h0, if_true]
    exact .of_idle ⟨a1, a2, a3⟩ ⟨b1, b2, b3, b4, b5, b6⟩ ⟨c1, c2, c3⟩ rfl d1
  · simp only [h0, if_false]
    refine ⟨⟨a1, a2, a3⟩, ⟨b1, b2, b3, b4, b5, b6⟩, ⟨c1, c2, c3⟩,
      ⟨d1, fun e => absurd he e, fun e => (by cases e), fun _ => ⟨hi, ?_, hu, Nat.le_refl 8, h8⟩⟩⟩
    have : u.toNat ≠ 0 := fun e => h0 (BitVec.eq_of_toNat_eq (by simpa using e))
    show 0 < u.toNat
    omega

/-- DEC_START's body when its checks pass (R183). -/
theorem headerBody_ok {s : State} (c u : Word) (hi : s.inLen.toNat ≤ s.inCap.toNat)
    (h8 : 8 ≤ s.inLen.toNat) (hu : u.toNat ≤ s.outCap.toNat) :
    headerBody c u s = .ok (s.decStarted c u) := by
  simp only [headerBody, if_neg (Nat.not_lt.2 hi), if_neg (Nat.not_lt.2 h8), if_neg (Nat.not_lt.2 hu),
    decStarted]
  by_cases h0 : u = 0
  · simp only [h0, if_true, decide_true]
  · simp only [h0, if_false, decide_false]

/-- DEC_START's body: an error, or the run opens (R183). -/
theorem headerBody_cases {s : State} (h : s.Inv) (he : s.err = .none) (c u : Word) :
    (∃ e w, headerBody c u s = .ok (s.raise e w)) ∨
    (headerBody c u s = .ok (s.decStarted c u) ∧ (s.decStarted c u).Inv) := by
  by_cases hi : s.inLen.toNat ≤ s.inCap.toNat
  · by_cases h8 : 8 ≤ s.inLen.toNat
    · by_cases hu : u.toNat ≤ s.outCap.toNat
      · exact .inr ⟨headerBody_ok c u hi h8 hu, decStarted_inv h he hi h8 hu⟩
      · exact .inl ⟨.allocationFailure, u, by
          simp only [headerBody, if_neg (Nat.not_lt.2 hi), if_neg (Nat.not_lt.2 h8),
            if_pos (Nat.not_le.1 hu)]⟩
    · exact .inl ⟨.truncatedStream, s.inLen, by
        simp only [headerBody, if_neg (Nat.not_lt.2 hi), if_pos (Nat.not_le.1 h8)]⟩
  · exact .inl ⟨.allocationFailure, s.inLen, by simp only [headerBody, if_pos (Nat.not_le.1 hi)]⟩

/-- The loop of DECOMPRESS ends with no run open and keeps the invariant (R185). -/
theorem decLoop_ok (fuel : Nat) : ∀ {s : State}, s.Inv →
    (s.mode = .decoding → s.decU.toNat ≤ s.outLen.toNat + fuel) →
    ∃ t, decLoop fuel s = .ok t ∧ t.Inv ∧ t.mode ≠ .decoding := by
  induction fuel with
  | zero =>
    intro s h hf
    refine ⟨s, rfl, h, fun hm => ?_⟩
    have := (h.run.decoding hm).unfinished
    have := hf hm
    omega
  | succ fuel ih =>
    intro s h hf
    unfold decLoop
    split
    · rename_i hm
      rcases decStepBody_cases h hm with ⟨e, w, hb⟩ | ⟨t, c, n, t1, t2, t3, t4, t5⟩
      · obtain ⟨u, u1, u2⟩ := ih (s := s.raise e w) (h.raise e w) (fun hx => by cases hx)
        exact ⟨u, by simp only [hb, Run.ok_bind, u1], u2⟩
      · have hu : t.decU = s.decU := by rw [t2.rest]
        obtain ⟨u, u1, u2⟩ := ih t5 (fun _ => by rw [hu, t2.outLen]; have := hf hm; omega)
        exact ⟨u, by simp only [t1, Run.ok_bind, u1], u2⟩
    · rename_i hm
      exact ⟨s, rfl, h, hm⟩

/-- DECOMPRESS's body ends and keeps the invariant (R185). -/
theorem decompressBody_ok {s : State} (h : s.Inv) (he : s.err = .none) :
    ∃ t, decompressBody s = .ok t ∧ t.Inv := by
  unfold decompressBody decStartBody
  rcases headerBody_cases h he (s.le32 0) (s.le32 4) with ⟨e, w, hb⟩ | ⟨hb, hi⟩
  · obtain ⟨t, t1, t2, _⟩ := decLoop_ok _ (h.raise e w) (fun hx => by cases hx)
    exact ⟨t, by simp only [hb, Run.ok_bind]; exact t1, t2⟩
  · obtain ⟨t, t1, t2, _⟩ := decLoop_ok
      ((s.decStarted (s.le32 0) (s.le32 4)).decU.toNat - (s.decStarted (s.le32 0) (s.le32 4)).outLen.toNat)
      hi (fun _ => by omega)
    exact ⟨t, by simp only [hb, Run.ok_bind]; exact t1, t2⟩

end State

end Sys2Proof.Machine
end

