-- ==== Sys2Proof/Laws/Encoder.lean ====
section
/-! SUPPORT. Laws/Encoder.lean: what one encoder step does (R161, R162), and that it keeps the invariant and
never runs out of OUT (R163, R168). -/

namespace Sys2Proof.Machine

namespace State

/-- What one item leaves (R161). -/
structure ItemDone (s : State) (m : Nat × Nat) (t : State) : Prop where
  cur : t.cur.toNat = s.cur.toNat + itemSpan m
  outLen : t.outLen.toNat = s.itemStart + (s.itemBytes m).length
  cnt : t.encCnt.val = s.itemIndex + 1
  ctrl : t.encCtrl = (if s.encCnt = 8 then 0 else s.encCtrl) |||
    (if 3 ≤ m.1 then 0 else (1 : Byte) <<< s.itemIndex)
  gptr : t.encGptr = if s.encCnt = 8 then s.outLen else s.encGptr
  mem : ∀ a, t.outMem.read a =
    if t.encCnt = 8 ∧ a = t.encGptr.toNat then t.encCtrl
    else if s.itemStart ≤ a ∧ a < s.itemStart + (s.itemBytes m).length then
      (s.itemBytes m).getD (a - s.itemStart) 0
    else if s.encCnt = 8 ∧ a = s.outLen.toNat then 0
    else s.outMem.read a
  index : advanceIndex s.window (itemSpan m) s.cur.toNat s.index = .ok t.index
  rest : t = { s with
    cur := t.cur, index := t.index, outMem := t.outMem, outLen := t.outLen, encCnt := t.encCnt,
    encCtrl := t.encCtrl, encGptr := t.encGptr, matchLen := BitVec.ofNat 5 m.1,
    matchPos := BitVec.ofNat 32 m.2 }

theorem itemIndex_lt (s : State) : s.itemIndex < 8 := by
  unfold itemIndex
  split
  · omega
  · rename_i h
    have := s.encCnt.isLt
    have : s.encCnt.val ≠ 8 := fun e => h (Fin.ext e)
    omega

/-- The state after `readyGroup` when OUT has room. -/
def readied (s : State) : State :=
  if s.encCnt = 8 then
    { ({ s with encGptr := s.outLen } : State).emitted 0 with encCtrl := 0, encCnt := 0 }
  else s

theorem readyGroup_ok {s : State} (h : s.itemStart ≤ s.outCap.toNat) :
    readyGroup s = .ok s.readied := by
  unfold readyGroup readied
  unfold itemStart at h
  split at h
  · rename_i h8
    simp only [h8, if_true, openGroup]
    rw [emit_ok _ (by simp only; omega)]
    rfl
  · rename_i h8
    simp [h8]

/-- The facts of `readied` that the item branches use. -/
theorem readied_facts {s : State} (h : s.itemStart ≤ s.outCap.toNat) :
    s.readied.outLen.toNat = s.itemStart ∧ s.readied.encCnt.val = s.itemIndex ∧
    s.readied.encCtrl = (if s.encCnt = 8 then 0 else s.encCtrl) ∧
    s.readied.encGptr = (if s.encCnt = 8 then s.outLen else s.encGptr) ∧
    (∀ a, s.readied.outMem.read a =
      if s.encCnt = 8 ∧ a = s.outLen.toNat then 0 else s.outMem.read a) ∧
    s.readied = { s with
      outMem := s.readied.outMem, outLen := s.readied.outLen, encCnt := s.readied.encCnt,
      encCtrl := s.readied.encCtrl, encGptr := s.readied.encGptr } := by
  unfold itemStart at h
  unfold readied itemStart itemIndex
  split at h
  · rename_i h8
    simp only [h8, if_true]
    refine ⟨?_, by simp, by simp, by simp, fun a => ?_, by simp [emitted]⟩
    · exact emitted_outLen_toNat (s := { s with encGptr := s.outLen }) 0 (by simp only; omega)
    · simp
  · rename_i h8
    simp [h8]

theorem emitItem_ok {s : State} (hw : s.WindowOk) (hst : s.index.Stored)
    (hcap : s.inCap.toNat ≤ 2 ^ 31) (m : Nat × Nat)
    (hb : s.cur.toNat + itemSpan m ≤ 4096 + s.inCap.toNat)
    (ho : s.outLen.toNat + (s.itemBytes m).length ≤ s.outCap.toNat) :
    ∃ t, emitItem m s = .ok t ∧ t.cur.toNat = s.cur.toNat + itemSpan m ∧
      t.outLen.toNat = s.outLen.toNat + (s.itemBytes m).length ∧
      t.encCtrl = s.encCtrl ||| (if 3 ≤ m.1 then 0 else (1 : Byte) <<< s.encCnt.val) ∧
      t.outMem = s.outMem.writeBytes s.outLen.toNat (s.itemBytes m) ∧
      advanceIndex s.window (itemSpan m) s.cur.toNat s.index = .ok t.index ∧
      t.index.TreeShape ∧ t.index.Stored ∧ t.index.parent (slotOf t.cur.toNat) = .nil ∧
      t = { s with cur := t.cur, index := t.index, outMem := t.outMem, outLen := t.outLen,
                   encCtrl := t.encCtrl } := by
  unfold emitItem
  by_cases h3 : 3 ≤ m.1
  · have hspan : itemSpan m = m.1 := by simp [itemSpan, h3]
    have hbytes : s.itemBytes m = [refByte0 (refOffset s.cur.toNat ((s.cur.toNat : Int) - m.2)),
        refByte1 (refOffset s.cur.toNat ((s.cur.toNat : Int) - m.2)) (refCode m.1)] := by
      simp [itemBytes, h3]
    rw [hspan] at hb ⊢
    rw [hbytes] at ho ⊢
    generalize hb0 : refByte0 (refOffset s.cur.toNat ((s.cur.toNat : Int) - m.2)) = b0 at *
    generalize hb1 : refByte1 (refOffset s.cur.toNat ((s.cur.toNat : Int) - m.2)) (refCode m.1) = b1 at *
    simp only [List.length_cons, List.length_nil] at ho ⊢
    have e0 := emitted_outLen_toNat (s := s) b0 (by omega)
    have e1 := emitted_outLen_toNat (s := s.emitted b0) b1 (by rw [e0]; simp only [emitted_outCap]; omega)
    obtain ⟨ix, i1, i2, i3, i4, i5, i6⟩ := advanceWindow_ok (s := (s.emitted b0).emitted b1)
      ⟨hw.1, hw.2, hw.3⟩ hst hcap (count := m.1) hb
    refine ⟨{ (s.emitted b0).emitted b1 with
      index := ix, cur := BitVec.ofNat 32 (s.cur.toNat + m.1) }, ?_, i6, ?_, ?_, ?_, i1, i3, i4, ?_, rfl⟩
    · simp only [h3, if_true, emitReference]
      rw [hb0, hb1]
      rw [emit_ok _ (by omega), Run.ok_bind, emit_ok _ (by rw [e0]; simp only [emitted_outCap]; omega),
        Run.ok_bind]
      exact i2
    · rw [show ((s.emitted b0).emitted b1).outLen.toNat = s.outLen.toNat + 2 by rw [e1, e0]]
    · simp [h3]
    · simp only [emitted_outMem, Memory.writeBytes, e0]
    · exact (congrArg (fun n => ix.parent (slotOf n)) i6).trans i5
  · have hspan : itemSpan m = 1 := by simp [itemSpan, h3]
    have hbytes : s.itemBytes m = [s.window.byte s.cur.toNat] := by simp [itemBytes, h3]
    rw [hspan] at hb ⊢
    rw [hbytes] at ho ⊢
    generalize hv : s.window.byte s.cur.toNat = v at *
    simp only [List.length_cons, List.length_nil] at ho ⊢
    have e0 := emitted_outLen_toNat (s := s) v (by omega)
    obtain ⟨ix, i1, i2, i3, i4, i5, i6⟩ := advanceWindow_ok
      (s := { s.emitted v with encCtrl := s.encCtrl ||| ((1 : Byte) <<< s.encCnt.val) })
      ⟨hw.1, hw.2, hw.3⟩ hst hcap (count := 1) hb
    refine ⟨{ s.emitted v with
      encCtrl := s.encCtrl ||| ((1 : Byte) <<< s.encCnt.val), index := ix,
      cur := BitVec.ofNat 32 (s.cur.toNat + 1) }, ?_, i6, ?_, ?_, ?_, i1, i3, i4, ?_, rfl⟩
    · simp only [h3, if_false, emitLiteral, hv]
      rw [emit_ok _ (by omega), Run.ok_bind]
      exact i2
    · exact e0
    · simp [h3]
    · rfl
    · exact (congrArg (fun n => ix.parent (slotOf n)) i6).trans i5

/-- The bounds that keep an item inside OUT (R168). -/
theorem item_room {n N g cnt outLen cap span bytes : Nat} (hfit : worstCase N ≤ cap)
    (h1 : outLen + 4096 ≤ 8 + g + n) (h2 : 8 * g + cnt + 4096 ≤ n + 8)
    (hs : bytes ≤ span) (h0 : 1 ≤ span)
    (hN : n + span ≤ 4096 + N) : outLen + (if cnt = 8 then 1 else 0) + bytes ≤ cap := by
  unfold worstCase at hfit
  split <;> omega

theorem itemBytes_length (s : State) (m : Nat × Nat) :
    (s.itemBytes m).length ≤ itemSpan m ∧ 1 ≤ itemSpan m := by
  unfold itemBytes itemSpan
  split
  · simp; omega
  · simp

/-- `encodeItem()` in an open encode run with input left (R161): it ends, does what the rule says, keeps
the invariant and leaves the run open. -/
theorem encodeItem_ok {s : State} (h : s.Inv) (hm : s.mode = .encoding)
    (hc : s.cur.toNat < s.endPos) :
    ∃ m t, findLongestMatch s.window s.cur.toNat s.index = .ok m ∧
      (m = (2, 0) ∨ 3 ≤ m.1 ∧ m.1 ≤ 18 ∧ s.cur.toNat + m.1 ≤ s.endPos ∧
        s.cur.toNat ≤ m.2 + 4095 ∧ m.2 < s.cur.toNat ∧
        ∀ i, i < m.1 → s.window.byte (s.cur.toNat + i) = s.window.byte (m.2 + i)) ∧
      encodeItem s = .ok t ∧ ItemDone s m t ∧ t.Inv ∧ t.mode = .encoding := by
  obtain ⟨m, hf, hmatch⟩ := findLongestMatch_ok h.window.shape s.window h.window.low h.window.free
  have he := h.run.encoding hm
  obtain ⟨g, hg1, hg2⟩ := he.groups
  have hspan : s.cur.toNat + itemSpan m ≤ s.endPos := by
    unfold itemSpan
    rcases hmatch with rfl | ⟨a, b, c, _⟩
    · simp; omega
    · simp only [a, if_true]; exact c
  have hend : s.endPos ≤ 4096 + s.inCap.toNat := by have := he.fitsIn; unfold endPos; omega
  have hb := itemBytes_length s m
  have hidx := s.itemIndex_lt
  have hcase : s.encCnt.val = 8 ∧ s.itemIndex = 0 ∨ s.encCnt.val = s.itemIndex := by
    unfold itemIndex; split
    · rename_i e; exact .inl ⟨by rw [e]; rfl, rfl⟩
    · exact .inr rfl
  have h8 : (s.encCnt = 8) ↔ s.encCnt.val = 8 := ⟨fun e => by rw [e]; rfl, fun e => Fin.ext e⟩
  have hroom : s.itemStart + (s.itemBytes m).length ≤ s.outCap.toNat := by
    have := item_room he.fitsOut hg1 hg2 hb.1 hb.2 hspan
    simpa only [itemStart, h8] using this
  let s0 := s.recordMatch m
  have hst : s0.itemStart ≤ s0.outCap.toNat := by
    show s.itemStart ≤ s.outCap.toNat
    omega
  have hready := readyGroup_ok hst
  obtain ⟨r1, r2, r3, r4, r5, r6⟩ := readied_facts hst
  have hbytes : s0.readied.itemBytes m = s.itemBytes m := by
    rw [r6]; rfl
  obtain ⟨u, u1, u2, u3, u4, u5, u6, u7, u8, u9, u10⟩ := emitItem_ok (s := s0.readied)
    (by rw [r6]; exact ⟨h.window.1, h.window.2, h.window.3⟩) (by rw [r6]; exact h.stored)
    (by rw [r6]; exact h.caps.inHigh) m (by rw [r6]; exact Nat.le_trans hspan hend)
    (by rw [hbytes, r1, r6]; exact hroom)
  have w0 : s0.readied.window = s.window := by rw [r6]; rfl
  have c0 : s0.readied.cur = s.cur := by rw [r6]; rfl
  have x0 : s0.readied.index = s.index := by rw [r6]; rfl
  have o0 : s0.readied.outCap = s.outCap := by rw [r6]; rfl
  rw [c0] at u2; rw [hbytes, r1] at u3; rw [w0, c0, x0] at u6
  rw [r1, hbytes] at u5; rw [r2, r3] at u4
  have ucnt : u.encCnt.val = s.itemIndex := by rw [u10]; exact r2
  have ugp : u.encGptr = if s.encCnt = 8 then s.outLen else s.encGptr := by rw [u10]; exact r4
  have uctl : u.encCtrl = (if s.encCnt = 8 then 0 else s.encCtrl) |||
    (if 3 ≤ m.1 then 0 else (1 : Byte) <<< s.itemIndex) := u4
  have ufull : u = { s with
      cur := u.cur, index := u.index, outMem := u.outMem, outLen := u.outLen, encCnt := u.encCnt,
      encCtrl := u.encCtrl, encGptr := u.encGptr, matchLen := BitVec.ofNat 5 m.1,
      matchPos := BitVec.ofNat 32 m.2 } := by
    rw [u10, r6]; rfl
  have ucap : u.outCap = s.outCap := by rw [ufull]
  have gptr_lt : (if s.encCnt = 8 then s.outLen else s.encGptr).toNat < s.itemStart ∧
      8 ≤ (if s.encCnt = 8 then s.outLen else s.encGptr).toNat := by
    have := he.headerOut
    unfold itemStart
    split
    · exact ⟨by omega, this⟩
    · rename_i hne
      have := he.openGroup (by
        have h9 := s.encCnt.isLt
        have : s.encCnt.val ≠ 8 := fun e => hne (Fin.ext e)
        exact Fin.lt_def.2 (show s.encCnt.val < 8 by omega))
      exact ⟨by omega, this.1⟩
  have memu : ∀ a, u.outMem.read a =
      if s.itemStart ≤ a ∧ a < s.itemStart + (s.itemBytes m).length then
        (s.itemBytes m).getD (a - s.itemStart) 0
      else if s.encCnt = 8 ∧ a = s.outLen.toNat then 0 else s.outMem.read a := by
    intro a; rw [u5, Memory.read_writeBytes, r5]; rfl
  have hcntval : (Fin.ofNat 9 (u.encCnt.val + 1)).val = s.itemIndex + 1 := by
    simp only [Fin.ofNat]; rw [ucnt]; omega
  -- the closed state
  have closed : ∃ t, closeItem u = .ok t ∧ ItemDone s m t := by
    unfold closeItem
    simp only
    split
    · rename_i hfull
      rw [State.writeOut_ok _ (by simp only [ugp, ucap]; omega)]
      refine ⟨_, rfl, ⟨u2, u3, hcntval, uctl, ugp, fun a => ?_, u6, ?_⟩⟩
      · simp only [Memory.read_write, hfull, true_and, memu]
      · simp only; rw [ufull]
    · rename_i hfull
      refine ⟨_, rfl, ⟨u2, u3, hcntval, uctl, ugp, fun a => ?_, u6, ?_⟩⟩
      · simp only [hfull, false_and, if_false, memu]
      · simp only; rw [ufull]
  obtain ⟨t, ht, hd⟩ := closed
  have hmem : t.outMem.wf ∧ ∀ c ∈ t.outMem, c.1 < s.outCap.toNat := by
    have hr : s0.readied.outMem.wf ∧ ∀ c ∈ s0.readied.outMem, c.1 < s.outCap.toNat := by
      unfold readied
      split
      · show (s.outMem.write s.outLen.toNat 0).wf ∧
          ∀ c ∈ s.outMem.write s.outLen.toNat 0, c.1 < s.outCap.toNat
        refine ⟨Memory.wf_write _ _ _ h.storage.outWf, Memory.bound_write _ _ _ _ ?_ h.storage.outBound⟩
        have : s.itemStart = s.outLen.toNat + 1 := by
          unfold itemStart; rw [if_pos (show s.encCnt = 8 by assumption)]
        show s.outLen.toNat < s.outCap.toNat
        omega
      · exact ⟨h.storage.outWf, h.storage.outBound⟩
    have hu : u.outMem.wf ∧ ∀ c ∈ u.outMem, c.1 < s.outCap.toNat := by
      rw [u5]
      exact ⟨Memory.wf_writeBytes _ _ _ hr.1, Memory.bound_writeBytes _ _ _ _ hroom hr.2⟩
    unfold closeItem at ht
    simp only at ht
    split at ht
    · obtain ⟨ha, rfl⟩ := State.writeOut_inv ht
      exact ⟨Memory.wf_write _ _ _ hu.1, Memory.bound_write _ _ _ _ (by rw [← ucap]; exact ha) hu.2⟩
    · cases ht; exact hu
  have hix : t.index = u.index := by
    have := hd.index; rw [u6] at this; exact (Except.ok.inj this).symm
  have hcu : t.cur.toNat = u.cur.toNat := by rw [hd.cur, u2]
  refine ⟨m, t, hf, ?_, ?_, hd, ?_, ?_⟩
  · rcases hmatch with e | e
    · exact .inl e
    · exact .inr e
  · simp only [encodeItem, hf, Run.ok_bind]
    rw [hready, Run.ok_bind, u1, Run.ok_bind, ht]
  · have t1 : t.inCap = s.inCap := by rw [hd.rest]
    have t2 : t.outCap = s.outCap := by rw [hd.rest]
    have t3 : t.inMem = s.inMem := by rw [hd.rest]
    have t4 : t.err = s.err := by rw [hd.rest]
    have t5 : t.mode = .encoding := by rw [hd.rest]; exact hm
    have t6 : t.inLen = s.inLen := by rw [hd.rest]
    have tend : t.endPos = s.endPos := by unfold endPos; rw [t6]
    refine ⟨⟨by rw [t1]; exact h.caps.1, by rw [t1]; exact h.caps.2, by rw [t2]; exact h.caps.3⟩,
      ⟨by rw [t3]; exact h.storage.1, by rw [t3, t1]; exact h.storage.2, hmem.1,
        by rw [t2]; exact hmem.2, by rw [hix]; exact u8.1, by rw [hix]; exact u8.2⟩,
      ⟨by rw [hix]; exact u7, by rw [hd.cur]; have := h.window.low; omega,
        by rw [hix, hcu]; exact u9⟩,
      ⟨by rw [hd.cur, t1]; omega, fun e => by rw [t4] at e; simp [h.run.errIdle e] at hm, fun _ => ?_,
        fun e => by simp [t5] at e⟩⟩
    have hlen := hd.outLen
    have hcnt := hd.cnt
    have hcur := hd.cur
    refine ⟨by rw [t6, t1]; exact he.fitsIn, by rw [t6, t2]; exact he.fitsOut,
      by rw [tend, hcur]; exact hspan, by omega, ?_, by rw [hlen]; unfold itemStart; have := he.headerOut; omega, fun _ => ?_⟩
    · refine ⟨g + (if s.encCnt = 8 then 1 else 0), ?_, ?_⟩
      · rw [hlen, hcur]; unfold itemStart; split <;> omega
      · rw [hcnt, hcur]
        by_cases e8 : s.encCnt = 8
        · have : s.itemIndex = 0 := by simp [itemIndex, e8]
          have := h8.1 e8
          rw [if_pos e8]; omega
        · have : s.itemIndex = s.encCnt.val := by simp [itemIndex, e8]
          rw [if_neg e8]; omega
    · rw [hd.gptr, hlen]; omega
  · rw [hd.rest]; exact hm

/-! ## Starting and closing a run -/

/-- The state ENC_START leaves when its checks pass, with the seeded index (R163). -/
def encStarted (s : State) (ix : Index) : State :=
  { s with
    index := ix, cur := 0x1000, outMem := s.outMem.writeBytes 0 (List.replicate 8 0x00), done := false,
    outLen := 8, encGptr := 0, encCnt := 8, encCtrl := 0, mode := .encoding }

theorem header_room (n : Nat) : 8 ≤ worstCase n := by unfold worstCase; omega

/-- ENC_START's body when both its checks pass (R163). -/
theorem encStartBody_ok {s : State} (h : s.Inv) (he : s.err = .none)
    (hi : s.inLen.toNat ≤ s.inCap.toNat) (ho : worstCase s.inLen.toNat ≤ s.outCap.toNat) :
    ∃ ix, seedFrom s.window 4095 1 .cleared = .ok ix ∧ encStartBody s = .ok (s.encStarted ix) ∧
      (s.encStarted ix).Inv := by
  obtain ⟨ix, i1, i2, i3, i4, i5⟩ := seed_state_ok s
  have h8 := h.caps.outLow
  refine ⟨ix, i1, ?_, ?_⟩
  · simp only [encStartBody, checkInput_ok _ hi, Nat.not_lt.2 ho, if_false, i2, Run.ok_bind]
    rw [writeOutBytes_ok _ _ _ (show 0 + 8 ≤ _ from by simpa using h8)]
    rfl
  · refine ⟨⟨h.caps.1, h.caps.2, h.caps.3⟩, ⟨h.storage.1, h.storage.2,
      Memory.wf_writeBytes _ _ _ h.storage.outWf,
      Memory.bound_writeBytes _ _ _ _ (show 0 + 8 ≤ s.outCap.toNat by omega) h.storage.outBound, i4.1, i4.2⟩,
      ⟨i3, Nat.le_refl 4096, i5⟩,
      ⟨by show 4096 ≤ _; omega, fun e => absurd he e, fun _ => ?_, fun e => by cases e⟩⟩
    have e1 : (s.encStarted ix).cur.toNat = 4096 := rfl
    have e2 : (s.encStarted ix).outLen.toNat = 8 := rfl
    have e3 : (s.encStarted ix).encCnt.val = 8 := rfl
    refine ⟨hi, ho, by unfold endPos; omega, by omega, ⟨0, by omega, by omega⟩, by omega,
      fun hc => absurd hc (by have : (s.encStarted ix).encCnt = 8 := rfl; rw [this]; decide)⟩

/-- ENC_START's body: an ALLOCATION_FAILURE, or the run opens (R163, R218). -/
theorem encStartBody_cases {s : State} (h : s.Inv) (he : s.err = .none) :
    (∃ w, encStartBody s = .ok (s.raise .allocationFailure w)) ∨
    (s.inLen.toNat ≤ s.inCap.toNat ∧ worstCase s.inLen.toNat ≤ s.outCap.toNat ∧
      ∃ ix, seedFrom s.window 4095 1 .cleared = .ok ix ∧ encStartBody s = .ok (s.encStarted ix) ∧
        (s.encStarted ix).Inv) := by
  by_cases hi : s.inLen.toNat ≤ s.inCap.toNat
  · by_cases ho : worstCase s.inLen.toNat ≤ s.outCap.toNat
    · exact .inr ⟨hi, ho, encStartBody_ok h he hi ho⟩
    · refine .inl ⟨BitVec.ofNat 32 (worstCase s.inLen.toNat), ?_⟩
      simp [encStartBody, checkInput_ok _ hi, Nat.not_le.1 ho]
  · refine .inl ⟨s.inLen, ?_⟩
    simp [encStartBody, checkInput, Nat.not_le.1 hi]

/-- What closing a run leaves (R165): a partial group's control byte and the header. -/
structure Closed (s t : State) : Prop where
  rest : t = { s with outMem := t.outMem, mode := .idle, done := true }
  mem : ∀ a, t.outMem.read a =
    if a < 8 then (leBytes s.outLen ++ leBytes s.inLen).getD a 0
    else if s.encCnt < 8 ∧ a = s.encGptr.toNat then s.encCtrl
    else s.outMem.read a

theorem leBytes_length (w : Word) : (leBytes w).length = 4 := rfl

/-- The end of ENC_FINISH and COMPRESS in an open encode run (R165). -/
theorem encClose_ok {s : State} (h : s.Inv) (hm : s.mode = .encoding) :
    ∃ t, encClose s = .ok t ∧ Closed s t ∧ t.Inv := by
  have he := h.run.encoding hm
  have h8 := h.caps.outLow
  have hroom : s.outLen.toNat ≤ s.outCap.toNat := by
    obtain ⟨g, g1, g2⟩ := he.groups
    have := he.fitsOut; have := he.curHigh; have := he.counted
    unfold worstCase at *; unfold endPos at *; omega
  have hg : ∃ m, closeGroup s = .ok { s with outMem := m } ∧
      (∀ a, m.read a = if s.encCnt < 8 ∧ a = s.encGptr.toNat then s.encCtrl else s.outMem.read a) ∧
      m.wf ∧ ∀ c ∈ m, c.1 < s.outCap.toNat := by
    unfold closeGroup
    split
    · rename_i hc
      have hp := he.openGroup hc
      refine ⟨_, writeOut_ok _ (by omega), fun a => ?_, Memory.wf_write _ _ _ h.storage.outWf,
        Memory.bound_write _ _ _ _ (by omega) h.storage.outBound⟩
      simp [hc]
    · rename_i hc
      exact ⟨s.outMem, rfl, fun a => by simp [hc], h.storage.outWf, h.storage.outBound⟩
  obtain ⟨m, m1, m2, m3, m4⟩ := hg
  have hlen : 0 + (leBytes s.outLen ++ leBytes s.inLen).length ≤ s.outCap.toNat := by
    simpa [leBytes] using h8
  refine ⟨{ s with outMem := m.writeBytes 0 (leBytes s.outLen ++ leBytes s.inLen), mode := .idle,
                   done := true }, ?_, ⟨rfl, fun a => ?_⟩, ?_⟩
  · simp only [encClose, m1, Run.ok_bind]
    rw [writeOutBytes_ok _ { s with outMem := m } _ hlen]
    rfl
  · simp only [Memory.read_writeBytes, m2, List.length_append, leBytes_length, Nat.zero_le, true_and,
      Nat.sub_zero, Nat.zero_add]
  · exact .of_idle ⟨h.caps.1, h.caps.2, h.caps.3⟩
      ⟨h.storage.1, h.storage.2, Memory.wf_writeBytes _ _ _ m3,
        Memory.bound_writeBytes _ _ _ _ hlen m4, h.storage.5, h.storage.6⟩
      ⟨h.window.1, h.window.2, h.window.3⟩ rfl h.run.curCap

/-! ## The loop of COMPRESS -/

/-- The fields one item or more may write (R161). -/
def SameButItems (s t : State) : Prop :=
  t = { s with
    cur := t.cur, index := t.index, outMem := t.outMem, outLen := t.outLen, encCnt := t.encCnt,
    encCtrl := t.encCtrl, encGptr := t.encGptr, matchLen := t.matchLen, matchPos := t.matchPos }

theorem ItemDone.same {s t : State} {m : Nat × Nat} (h : ItemDone s m t) : SameButItems s t := by
  have := h.rest
  unfold SameButItems
  rw [this]

theorem SameButItems.trans {s t u : State} (h : SameButItems s t) (k : SameButItems t u) :
    SameButItems s u := by
  unfold SameButItems at *
  rw [k, h]

theorem SameButItems.inLen {s t : State} (h : SameButItems s t) : t.inLen = s.inLen := by rw [h]

theorem SameButItems.inMem {s t : State} (h : SameButItems s t) : t.inMem = s.inMem := by rw [h]

theorem SameButItems.endPos {s t : State} (h : SameButItems s t) : t.endPos = s.endPos := by
  unfold State.endPos; rw [h.inLen]

theorem SameButItems.window {s t : State} (h : SameButItems s t) : t.window = s.window := by
  unfold State.window; rw [h.inLen, h.inMem]

/-- The loop of COMPRESS (R166) ends at CUR = END with the run open and the invariant kept. -/
theorem encLoop_ok (fuel : Nat) : ∀ {s : State}, s.Inv → s.mode = .encoding →
    s.endPos ≤ s.cur.toNat + fuel →
    ∃ t, encLoop fuel s = .ok t ∧ t.Inv ∧ t.mode = .encoding ∧ t.cur.toNat = s.endPos ∧
      SameButItems s t := by
  induction fuel with
  | zero =>
    intro s h hm hf
    have := (h.run.encoding hm).curHigh
    exact ⟨s, rfl, h, hm, by omega, rfl⟩
  | succ fuel ih =>
    intro s h hm hf
    unfold encLoop
    split
    · rename_i hc
      obtain ⟨m, t, _, _, h1, h2, h3, h4⟩ := encodeItem_ok h hm hc
      have hcur := h2.cur
      have := (itemBytes_length s m).2
      have he := h2.same.endPos
      obtain ⟨u, u1, u2, u3, u4, u5⟩ := ih h3 h4 (by omega)
      exact ⟨u, by simp only [h1, Run.ok_bind, u1], u2, u3, by omega, h2.same.trans u5⟩
    · have := (h.run.encoding hm).curHigh
      exact ⟨s, rfl, h, hm, by omega, rfl⟩

/-- The loop writes OUT only below OUT_LEN (R254), and OUT_LEN does not fall. -/
theorem encLoop_beyond (fuel : Nat) : ∀ {s u : State}, s.Inv → s.mode = .encoding →
    encLoop fuel s = .ok u →
    s.outLen.toNat ≤ u.outLen.toNat ∧ ∀ a, u.outLen.toNat ≤ a → u.outMem.read a = s.outMem.read a := by
  induction fuel with
  | zero => intro s u _ _ h; cases h; exact ⟨Nat.le_refl _, fun _ _ => rfl⟩
  | succ fuel ih =>
    intro s u hs hm h
    unfold encLoop at h
    split at h
    · rename_i hc
      obtain ⟨m, t, _, _, h1, h2, h3, h4⟩ := encodeItem_ok hs hm hc
      rw [h1, Run.ok_bind] at h
      obtain ⟨k1, k2⟩ := ih h3 h4 h
      have hl := h2.outLen
      have he := hs.run.encoding hm
      have hgp : t.encGptr.toNat < s.itemStart := by
        rw [h2.gptr]
        unfold itemStart
        split
        · omega
        · rename_i hne
          have h9 := s.encCnt.isLt
          have : s.encCnt.val ≠ 8 := fun e => hne (Fin.ext e)
          have := (he.openGroup (Fin.lt_def.2 (show s.encCnt.val < 8 by omega))).2
          omega
      have hstart : s.outLen.toNat + (if s.encCnt = 8 then 1 else 0) = s.itemStart := rfl
      refine ⟨by split at hstart <;> omega, fun a ha => ?_⟩
      rw [k2 a ha, h2.mem, if_neg (by omega), if_neg (by omega), if_neg]
      rintro ⟨e8, rfl⟩
      rw [if_pos e8] at hstart
      omega
    · cases h; exact ⟨Nat.le_refl _, fun _ _ => rfl⟩

/-! ## Two runs over the same input (R167) -/

/-- Two open encode runs over the same window bytes that have written the same stream. -/
structure SameStream (s r : State) : Prop where
  window : s.window.Same r.window
  cur : s.cur = r.cur
  index : s.index = r.index
  outLen : s.outLen = r.outLen
  encCnt : s.encCnt = r.encCnt
  encCtrl : s.encCtrl = r.encCtrl
  encGptr : s.encGptr = r.encGptr
  bytes : ∀ a, 8 ≤ a → a < s.outLen.toNat → s.outMem.read a = r.outMem.read a

theorem SameStream.item {s r t v : State} {m : Nat × Nat} (h : SameStream s r) (hs : ItemDone s m t)
    (hr : ItemDone r m v) : SameStream t v := by
  have hb : r.itemBytes m = s.itemBytes m := by
    unfold itemBytes
    rw [h.cur, h.window.byte]
  have hx : r.itemIndex = s.itemIndex := by unfold itemIndex; rw [h.encCnt]
  have hst : r.itemStart = s.itemStart := by unfold itemStart; rw [h.encCnt, h.outLen]
  have hcnt : t.encCnt = v.encCnt := Fin.ext (by rw [hs.cnt, hr.cnt, hx])
  have hctl : t.encCtrl = v.encCtrl := by rw [hs.ctrl, hr.ctrl, h.encCnt, h.encCtrl, hx]
  have hgp : t.encGptr = v.encGptr := by rw [hs.gptr, hr.gptr, h.encCnt, h.encGptr, h.outLen]
  refine ⟨?_, ?_, ?_, ?_, hcnt, hctl, hgp, fun a a1 a2 => ?_⟩
  · rw [hs.same.window, hr.same.window]; exact h.window
  · exact BitVec.eq_of_toNat_eq (by rw [hs.cur, hr.cur, h.cur])
  · have i1 := hs.index
    rw [h.window.advanceIndex, h.cur, h.index, hr.index] at i1
    exact (Except.ok.inj i1).symm
  · exact BitVec.eq_of_toNat_eq (by rw [hs.outLen, hr.outLen, hb, hst])
  · have hl := hs.outLen
    rw [hs.mem, hr.mem, hcnt, hgp, hctl, hb, hst, h.encCnt, h.outLen]
    split
    · rfl
    · split
      · rfl
      · split
        · rfl
        · rename_i n2 n3
          refine h.bytes a a1 ?_
          have hstart : s.itemStart = s.outLen.toNat + (if s.encCnt = 8 then 1 else 0) := rfl
          rw [h.encCnt, h.outLen] at hstart
          rw [h.outLen]
          split at hstart
          · rename_i e8
            have : a ≠ r.outLen.toNat := fun e => n3 ⟨e8, e⟩
            omega
          · omega

theorem SameStream.loop (fuel : Nat) : ∀ {s r u x : State}, SameStream s r → s.Inv → r.Inv →
    s.mode = .encoding → r.mode = .encoding → encLoop fuel s = .ok u → encLoop fuel r = .ok x →
    SameStream u x := by
  induction fuel with
  | zero => intro s r u x h _ _ _ _ hu hx; cases hu; cases hx; exact h
  | succ fuel ih =>
    intro s r u x h hs hr hsm hrm hu hx
    have hend : s.endPos = r.endPos := by
      show 4096 + s.window.inLen = 4096 + r.window.inLen
      rw [h.window.inLen]
    unfold encLoop at hu hx
    rw [← hend, ← h.cur] at hx
    split at hu
    · rename_i hc
      rw [if_pos hc] at hx
      obtain ⟨m, t, m1, _, t1, t2, t3, t4⟩ := encodeItem_ok hs hsm hc
      obtain ⟨n, v, n1, _, v1, v2, v3, v4⟩ := encodeItem_ok hr hrm (by rw [← hend, ← h.cur]; exact hc)
      rw [h.window.findLongestMatch, h.cur, h.index, n1] at m1
      obtain rfl := Except.ok.inj m1
      rw [t1, Run.ok_bind] at hu
      rw [v1, Run.ok_bind] at hx
      exact ih (h.item t2 v2) t3 v3 t4 v4 hu hx
    · rename_i hc
      rw [if_neg hc] at hx
      cases hu; cases hx; exact h

/-- COMPRESS's body from what its parts give (R166). -/
theorem compressBody_parts {s v u : State} {r : Run State} {n : Nat} (h1 : encStartBody s = .ok v)
    (h2 : v.mode = .encoding) (hn : v.endPos - v.cur.toNat = n) (h3 : encLoop n v = .ok u)
    (h4 : encClose u = r) : compressBody s = r := by
  simp [compressBody, h1, h2, hn, h3, h4]

/-- COMPRESS's body when its checks pass (R166): the start, the loop to END, and the close. -/
theorem compressBody_ok {s : State} (h : s.Inv) (he : s.err = .none)
    (hi : s.inLen.toNat ≤ s.inCap.toNat) (ho : worstCase s.inLen.toNat ≤ s.outCap.toNat) :
    ∃ ix u t, seedFrom s.window 4095 1 .cleared = .ok ix ∧
      encLoop s.inLen.toNat (s.encStarted ix) = .ok u ∧ (s.encStarted ix).Inv ∧
      u.Inv ∧ u.mode = .encoding ∧ u.cur.toNat = s.endPos ∧ SameButItems (s.encStarted ix) u ∧
      compressBody s = .ok t ∧ Closed u t ∧ t.Inv := by
  obtain ⟨ix, i1, i2, i3⟩ := encStartBody_ok h he hi ho
  have e1 : (s.encStarted ix).cur.toNat = 4096 := rfl
  have e2 : (s.encStarted ix).endPos = 4096 + s.inLen.toNat := by simp only [endPos, encStarted]
  obtain ⟨u, u1, u2, u3, u4, u5⟩ := encLoop_ok s.inLen.toNat i3 rfl (by omega)
  obtain ⟨t, t1, t2, t3⟩ := encClose_ok u2 u3
  refine ⟨ix, u, t, i1, u1, i3, u2, u3, u4, u5,
    compressBody_parts i2 rfl (by omega) u1 t1, t2, t3⟩

end State

end Sys2Proof.Machine
end

