-- ==== Sys2Proof/Laws/Commands.lean ====
section
/-! SUPPORT. Laws/Commands.lean: from a state of the invariant every command ends in a state of the
invariant, with no fault; one lemma per command. -/

namespace Sys2Proof.Machine

open State

variable {s : State}

/-- An outcome that goes on inside the invariant. -/
def Keeps (r : Host.Outcome State Fault Refusal) : Prop := ∃ t, r = .next t ∧ t.Inv

/-- A run part that ends inside the invariant. -/
def KeepsRun (r : Run State) : Prop := ∃ t, r = .ok t ∧ t.Inv

/-- The dispatch of a command keeps the invariant when its body does where the dispatch runs it. -/
theorem dispatch_keeps {w : Word} {body : State → Run State} (h : s.Inv)
    (hb : (w ≠ 0 → w ≠ 1 → s.err = .none) → allowed (w.extractLsb' 0 8) s.mode = true →
      KeepsRun (body s)) : Keeps (dispatch w body s) := by
  unfold dispatch
  split
  · exact ⟨_, rfl, h.dropped.endActivity⟩
  · rename_i h1
    split
    · exact ⟨_, rfl, (h.raise _ _).endActivity⟩
    · split
      · exact ⟨_, rfl, (h.raise _ _).endActivity⟩
      · rename_i h3
        obtain ⟨t, ht, hi⟩ := hb (fun a b => by
          by_contra hc; exact h1 ⟨hc, a, b⟩) (by simpa using h3)
        exact ⟨t.endActivity, by simp only [ht], hi.endActivity⟩

theorem checkInput_keeps {part : Run State} (h : s.Inv)
    (hp : s.inLen.toNat ≤ s.inCap.toNat → KeepsRun part) : KeepsRun (s.checkInput part) := by
  unfold checkInput
  split
  · exact ⟨_, rfl, h.raise _ _⟩
  · exact hp (by omega)

/-- The mode of the commands that IDLE alone allows (R207). -/
theorem allowed_idle {op : Byte} {m : Mode} (h : allowed op m = true)
    (ho : op = 2 ∨ op = 3 ∨ op = 4 ∨ op = 5 ∨ op = 6) : m = .idle := by
  rcases ho with rfl | rfl | rfl | rfl | rfl <;> simpa [allowed] using h

theorem execNop_keeps (h : s.Inv) : Keeps (execNop s) :=
  dispatch_keeps h fun _ _ => ⟨s, rfl, h⟩

theorem execClearErr_keeps (h : s.Inv) : Keeps (execClearErr s) :=
  dispatch_keeps h fun _ _ => ⟨_, rfl, h.acknowledge⟩

theorem execIllegal_keeps (w : Word) (h : s.Inv) : Keeps (execIllegal w s) :=
  dispatch_keeps h fun _ _ => ⟨_, rfl, h.raise _ _⟩

theorem execMfClear_keeps (h : s.Inv) : Keeps (execMfClear s) :=
  dispatch_keeps h fun _ ha => ⟨_, rfl, h.withIndex (allowed_idle ha (by decide)) .cleared
    ⟨fun _ => 0, by constructor <;> simp⟩ (by simp) (Nat.le_refl 4096) (by
      show 4096 ≤ _; omega)⟩

theorem execMfInit_keeps (h : s.Inv) : Keeps (execMfInit s) :=
  dispatch_keeps h fun _ ha => checkInput_keeps h fun _ => by
    obtain ⟨ix, _, i2, i3, i4, i5⟩ := seed_state_ok s
    exact ⟨_, i2, h.withIndex (allowed_idle ha (by decide)) i4 i3 i5 (Nat.le_refl 4096)
      (by show 4096 ≤ _; omega)⟩

/-- A live position is not the one of CUR's own slot (R135, R42). -/
theorem slotOf_live {cur p : Nat} (h1 : cur ≤ p + 4095) (h2 : p + 1 ≤ cur) :
    slotOf p ≠ slotOf cur := by
  rw [Ne, slotOf_eq]; omega

theorem execMfInsert_keeps (h : s.Inv) : Keeps (execMfInsert s) :=
  dispatch_keeps h fun _ ha => checkInput_keeps h fun _ => by
    simp only
    split
    · exact ⟨_, rfl, h.raise _ _⟩
    · rename_i hc
      simp only [not_or, not_not, Bool.not_eq_false] at hc
      obtain ⟨ix, i1, i2, i3, i4⟩ := insert_ok h.window.shape s.window s.cur.toNat s.arg.toNat hc.2
      have hl : s.cur.toNat ≤ s.arg.toNat + 4095 ∧ s.arg.toNat + 1 ≤ s.cur.toNat := by
        simpa [liveRange] using hc.1
      refine ⟨{ s with index := ix }, by simp only [i1, Run.ok_bind, Run.pure_eq], ?_⟩
      exact h.withIndex (allowed_idle ha (by decide)) (h.stored.insert i1) i2
        (i4 _ (Ne.symm (slotOf_live hl.1 hl.2)) h.window.free) h.window.low h.run.curCap

theorem execMfRemove_keeps (h : s.Inv) : Keeps (execMfRemove s) :=
  dispatch_keeps h fun _ ha => by
    simp only [mfRemoveBody]
    split
    · exact ⟨_, rfl, h.raise _ _⟩
    · rename_i hc
      simp only [not_or, Bool.not_eq_false] at hc
      obtain ⟨ix, i1, i2, i3⟩ := remove_ok h.window.shape hc.2
      refine ⟨{ s with index := ix }, by simp only [i1, Run.ok_bind, Run.pure_eq], ?_⟩
      exact h.withIndex (allowed_idle ha (by decide)) (h.stored.remove i1) i2
        ((i3 _).2 (.inr h.window.free)) h.window.low h.run.curCap

theorem execMfAdvance_keeps (h : s.Inv) : Keeps (execMfAdvance s) :=
  dispatch_keeps h fun _ ha => checkInput_keeps h fun hi => by
    split
    · exact ⟨_, rfl, h.raise _ _⟩
    · rename_i hc
      have hb : s.cur.toNat + s.arg.toNat ≤ 4096 + s.inCap.toNat := by
        unfold State.endPos at hc; omega
      obtain ⟨ix, i1, i2, i3, i4, i5, i6⟩ := advanceWindow_ok h.window h.stored h.caps.inHigh hb
      refine ⟨_, i2, h.withIndex (allowed_idle ha (by decide)) i4 i3 (by rw [i6]; exact i5) ?_ ?_⟩
      · rw [i6]; have := h.window.low; omega
      · rw [i6]; exact hb

theorem execMfSearch_keeps (h : s.Inv) : Keeps (execMfSearch s) :=
  dispatch_keeps h fun _ _ => checkInput_keeps h fun _ => by
    obtain ⟨m, hm, _⟩ := findLongestMatch_ok h.window.shape s.window h.window.low h.window.free
    exact ⟨_, by simp only [hm, Run.ok_bind, Run.pure_eq], h.recordMatch m⟩

theorem execMfReadNode_keeps (h : s.Inv) : Keeps (execMfReadNode s) :=
  dispatch_keeps h fun _ _ => by
    unfold mfReadNodeBody
    split
    · exact ⟨_, rfl, h.raise _ _⟩
    · exact ⟨_, rfl, h.of_same (by constructor <;> rfl)⟩

theorem encStartBody_keeps (h : s.Inv) (he : s.err = .none) : KeepsRun (encStartBody s) := by
  rcases encStartBody_cases h he with ⟨w, hb⟩ | ⟨_, _, ix, _, hb, hi⟩
  · exact ⟨_, hb, h.raise _ _⟩
  · exact ⟨_, hb, hi⟩

theorem execEncStart_keeps (h : s.Inv) : Keeps (execEncStart s) :=
  dispatch_keeps h fun he _ => encStartBody_keeps h (he (by decide) (by decide))

theorem execEncStep_keeps (h : s.Inv) : Keeps (execEncStep s) :=
  dispatch_keeps h fun _ ha => by
    have hm : s.mode = .encoding := by simpa [allowed] using ha
    unfold encStepBody
    split
    · exact ⟨_, rfl, h.raise _ _⟩
    · rename_i hc
      rw [if_neg (by have := (h.run.encoding hm).fitsIn; omega)]
      obtain ⟨m, t, _, _, h1, _, h3, _⟩ := encodeItem_ok h hm (by omega)
      exact ⟨t, h1, h3⟩

theorem execEncFinish_keeps (h : s.Inv) : Keeps (execEncFinish s) :=
  dispatch_keeps h fun _ ha => by
    have hm : s.mode = .encoding := by simpa [allowed] using ha
    unfold encFinishBody
    split
    · exact ⟨_, rfl, h.raise _ _⟩
    · obtain ⟨t, t1, _, t3⟩ := encClose_ok h hm
      exact ⟨t, t1, t3⟩

theorem execCompress_keeps (h : s.Inv) : Keeps (execCompress s) :=
  dispatch_keeps h fun he _ => by
    have he := he (by decide) (by decide)
    rcases encStartBody_cases h he with ⟨w, hb⟩ | ⟨hi, ho, _⟩
    · refine ⟨s.raise .allocationFailure w, ?_, h.raise _ _⟩
      simp [compressBody, hb]
    · obtain ⟨ix, u, t, _, _, _, _, _, _, _, t1, _, t3⟩ := compressBody_ok h he hi ho
      exact ⟨t, t1, t3⟩

theorem headerBody_keeps (c u : Word) (h : s.Inv) (he : s.err = .none) :
    KeepsRun (headerBody c u s) := by
  rcases headerBody_cases h he c u with ⟨e, w, hb⟩ | ⟨hb, hi⟩
  · exact ⟨_, hb, h.raise _ _⟩
  · exact ⟨_, hb, hi⟩

theorem execDecStart_keeps (h : s.Inv) : Keeps (execDecStart s) :=
  dispatch_keeps h fun he _ => headerBody_keeps _ _ h (he (by decide) (by decide))

theorem execStreamHeader_keeps (c u : Word) (h : s.Inv) : Keeps (execStreamHeader c u s) :=
  dispatch_keeps h fun he _ => headerBody_keeps _ _ h (he (by decide) (by decide))

theorem execDecStep_keeps (h : s.Inv) : Keeps (execDecStep s) :=
  dispatch_keeps h fun _ ha => by
    have hm : s.mode = .decoding := by simpa [allowed] using ha
    rcases decStepBody_cases h hm with ⟨e, w, hb⟩ | ⟨t, c, n, hb, _, _, _, hi⟩
    · exact ⟨_, hb, h.raise _ _⟩
    · exact ⟨_, hb, hi⟩

theorem execDecompress_keeps (h : s.Inv) : Keeps (execDecompress s) :=
  dispatch_keeps h fun he _ => decompressBody_ok h (he (by decide) (by decide))

/-- A command of the command space keeps the invariant. The stream forms are the decoder's actions on a
given item, whatever stands in IN, and have no place in a run of their own. -/
theorem exec_keeps (h : s.Inv) (i : Instr) (hi : i.space = .command) : Keeps (exec i s) := by
  cases i with
  | nop => exact execNop_keeps h
  | clearErr => exact execClearErr_keeps h
  | mfClear => exact execMfClear_keeps h
  | mfInit => exact execMfInit_keeps h
  | mfInsert => exact execMfInsert_keeps h
  | mfRemove => exact execMfRemove_keeps h
  | mfAdvance => exact execMfAdvance_keeps h
  | mfSearch => exact execMfSearch_keeps h
  | mfReadNode => exact execMfReadNode_keeps h
  | encStart => exact execEncStart_keeps h
  | encStep => exact execEncStep_keeps h
  | encFinish => exact execEncFinish_keeps h
  | compress => exact execCompress_keeps h
  | decStart => exact execDecStart_keeps h
  | decStep => exact execDecStep_keeps h
  | decompress => exact execDecompress_keeps h
  | illegal w => exact execIllegal_keeps w h
  | streamHeader c u => cases hi
  | streamCtrl b => cases hi
  | lit v => cases hi
  | ref off lc => cases hi

end Sys2Proof.Machine
end

