-- ==== Sys2Proof/Laws/Commute.lean ====
section
/-! SUPPORT. Laws/Commute.lean: fields an operation neither reads nor writes do not matter to it. The operations
on OUT commute with a change of the decoder's cursor and of BUSY, and the bodies of the steps with the end of the
activity, so that COMPRESS and DECOMPRESS are their stepped forms (R166, R185). -/

namespace Sys2Proof.Machine

theorem Run.map_bind {α β γ : Type} (x : Run α) (f : α → β) (g : β → Run γ) :
    ((x.map f : Run β) >>= g) = (x >>= fun a => g (f a)) := by cases x <;> rfl

theorem Run.bind_map {α β γ : Type} (x : Run α) (g : α → Run β) (f : β → γ) :
    ((x >>= g).map f : Run γ) = (x >>= fun a => (g a).map f) := by cases x <;> rfl

/-- Two continuations that agree on what a part can give. -/
theorem Run.bind_congr {α β : Type} {x : Run α} {f g : α → Run β} (h : ∀ a, x = .ok a → f a = g a) :
    (x >>= f) = (x >>= g) := by
  cases x with
  | error e => rfl
  | ok a => exact h a rfl

@[simp] theorem Run.map_ok {α β : Type} (a : α) (f : α → β) : ((.ok a : Run α).map f) = .ok (f a) := rfl

@[simp] theorem Run.map_error {α β : Type} (e : Fault) (f : α → β) :
    ((.error e : Run α).map f) = .error e := rfl

namespace State

/-- A change of the state that the operations on OUT neither read nor write. -/
structure Aside (f : State → State) : Prop where
  emitted : ∀ s v, f (s.emitted v) = (f s).emitted v
  outMem : ∀ s, (f s).outMem = s.outMem
  outLen : ∀ s, (f s).outLen = s.outLen
  outCap : ∀ s, (f s).outCap = s.outCap

theorem emit_eq (s : State) (v : Byte) : s.emit v =
    if s.outLen.toNat < s.outCap.toNat then .ok (s.emitted v) else .error .outAddress := by
  unfold emit writeOut
  split <;> rfl

namespace Aside

variable {f : State → State}

theorem emit (h : Aside f) (s : State) (v : Byte) : (f s).emit v = (s.emit v).map f := by
  rw [emit_eq, emit_eq, ← h.emitted s, h.outLen s, h.outCap s]
  split <;> rfl

theorem emitZeros (h : Aside f) (n : Nat) : ∀ s, emitZeros n (f s) = (emitZeros n s).map f := by
  induction n with
  | zero => intro s; rfl
  | succ n ih =>
    intro s
    simp only [Machine.emitZeros, h.emit, Run.map_bind, Run.bind_map, ih]

theorem copyOut (h : Aside f) (n : Nat) : ∀ r s, copyOut n r (f s) = (copyOut n r s).map f := by
  induction n with
  | zero => intro r s; rfl
  | succ n ih =>
    intro r s
    simp only [Machine.copyOut, h.outMem, h.emit, Run.map_bind, Run.bind_map, ih]

theorem copyRef (h : Aside f) (len backset : Nat) (s : State) :
    copyRef len backset (f s) = (copyRef len backset s).map f := by
  simp only [Machine.copyRef, h.outLen, h.emitZeros, Run.map_bind, Run.bind_map, h.copyOut]

end Aside

/-- Another cursor in the registers. -/
def withCursor (p : Word) (b : Fin 9) (c : Byte) (s : State) : State :=
  { s with decInPtr := p, decBit := b, decCtrl := c }

theorem withCursor_aside (p : Word) (b : Fin 9) (c : Byte) : Aside (withCursor p b c) := by
  constructor <;> intros <;> rfl

theorem endActivity_aside : Aside endActivity := by constructor <;> intros <;> rfl

/-! ## The decoder's step and the end of the activity -/

theorem closeStep_endActivity (c : Cursor) (s : State) :
    closeStep c s.endActivity = (closeStep c s).endActivity := by
  rw [closeStep_eq, closeStep_eq]; rfl

theorem literalItem_endActivity (c : Cursor) (v : Byte) (s : State) :
    literalItem c v s.endActivity = (literalItem c v s).map endActivity := by
  simp only [literalItem, endActivity_aside.emit, Run.map_bind, Run.bind_map, Run.pure_eq, Run.map_ok,
    closeStep_endActivity]

theorem referenceItem_endActivity (c : Cursor) (off : BitVec 12) (lc : BitVec 4) (s : State) :
    referenceItem c off lc s.endActivity = (referenceItem c off lc s).map endActivity := by
  simp only [referenceItem, endActivity_outLen, endActivity_decU, endActivity_aside.copyRef, Run.map_bind]
  split
  · rfl
  · split
    · rfl
    · simp only [Run.bind_map, Run.pure_eq, Run.map_ok, closeStep_endActivity]

theorem readIn_endActivity (s : State) (a : Nat) : s.endActivity.readIn a = s.readIn a := rfl

theorem itemAt_endActivity (c : Cursor) (s : State) :
    itemAt c s.endActivity = (itemAt c s).map endActivity := by
  simp only [itemAt, endActivity_inLen, readIn_endActivity, literalItem_endActivity,
    referenceItem_endActivity]
  split
  · split
    · rfl
    · rw [Run.bind_map]
  · split
    · rfl
    · simp only [Run.bind_map]

/-- DEC_STEP's body does not read BUSY. -/
theorem decStepBody_endActivity (s : State) :
    decStepBody s.endActivity = (decStepBody s).map endActivity := by
  simp only [decStepBody, endActivity_decBit, endActivity_decInPtr, endActivity_inLen, readIn_endActivity,
    groupItem, itemAt_endActivity]
  split
  · split
    · rfl
    · rw [Run.bind_map]
  · rfl

/-! ## The encoder's step and the end of the activity -/

theorem writeOut_endActivity (s : State) (a : Nat) (v : Byte) :
    s.endActivity.writeOut a v = (s.writeOut a v).map endActivity := by
  unfold writeOut
  by_cases h : a < s.outCap.toNat
  · rw [if_pos h, if_pos (show a < s.endActivity.outCap.toNat from h)]
    rfl
  · rw [if_neg h, if_neg (show ¬ a < s.endActivity.outCap.toNat from h)]
    rfl

theorem advanceWindow_endActivity (n : Nat) (s : State) :
    s.endActivity.advanceWindow n = (s.advanceWindow n).map endActivity := by
  simp only [advanceWindow, Run.bind_map]
  rfl

theorem readyGroup_endActivity (s : State) : readyGroup s.endActivity = (readyGroup s).map endActivity := by
  unfold readyGroup
  by_cases h : s.encCnt = 8
  · rw [if_pos h, if_pos (show s.endActivity.encCnt = 8 from h), openGroup, openGroup, Run.bind_map]
    rw [show ({ s.endActivity with encGptr := s.endActivity.outLen } : State) =
      ({ s with encGptr := s.outLen } : State).endActivity from rfl, endActivity_aside.emit, Run.map_bind]
    rfl
  · rw [if_neg h, if_neg (show ¬ s.endActivity.encCnt = 8 from h)]
    rfl

theorem emitItem_endActivity (m : Nat × Nat) (s : State) :
    emitItem m s.endActivity = (emitItem m s).map endActivity := by
  simp only [emitItem]
  split
  · simp only [emitReference, endActivity_cur, endActivity_aside.emit, Run.map_bind, Run.bind_map,
      advanceWindow_endActivity]
  · simp only [emitLiteral, endActivity_cur, endActivity_aside.emit, Run.map_bind, Run.bind_map]
    rw [show s.endActivity.window = s.window from rfl]
    refine Run.bind_congr fun a _ => ?_
    rw [← advanceWindow_endActivity]
    rfl

theorem closeItem_endActivity (s : State) : closeItem s.endActivity = (closeItem s).map endActivity := by
  have hc : closeItem s.endActivity =
      let t := { s with encCnt := Fin.ofNat 9 (s.encCnt.val + 1) }
      if t.encCnt = 8 then t.endActivity.writeOut t.encGptr.toNat t.encCtrl else .ok t.endActivity := rfl
  rw [hc, closeItem]
  simp only
  split
  · exact writeOut_endActivity _ _ _
  · rfl

/-- `encodeItem()` does not read BUSY. -/
theorem encodeItem_endActivity (s : State) : encodeItem s.endActivity = (encodeItem s).map endActivity := by
  simp only [encodeItem, Run.bind_map]
  refine Run.bind_congr fun m _ => ?_
  rw [show s.endActivity.recordMatch m = (s.recordMatch m).endActivity from rfl, readyGroup_endActivity,
    Run.map_bind]
  refine Run.bind_congr fun a _ => ?_
  rw [emitItem_endActivity, Run.map_bind]
  exact Run.bind_congr fun b _ => closeItem_endActivity b

theorem writeOutBytes_endActivity (bytes : List Byte) : ∀ (a : Nat) (s : State),
    s.endActivity.writeOutBytes a bytes = (s.writeOutBytes a bytes).map endActivity := by
  induction bytes with
  | nil => intro a s; rfl
  | cons v rest ih =>
    intro a s
    simp only [writeOutBytes, writeOut_endActivity, Run.map_bind, Run.bind_map, ih]

/-- The close of an encode run does not read BUSY. -/
theorem encClose_endActivity (s : State) : encClose s.endActivity = (encClose s).map endActivity := by
  have hg : closeGroup s.endActivity = (closeGroup s).map endActivity := by
    unfold closeGroup
    by_cases h : s.encCnt < 8
    · rw [if_pos h, if_pos (show s.endActivity.encCnt < 8 from h)]
      exact writeOut_endActivity _ _ _
    · rw [if_neg h, if_neg (show ¬ s.endActivity.encCnt < 8 from h)]
      rfl
  simp only [encClose, hg, Run.map_bind, Run.bind_map]
  refine Run.bind_congr fun a _ => ?_
  rw [writeOutBytes_endActivity, Run.map_bind]
  rfl

end State

end Sys2Proof.Machine
end

