-- ==== Sys2Proof/Laws/Registers.lean ====
section
/-! SUPPORT. Laws/Registers.lean: the register views as numbers (R21, R24, R36, R37, R40), and the opcode map's
words. -/

namespace Sys2Proof.Machine

/-- STATUS as a number, field by field (R24). -/
theorem statusWord_number (s : State) : s.statusWord.toNat =
    (if s.engine = .idle then 0 else 1) + 2 * s.done.toNat + 4 * s.mode.number + 16 * s.err.number +
      256 * s.drop.toNat := by
  have hb : ∃ b : Bool, s.busy = b ∧ (if s.engine = .idle then 0 else 1) = b.toNat := by
    unfold State.busy
    cases s.engine with
    | idle => exact ⟨false, rfl, rfl⟩
    | running => exact ⟨true, rfl, rfl⟩
    | resetting => exact ⟨true, rfl, rfl⟩
  obtain ⟨b, h1, h2⟩ := hb
  unfold State.statusWord
  rw [h1, h2]
  cases b <;> cases s.done <;> cases s.mode <;> cases s.err <;> cases s.drop <;> rfl

theorem statusWord_busy (s : State) (h : s.engine = .idle) : s.statusWord.getLsbD 0 = false := by
  have := statusWord_number s
  rw [if_pos h] at this
  rw [BitVec.getLsbD, Nat.testBit_zero, this]
  simp only [decide_eq_false_iff_not]
  omega

/-- ENC_GROUP and DEC_GROUP as numbers (R36, R37). -/
theorem groupWord_number (ctrl : Byte) (cnt : Fin 9) :
    (groupWord ctrl cnt).toNat = 256 * ctrl.toNat + cnt.val := by
  unfold groupWord
  have h : (BitVec.ofNat 8 cnt.val).toNat = cnt.val := by simp only [BitVec.toNat_ofNat]; omega
  rw [BitVec.toNat_append, BitVec.toNat_append, Nat.shiftLeft_eq, Nat.mul_comm,
    ← Nat.two_pow_add_eq_or_of_lt (BitVec.isLt _), h]
  simp

/-- A link's register bits as a number (R40). -/
theorem linkBits_number (l : Link) : (l.bits.setWidth 32).toNat = l.number ∧ l.number < 2 ^ 13 := by
  cases l with
  | nil => exact ⟨rfl, by decide⟩
  | rootMark => exact ⟨rfl, by decide⟩
  | slot s =>
    have := s.isLt
    simp only [Link.bits, Link.number, BitVec.toNat_setWidth, BitVec.toNat_ofNat]
    omega

/-- Each row of R21's table: the register there shows the number the table gives, at an aligned offset. -/
theorem registers_shown (s : State) :
    ∀ row ∈ s.registers, (s.regView row.1).toNat = row.2 ∧ row.1 % 4 = 0 ∧ row.1 ≤ 0x54 := by
  simp only [State.registers, List.cons_append, List.nil_append, List.forall_mem_cons]
  and_intros
  all_goals first
    | rfl
    | decide
    | exact statusWord_number s
    | exact groupWord_number _ _
    | exact (linkBits_number _).1
    | exact List.forall_mem_nil _

/-- What a register shows is the number R21's table gives. -/
theorem regView_number (s : State) (off n : Nat) (h : (off, n) ∈ s.registers) :
    (s.regView off).toNat = n ∧ off % 4 = 0 ∧ off ≤ 0x54 := registers_shown s _ h

/-- A command word is illegal exactly from 16 on (R85, R88). -/
theorem illegalWord_iff (w : Word) : illegalWord w = true ↔ 16 ≤ w.toNat := by
  unfold illegalWord
  simp only [Bool.or_eq_true, bne_iff_ne, ne_eq, decide_eq_true_eq]
  have h1 : (w.extractLsb' 8 24 = 0) ↔ w.toNat / 256 % 2 ^ 24 = 0 := by
    rw [← BitVec.toNat_inj]; simp [BitVec.extractLsb'_toNat, Nat.shiftRight_eq_div_pow]
  have h2 : (w.extractLsb' 0 8).toNat = w.toNat % 256 := by simp [BitVec.extractLsb'_toNat]
  rw [h1, h2]
  have := w.isLt
  omega

/-- A CMD word decodes to an instruction of the command space. -/
theorem decodeCommand_space (w : Word) : (decodeCommand w).space = .command := by
  unfold decodeCommand
  split
  · rfl
  · split <;> rfl

/-- A word below 16 is one of sixteen. -/
theorem small_word {w : Word} (h : w.toNat < 16) :
    ∃ n, n < 16 ∧ w = BitVec.ofNat 32 n := ⟨w.toNat, h, by simp⟩

end Sys2Proof.Machine
end

