-- ==== Sys2Proof/Laws/Frame.lean ====
section
/-! SUPPORT. Laws/Frame.lean: which fields each command's body may write, in any state (R202, R223): if it
answers a state, that state is the old one but for the named fields. -/

namespace Sys2Proof.Machine

namespace State

variable {s t : State}

theorem writeOutBytes_frame {a : Nat} {bytes : List Byte} (h : s.writeOutBytes a bytes = .ok t) :
    t = { s with outMem := t.outMem } := by
  obtain ⟨_, h⟩ := writeOutBytes_inv _ _ _ _ h
  rw [h]

theorem advanceWindow_frame {n : Nat} (h : s.advanceWindow n = .ok t) :
    t = { s with index := t.index, cur := t.cur } := by
  obtain ⟨ix, _, h⟩ := Run.bind_ok h
  cases h
  rfl

theorem seed_frame (h : s.seed = .ok t) : t = { s with index := t.index, cur := 0x1000 } := by
  obtain ⟨ix, _, h⟩ := Run.bind_ok h
  cases h
  rfl

/-- `encodeItem()` writes CUR, the tree, OUT, OUT_LEN, the encoder's group and the match record (R161). -/
theorem encodeItem_frame (h : encodeItem s = .ok t) : SameButItems s t := by
  obtain ⟨m, _, h⟩ := Run.bind_ok h
  obtain ⟨a, ha, h⟩ := Run.bind_ok h
  obtain ⟨b, hb, h⟩ := Run.bind_ok h
  have h1 : SameButItems (s.recordMatch m) a := by
    unfold readyGroup at ha
    split at ha
    · obtain ⟨c, hc, ha⟩ := Run.bind_ok ha
      obtain ⟨_, rfl⟩ := emit_inv hc
      cases ha
      rfl
    · cases ha; rfl
  have h2 : SameButItems a b := by
    unfold emitItem at hb
    split at hb
    · obtain ⟨c, hc, hb⟩ := Run.bind_ok hb
      obtain ⟨d, hd, hb⟩ := Run.bind_ok hb
      obtain ⟨_, rfl⟩ := emit_inv hc
      obtain ⟨_, rfl⟩ := emit_inv hd
      obtain ⟨ix, _, hb⟩ := Run.bind_ok hb
      cases hb
      rfl
    · obtain ⟨c, hc, hb⟩ := Run.bind_ok hb
      obtain ⟨_, rfl⟩ := emit_inv hc
      obtain ⟨ix, _, hb⟩ := Run.bind_ok hb
      cases hb
      rfl
  have h3 : SameButItems b t := by
    unfold closeItem at h
    simp only at h
    split at h
    · obtain ⟨_, rfl⟩ := writeOut_inv h
      rfl
    · cases h; rfl
  have h0 : SameButItems s (s.recordMatch m) := rfl
  exact ((h0.trans h1).trans h2).trans h3

theorem encLoop_frame (fuel : Nat) : ∀ {s t : State}, encLoop fuel s = .ok t → SameButItems s t := by
  induction fuel with
  | zero => intro s t h; cases h; rfl
  | succ fuel ih =>
    intro s t h
    unfold encLoop at h
    split at h
    · obtain ⟨u, hu, h⟩ := Run.bind_ok h
      exact (encodeItem_frame hu).trans (ih h)
    · cases h; rfl

/-- ENC_START's body (R163): ALLOCATION_FAILURE, or an open encode run. -/
theorem encStartBody_frame (h : encStartBody s = .ok t) :
    (∃ w, t = s.raise .allocationFailure w) ∨
    t = { s with
      index := t.index, cur := 0x1000, outMem := t.outMem, done := false, outLen := 8, encGptr := 0,
      encCnt := 8, encCtrl := 0, mode := .encoding } := by
  unfold encStartBody at h
  rcases checkInput_inv h with h | ⟨_, h⟩
  · exact .inl ⟨_, h⟩
  · simp only at h
    split at h
    · cases h; exact .inl ⟨_, rfl⟩
    · obtain ⟨a, ha, h⟩ := Run.bind_ok h
      obtain ⟨b, hb, h⟩ := Run.bind_ok h
      cases h
      refine .inr ?_
      rw [writeOutBytes_frame hb, seed_frame ha]

/-- ENC_STEP's body (R164): SEQUENCE, or an item. -/
theorem encStepBody_frame (h : encStepBody s = .ok t) :
    t = s.raise .sequence 0x0A ∨ SameButItems s t := by
  unfold encStepBody at h
  split at h
  · cases h; exact .inl rfl
  · split at h
    · cases h
    · exact .inr (encodeItem_frame h)

/-- The close of an encode run writes OUT, MODE and DONE (R165). -/
theorem encClose_frame (h : encClose s = .ok t) :
    t = { s with outMem := t.outMem, mode := .idle, done := true } := by
  obtain ⟨a, ha, h⟩ := Run.bind_ok h
  obtain ⟨b, hb, h⟩ := Run.bind_ok h
  cases h
  have h1 : a = { s with outMem := a.outMem } := by
    unfold closeGroup at ha
    split at ha
    · obtain ⟨_, rfl⟩ := writeOut_inv ha; rfl
    · cases ha; rfl
  rw [writeOutBytes_frame hb, h1]

theorem encFinishBody_frame (h : encFinishBody s = .ok t) :
    t = s.raise .sequence 0x0B ∨ t = { s with outMem := t.outMem, mode := .idle, done := true } := by
  unfold encFinishBody at h
  split at h
  · cases h; exact .inl rfl
  · exact .inr (encClose_frame h)

/-- COMPRESS's body (R166): ALLOCATION_FAILURE, or a whole run that ends in IDLE with DONE = 1. -/
theorem compressBody_frame (h : compressBody s = .ok t) :
    (∃ w, t = s.raise .allocationFailure w) ∨
    t = { s with
      index := t.index, cur := t.cur, outMem := t.outMem, outLen := t.outLen, encGptr := t.encGptr,
      encCnt := t.encCnt, encCtrl := t.encCtrl, matchLen := t.matchLen, matchPos := t.matchPos,
      mode := .idle, done := true } := by
  obtain ⟨a, ha, h⟩ := Run.bind_ok h
  rcases encStartBody_frame ha with ⟨w, rfl⟩ | he
  · exact .inl ⟨w, by simpa using h.symm⟩
  · have hm : a.mode = .encoding := by rw [he]
    rw [if_pos hm] at h
    obtain ⟨b, hb, h⟩ := Run.bind_ok h
    refine .inr ?_
    rw [encClose_frame h, encLoop_frame _ hb, he]

/-- DEC_START's body (R183): an error, or a run that is open, or complete at once. -/
theorem headerBody_frame {c u : Word} (h : headerBody c u s = .ok t) :
    (∃ e w, t = s.raise e w ∧ (e = .allocationFailure ∨ e = .truncatedStream)) ∨
    t = s.decStarted c u := by
  unfold headerBody at h
  split at h
  · cases h; exact .inl ⟨_, _, rfl, .inl rfl⟩
  · split at h
    · cases h; exact .inl ⟨_, _, rfl, .inr rfl⟩
    · split at h
      · cases h; exact .inl ⟨_, _, rfl, .inl rfl⟩
      · simp only at h
        refine .inr ?_
        unfold decStarted
        split at h
        · rename_i h0; cases h; simp only [h0, if_true, decide_true]
        · rename_i h0; cases h; simp only [h0, if_false, decide_false]

/-- What one decoder item may write when it raises no error (R184). -/
def SameButDecoder (s t : State) : Prop :=
  t = { s with
    outMem := t.outMem, outLen := t.outLen, decInPtr := t.decInPtr, decBit := t.decBit,
    decCtrl := t.decCtrl, mode := t.mode, done := t.done } ∧
  (t.mode = s.mode ∧ t.done = s.done ∨ t.mode = .idle ∧ t.done = true)

theorem emitZeros_frame (n : Nat) : ∀ {s t : State}, emitZeros n s = .ok t →
    t = { s with outMem := t.outMem, outLen := t.outLen } := by
  induction n with
  | zero => intro s t h; cases h; rfl
  | succ n ih =>
    intro s t h
    obtain ⟨u, hu, h⟩ := Run.bind_ok h
    obtain ⟨_, rfl⟩ := emit_inv hu
    rw [ih h]
    rfl

theorem copyOut_frame (n : Nat) : ∀ {s t : State} {r : Nat}, copyOut n r s = .ok t →
    t = { s with outMem := t.outMem, outLen := t.outLen } := by
  induction n with
  | zero => intro s t r h; cases h; rfl
  | succ n ih =>
    intro s t r h
    obtain ⟨u, hu, h⟩ := Run.bind_ok h
    obtain ⟨_, rfl⟩ := emit_inv hu
    rw [ih h]
    rfl

theorem copyRef_frame {len backset : Nat} (h : copyRef len backset s = .ok t) :
    t = { s with outMem := t.outMem, outLen := t.outLen } := by
  obtain ⟨u, hu, h⟩ := Run.bind_ok h
  rw [copyOut_frame _ h, emitZeros_frame _ hu]

theorem closeStep_frame (c : Cursor) {u : State}
    (h : u = { s with outMem := u.outMem, outLen := u.outLen }) : SameButDecoder s (closeStep c u) := by
  rw [closeStep_eq]
  have hm : u.mode = s.mode := by rw [h]
  have hd : u.done = s.done := by rw [h]
  refine ⟨?_, ?_⟩
  · simp only
    rw [h]
  · simp only [hm, hd]
    split
    · exact .inr ⟨rfl, rfl⟩
    · exact .inl ⟨rfl, rfl⟩

/-- The stream errors of an item. -/
def StreamError (e : ErrCode) : Prop :=
  e = .truncatedStream ∨ e = .malformedReference ∨ e = .outputOverrun

theorem literalItem_frame {c : Cursor} {v : Byte} (h : literalItem c v s = .ok t) :
    SameButDecoder s t := by
  obtain ⟨u, hu, h⟩ := Run.bind_ok h
  obtain ⟨_, rfl⟩ := emit_inv hu
  cases h
  exact closeStep_frame _ rfl

theorem referenceItem_frame {c : Cursor} {off : BitVec 12} {lc : BitVec 4}
    (h : referenceItem c off lc s = .ok t) :
    (∃ e w, t = s.raise e w ∧ StreamError e) ∨ SameButDecoder s t := by
  simp only [referenceItem] at h
  split at h
  · cases h; exact .inl ⟨_, _, rfl, .inr (.inl rfl)⟩
  · split at h
    · cases h; exact .inl ⟨_, _, rfl, .inr (.inr rfl)⟩
    · obtain ⟨u, hu, h⟩ := Run.bind_ok h
      cases h
      exact .inr (closeStep_frame _ (copyRef_frame hu))

theorem itemAt_frame {c : Cursor} (h : itemAt c s = .ok t) :
    (∃ e w, t = s.raise e w ∧ StreamError e) ∨ SameButDecoder s t := by
  unfold itemAt at h
  split at h
  · split at h
    · cases h; exact .inl ⟨_, _, rfl, .inl rfl⟩
    · obtain ⟨v, _, h⟩ := Run.bind_ok h
      exact .inr (literalItem_frame h)
  · split at h
    · cases h; exact .inl ⟨_, _, rfl, .inl rfl⟩
    · obtain ⟨b0, _, h⟩ := Run.bind_ok h
      obtain ⟨b1, _, h⟩ := Run.bind_ok h
      exact referenceItem_frame h

/-- DEC_STEP's body (R184): a stream error, or an item. -/
theorem decStepBody_frame (h : decStepBody s = .ok t) :
    (∃ e w, t = s.raise e w ∧ StreamError e) ∨ SameButDecoder s t := by
  unfold decStepBody at h
  split at h
  · split at h
    · cases h; exact .inl ⟨_, _, rfl, .inl rfl⟩
    · obtain ⟨b, _, h⟩ := Run.bind_ok h
      exact itemAt_frame h
  · exact itemAt_frame h

/-- What a whole decode run may write (R185). -/
def SameButRun (s t : State) : Prop :=
  t = { s with
    outMem := t.outMem, outLen := t.outLen, decInPtr := t.decInPtr, decBit := t.decBit,
    decCtrl := t.decCtrl, decC := t.decC, decU := t.decU, mode := t.mode, done := t.done, err := t.err,
    errInfo := t.errInfo } ∧
  (t.err = s.err ∨ t.err ≠ .none ∧ t.done = false ∧ t.mode = .idle) ∧
  (t.mode = s.mode ∨ t.mode = .idle ∨ t.mode = .decoding)

theorem decLoop_frame (fuel : Nat) : ∀ {s t : State}, decLoop fuel s = .ok t → SameButRun s t := by
  induction fuel with
  | zero => intro s t h; cases h; exact ⟨rfl, .inl rfl, .inl rfl⟩
  | succ fuel ih =>
    intro s t h
    unfold decLoop at h
    split at h
    · obtain ⟨u, hu, h⟩ := Run.bind_ok h
      obtain ⟨k1, k2, k3⟩ := ih h
      rcases decStepBody_frame hu with ⟨e, w, rfl, he⟩ | ⟨hf, hmd⟩
      · have ht : t = s.raise e w := by
          cases fuel with
          | zero => cases h; rfl
          | succ fuel =>
            unfold decLoop at h
            rw [if_neg (by simp)] at h
            cases h
            rfl
        subst ht
        refine ⟨rfl, .inr ⟨?_, rfl, rfl⟩, .inr (.inl rfl)⟩
        rcases he with rfl | rfl | rfl <;> simp
      · have e1 : u.err = s.err := by rw [hf]
        refine ⟨?_, ?_, ?_⟩
        · rw [k1, hf]
        · rw [← e1]; exact k2
        · rcases k3 with k | k
          · rcases hmd with ⟨hm, _⟩ | ⟨hm, _⟩
            · exact .inl (by rw [k, hm])
            · exact .inr (.inl (by rw [k, hm]))
          · exact .inr k
    · cases h; exact ⟨rfl, .inl rfl, .inl rfl⟩

/-- DECOMPRESS's body (R185). -/
theorem decompressBody_frame (h : decompressBody s = .ok t) :
    t = { s with
      outMem := t.outMem, outLen := t.outLen, decInPtr := t.decInPtr, decBit := t.decBit,
      decCtrl := t.decCtrl, decC := t.decC, decU := t.decU, mode := t.mode, done := t.done, err := t.err,
      errInfo := t.errInfo } ∧
    (t.err = s.err ∨ t.err ≠ .none ∧ t.done = false ∧ t.mode = .idle) ∧
    (t.mode = .idle ∨ t.mode = .decoding) := by
  obtain ⟨u, hu, h⟩ := Run.bind_ok h
  obtain ⟨k1, k2, k3⟩ := decLoop_frame _ h
  rcases headerBody_frame hu with ⟨e, w, rfl, he⟩ | rfl
  · have hn : e ≠ .none := by rcases he with rfl | rfl <;> simp
    refine ⟨k1, ?_, ?_⟩
    · rcases k2 with k2 | k2
      · have hl : t = s.raise e w := by
          unfold decLoop at h
          split at h
          · cases h; rfl
          · rw [if_neg (by simp)] at h; cases h; rfl
        subst hl
        exact .inr ⟨hn, rfl, rfl⟩
      · exact .inr k2
    · rcases k3 with k | k | k
      · exact .inl k
      · exact .inl k
      · exact .inr k
  · have e1 : (s.decStarted (s.le32 0) (s.le32 4)).err = s.err := rfl
    refine ⟨k1, by rw [← e1]; exact k2, ?_⟩
    rcases k3 with k | k | k
    · rw [k]; unfold decStarted; simp only; split
      · exact .inl rfl
      · exact .inr rfl
    · exact .inl k
    · exact .inr k

end State

/-! ## Every instruction at once -/

open State

/-- The command word an instruction is dispatched with; the stream forms run under their command (R86). -/
def execWord : Instr → Word
  | .nop => 0x00
  | .clearErr => 0x01
  | .mfClear => 0x02
  | .mfInit => 0x03
  | .mfInsert => 0x04
  | .mfRemove => 0x05
  | .mfAdvance => 0x06
  | .mfSearch => 0x07
  | .mfReadNode => 0x08
  | .encStart => 0x09
  | .encStep => 0x0A
  | .encFinish => 0x0B
  | .compress => 0x0C
  | .decStart => 0x0D
  | .decStep => 0x0E
  | .decompress => 0x0F
  | .illegal w => w
  | .streamHeader _ _ => 0x0D
  | .streamCtrl _ => 0x0E
  | .lit _ => 0x0E
  | .ref _ _ => 0x0E

/-- The body the dispatch runs for an instruction. -/
def execBody : Instr → State → Run State
  | .nop => fun s => .ok s
  | .clearErr => fun s => .ok s.acknowledge
  | .mfClear => fun s => .ok { s with index := .cleared, cur := 0x1000 }
  | .mfInit => fun s => s.checkInput s.seed
  | .mfInsert => mfInsertBody
  | .mfRemove => mfRemoveBody
  | .mfAdvance => mfAdvanceBody
  | .mfSearch => mfSearchBody
  | .mfReadNode => mfReadNodeBody
  | .encStart => encStartBody
  | .encStep => encStepBody
  | .encFinish => encFinishBody
  | .compress => compressBody
  | .decStart => decStartBody
  | .decStep => decStepBody
  | .decompress => decompressBody
  | .illegal w => fun s => .ok (s.raise .illegalCommand w)
  | .streamHeader c u => headerBody c u
  | .streamCtrl b => groupItem b
  | .lit v => fun s => literalItem s.cursor v s
  | .ref off lc => fun s => referenceItem s.cursor off lc s

/-- Every instruction is its body under the dispatch, but for a stream item that is not the next one. -/
theorem exec_dispatch (i : Instr) (s : State) :
    exec i s = dispatch (execWord i) (execBody i) s ∨ exec i s = .refused .itemNotSelected := by
  cases i with
  | streamCtrl b =>
    simp only [exec, execStreamCtrl]
    split
    · exact .inl rfl
    · exact .inr rfl
  | lit v =>
    simp only [exec, execLit]
    split
    · exact .inl rfl
    · exact .inr rfl
  | ref off lc =>
    simp only [exec, execRef]
    split
    · exact .inl rfl
    · exact .inr rfl
  | _ => exact .inl rfl

/-- A command is always its body under the dispatch. -/
theorem exec_command (i : Instr) (s : State) (h : i.space = .command) :
    exec i s = dispatch (execWord i) (execBody i) s := by
  cases i with
  | streamHeader c u => cases h
  | streamCtrl b => cases h
  | lit v => cases h
  | ref off lc => cases h
  | _ => rfl

/-- The word a decoded command is dispatched with is the word it was decoded from (R86). -/
theorem execWord_decode (w : Word) : execWord (decodeCommand w) = w := by
  by_cases h : 16 ≤ w.toNat
  · have := (illegalWord_iff w).2 h
    simp [decodeCommand, this, execWord]
  · obtain ⟨n, hn, rfl⟩ := small_word (w := w) (by omega)
    clear h
    interval_cases n <;> rfl

/-- NOP and CLEAR_ERR are the only instructions dispatched with the words 0 and 1 (R86). -/
theorem execWord_small (i : Instr) (hw : i.wellFormed = true) :
    (execWord i = 0 → i = .nop) ∧ (execWord i = 1 → i = .clearErr) := by
  cases i with
  | nop => exact ⟨fun _ => rfl, fun h => absurd h (by decide)⟩
  | clearErr => exact ⟨fun h => absurd h (by decide), fun _ => rfl⟩
  | illegal w =>
    have hw : illegalWord w = true := hw
    refine ⟨fun h => ?_, fun h => ?_⟩
    all_goals
      simp only [execWord] at h
      rw [h] at hw
      exact absurd hw (by decide)
  | streamHeader c u => exact ⟨fun h => absurd h (show (13 : Word) ≠ 0 by decide),
      fun h => absurd h (show (13 : Word) ≠ 1 by decide)⟩
  | streamCtrl b => exact ⟨fun h => absurd h (show (14 : Word) ≠ 0 by decide),
      fun h => absurd h (show (14 : Word) ≠ 1 by decide)⟩
  | lit v => exact ⟨fun h => absurd h (show (14 : Word) ≠ 0 by decide),
      fun h => absurd h (show (14 : Word) ≠ 1 by decide)⟩
  | ref off lc => exact ⟨fun h => absurd h (show (14 : Word) ≠ 0 by decide),
      fun h => absurd h (show (14 : Word) ≠ 1 by decide)⟩
  | _ => exact ⟨fun h => absurd h (by decide), fun h => absurd h (by decide)⟩

/-- What an instruction can do when it goes on: be refused, raise a dispatch error, or run its body. -/
theorem exec_next {i : Instr} {s t : State} (h : exec i s = .next t) :
    (s.err ≠ .none ∧ execWord i ≠ 0 ∧ execWord i ≠ 1 ∧ t = s.dropped.endActivity) ∨
    (∃ e, e ≠ .none ∧ s.err = .none ∧ t = (s.raise e (execWord i)).endActivity ∧
      (e = .illegalCommand ∧ illegalWord (execWord i) = true ∨
        e = .sequence ∧ allowed ((execWord i).extractLsb' 0 8) s.mode = false)) ∨
    ((s.err = .none ∨ execWord i = 0 ∨ execWord i = 1) ∧ illegalWord (execWord i) = false ∧
      allowed ((execWord i).extractLsb' 0 8) s.mode = true ∧
      ∃ u, execBody i s = .ok u ∧ t = u.endActivity) := by
  rcases exec_dispatch i s with hd | hd
  · rw [hd] at h
    rcases dispatch_cases h with k | ⟨k0, k1, k2⟩ | ⟨k0, k1, k2⟩ | k
    · exact .inl k
    · refine .inr (.inl ⟨_, by simp, ?_, k2, .inl ⟨rfl, k1⟩⟩)
      rcases k0 with k0 | k0 | k0
      · exact k0
      · rw [k0] at k1; exact absurd k1 (by decide)
      · rw [k0] at k1; exact absurd k1 (by decide)
    · refine .inr (.inl ⟨_, by simp, ?_, k2, .inr ⟨rfl, k1⟩⟩)
      rcases k0 with k0 | k0 | k0
      · exact k0
      · rw [k0] at k1; cases hm : s.mode <;> rw [hm] at k1 <;> exact absurd k1 (by decide)
      · rw [k0] at k1; cases hm : s.mode <;> rw [hm] at k1 <;> exact absurd k1 (by decide)
    · exact .inr (.inr k)
  · rw [hd] at h; cases h

/-- ARG, the input, the parameters and the host's side are the same. -/
structure SameInput (s t : State) : Prop where
  arg : t.arg = s.arg
  inLen : t.inLen = s.inLen
  inMem : t.inMem = s.inMem
  inCap : t.inCap = s.inCap
  outCap : t.outCap = s.outCap
  host : t.host = s.host
  readData : t.readData = s.readData
  freeCount : t.freeCount = s.freeCount

theorem SameInput.refl (s : State) : SameInput s s := ⟨rfl, rfl, rfl, rfl, rfl, rfl, rfl, rfl⟩

theorem SameInput.raise (s : State) (e : ErrCode) (w : Word) : SameInput s (s.raise e w) :=
  ⟨rfl, rfl, rfl, rfl, rfl, rfl, rfl, rfl⟩

theorem SameInput.items {s t : State} (h : SameButItems s t) : SameInput s t := by
  rw [h]; exact ⟨rfl, rfl, rfl, rfl, rfl, rfl, rfl, rfl⟩

theorem SameInput.decoder {s t : State} (h : SameButDecoder s t) : SameInput s t := by
  rw [h.1]; exact ⟨rfl, rfl, rfl, rfl, rfl, rfl, rfl, rfl⟩

/-- No body writes ARG, the input, the parameters or the host's side (R23, R27, R34, R62). -/
theorem execBody_sameInput (i : Instr) {s t : State} (h : execBody i s = .ok t) : SameInput s t := by
  cases i with
  | nop => cases h; exact ⟨rfl, rfl, rfl, rfl, rfl, rfl, rfl, rfl⟩
  | clearErr => cases h; exact ⟨rfl, rfl, rfl, rfl, rfl, rfl, rfl, rfl⟩
  | mfClear => cases h; exact ⟨rfl, rfl, rfl, rfl, rfl, rfl, rfl, rfl⟩
  | mfInit =>
    rcases checkInput_inv h with rfl | ⟨_, h⟩
    · exact .raise _ _ _
    · rw [seed_frame h]; constructor <;> rfl
  | mfInsert =>
    rcases checkInput_inv h with rfl | ⟨_, h⟩
    · exact .raise _ _ _
    · split at h
      · cases h; exact .raise _ _ _
      · obtain ⟨ix, _, h⟩ := Run.bind_ok h; cases h; exact ⟨rfl, rfl, rfl, rfl, rfl, rfl, rfl, rfl⟩
  | mfRemove =>
    simp only [execBody, mfRemoveBody] at h
    split at h
    · cases h; exact .raise _ _ _
    · obtain ⟨ix, _, h⟩ := Run.bind_ok h; cases h; exact ⟨rfl, rfl, rfl, rfl, rfl, rfl, rfl, rfl⟩
  | mfAdvance =>
    rcases checkInput_inv h with rfl | ⟨_, h⟩
    · exact .raise _ _ _
    · split at h
      · cases h; exact .raise _ _ _
      · rw [advanceWindow_frame h]; exact ⟨rfl, rfl, rfl, rfl, rfl, rfl, rfl, rfl⟩
  | mfSearch =>
    rcases checkInput_inv h with rfl | ⟨_, h⟩
    · exact .raise _ _ _
    · obtain ⟨m, _, h⟩ := Run.bind_ok h; cases h; exact ⟨rfl, rfl, rfl, rfl, rfl, rfl, rfl, rfl⟩
  | mfReadNode =>
    simp only [execBody, mfReadNodeBody] at h
    split at h
    · cases h; exact .raise _ _ _
    · cases h; exact ⟨rfl, rfl, rfl, rfl, rfl, rfl, rfl, rfl⟩
  | encStart =>
    rcases encStartBody_frame h with ⟨w, rfl⟩ | h
    · exact .raise _ _ _
    · rw [h]; exact ⟨rfl, rfl, rfl, rfl, rfl, rfl, rfl, rfl⟩
  | encStep =>
    rcases encStepBody_frame h with rfl | h
    · exact .raise _ _ _
    · exact .items h
  | encFinish =>
    rcases encFinishBody_frame h with rfl | h
    · exact .raise _ _ _
    · rw [h]; exact ⟨rfl, rfl, rfl, rfl, rfl, rfl, rfl, rfl⟩
  | compress =>
    rcases compressBody_frame h with ⟨w, rfl⟩ | h
    · exact .raise _ _ _
    · rw [h]; exact ⟨rfl, rfl, rfl, rfl, rfl, rfl, rfl, rfl⟩
  | decStart =>
    rcases headerBody_frame h with ⟨e, w, rfl, _⟩ | rfl
    · exact .raise _ _ _
    · exact ⟨rfl, rfl, rfl, rfl, rfl, rfl, rfl, rfl⟩
  | decStep =>
    rcases decStepBody_frame h with ⟨e, w, rfl, _⟩ | h
    · exact .raise _ _ _
    · exact .decoder h
  | decompress => rw [(decompressBody_frame h).1]; exact ⟨rfl, rfl, rfl, rfl, rfl, rfl, rfl, rfl⟩
  | illegal w => cases h; exact ⟨rfl, rfl, rfl, rfl, rfl, rfl, rfl, rfl⟩
  | streamHeader c u =>
    rcases headerBody_frame h with ⟨e, w, rfl, _⟩ | rfl
    · exact .raise _ _ _
    · exact ⟨rfl, rfl, rfl, rfl, rfl, rfl, rfl, rfl⟩
  | streamCtrl b =>
    rcases itemAt_frame h with ⟨e, w, rfl, _⟩ | h
    · exact .raise _ _ _
    · exact .decoder h
  | lit v => exact .decoder (literalItem_frame h)
  | ref off lc =>
    rcases referenceItem_frame h with ⟨e, w, rfl, _⟩ | h
    · exact .raise _ _ _
    · exact .decoder h

/-- No instruction writes ARG, the input, the parameters or the host's side, and each ends with BUSY = 0. -/
theorem exec_sameInput {i : Instr} {s t : State} (h : exec i s = .next t) :
    SameInput s t ∧ t.engine = .idle := by
  rcases exec_next h with ⟨_, _, _, rfl⟩ | ⟨e, _, _, rfl, _⟩ | ⟨_, _, _, u, hu, rfl⟩
  · exact ⟨⟨rfl, rfl, rfl, rfl, rfl, rfl, rfl, rfl⟩, rfl⟩
  · exact ⟨⟨rfl, rfl, rfl, rfl, rfl, rfl, rfl, rfl⟩, rfl⟩
  · obtain ⟨h1, h2, h3, h4, h5, h6, h7, h8⟩ := execBody_sameInput i hu
    exact ⟨⟨h1, h2, h3, h4, h5, h6, h7, h8⟩, rfl⟩

/-- A body other than CLEAR_ERR's and DECOMPRESS's raises an error and does nothing else, or leaves ERR, ERR_INFO
and DROP (R223). -/
theorem execBody_err (i : Instr) {s t : State} (h : execBody i s = .ok t) (hi : i ≠ .decompress)
    (hc : i ≠ .clearErr) :
    (∃ e w, e ≠ .none ∧ t = s.raise e w) ∨ t.err = s.err ∧ t.errInfo = s.errInfo ∧ t.drop = s.drop := by
  have items : ∀ u, SameButItems s u →
      u.err = s.err ∧ u.errInfo = s.errInfo ∧ u.drop = s.drop := fun u h => by
    rw [h]; exact ⟨rfl, rfl, rfl⟩
  have decs : ∀ u, SameButDecoder s u →
      u.err = s.err ∧ u.errInfo = s.errInfo ∧ u.drop = s.drop := fun u h => by
    rw [h.1]; exact ⟨rfl, rfl, rfl⟩
  have se : ∀ {e}, StreamError e → e ≠ .none := by rintro e (rfl | rfl | rfl) <;> simp
  cases i with
  | nop => cases h; exact .inr ⟨rfl, rfl, rfl⟩
  | clearErr => exact absurd rfl hc
  | mfClear => cases h; exact .inr ⟨rfl, rfl, rfl⟩
  | mfInit =>
    rcases checkInput_inv h with rfl | ⟨_, h⟩
    · exact .inl ⟨_, _, by simp, rfl⟩
    · rw [seed_frame h]; exact .inr ⟨rfl, rfl, rfl⟩
  | mfInsert =>
    rcases checkInput_inv h with rfl | ⟨_, h⟩
    · exact .inl ⟨_, _, by simp, rfl⟩
    · split at h
      · cases h; exact .inl ⟨.indexArgument, _, by simp, rfl⟩
      · obtain ⟨ix, _, h⟩ := Run.bind_ok h; cases h; exact .inr ⟨rfl, rfl, rfl⟩
  | mfRemove =>
    simp only [execBody, mfRemoveBody] at h
    split at h
    · cases h; exact .inl ⟨.indexArgument, _, by simp, rfl⟩
    · obtain ⟨ix, _, h⟩ := Run.bind_ok h; cases h; exact .inr ⟨rfl, rfl, rfl⟩
  | mfAdvance =>
    rcases checkInput_inv h with rfl | ⟨_, h⟩
    · exact .inl ⟨_, _, by simp, rfl⟩
    · split at h
      · cases h; exact .inl ⟨.indexArgument, _, by simp, rfl⟩
      · rw [advanceWindow_frame h]; exact .inr ⟨rfl, rfl, rfl⟩
  | mfSearch =>
    rcases checkInput_inv h with rfl | ⟨_, h⟩
    · exact .inl ⟨_, _, by simp, rfl⟩
    · obtain ⟨m, _, h⟩ := Run.bind_ok h; cases h; exact .inr ⟨rfl, rfl, rfl⟩
  | mfReadNode =>
    simp only [execBody, mfReadNodeBody] at h
    split at h
    · cases h; exact .inl ⟨.indexArgument, _, by simp, rfl⟩
    · cases h; exact .inr ⟨rfl, rfl, rfl⟩
  | encStart =>
    rcases encStartBody_frame h with ⟨w, rfl⟩ | h
    · exact .inl ⟨_, _, by simp, rfl⟩
    · rw [h]; exact .inr ⟨rfl, rfl, rfl⟩
  | encStep =>
    rcases encStepBody_frame h with rfl | h
    · exact .inl ⟨_, _, by simp, rfl⟩
    · exact .inr (items _ h)
  | encFinish =>
    rcases encFinishBody_frame h with rfl | h
    · exact .inl ⟨_, _, by simp, rfl⟩
    · rw [h]; exact .inr ⟨rfl, rfl, rfl⟩
  | compress =>
    rcases compressBody_frame h with ⟨w, rfl⟩ | h
    · exact .inl ⟨_, _, by simp, rfl⟩
    · rw [h]; exact .inr ⟨rfl, rfl, rfl⟩
  | decStart =>
    rcases headerBody_frame h with ⟨e, w, rfl, he⟩ | rfl
    · exact .inl ⟨_, _, by rcases he with rfl | rfl <;> simp, rfl⟩
    · exact .inr ⟨rfl, rfl, rfl⟩
  | decStep =>
    rcases decStepBody_frame h with ⟨e, w, rfl, he⟩ | h
    · exact .inl ⟨_, _, se he, rfl⟩
    · exact .inr (decs _ h)
  | decompress => exact absurd rfl hi
  | illegal w => cases h; exact .inl ⟨.illegalCommand, _, by simp, rfl⟩
  | streamHeader c u =>
    rcases headerBody_frame h with ⟨e, w, rfl, he⟩ | rfl
    · exact .inl ⟨_, _, by rcases he with rfl | rfl <;> simp, rfl⟩
    · exact .inr ⟨rfl, rfl, rfl⟩
  | streamCtrl b =>
    rcases itemAt_frame h with ⟨e, w, rfl, he⟩ | h
    · exact .inl ⟨_, _, se he, rfl⟩
    · exact .inr (decs _ h)
  | lit v => exact .inr (decs _ (literalItem_frame h))
  | ref off lc =>
    rcases referenceItem_frame h with ⟨e, w, rfl, he⟩ | h
    · exact .inl ⟨_, _, se he, rfl⟩
    · exact .inr (decs _ h)

end Sys2Proof.Machine
end

