-- ==== Sys2Proof/Laws/HostBus.lean ====
section
/-! SUPPORT. Laws/HostBus.lean: the host accesses and the platform's reset keep the invariant, and a CMD word
decodes to an instruction of the command space. -/

namespace Sys2Proof.Machine

variable {s : State}

/-- A state with no run open, an empty tree and CUR = 4096 meets the invariant. -/
theorem State.Inv.of_fresh (hc : s.CapsOk) (hi : s.inMem.wf ∧ ∀ c ∈ s.inMem, c.1 < s.inCap.toNat)
    (ho : s.outMem.wf ∧ ∀ c ∈ s.outMem, c.1 < s.outCap.toNat) (hm : s.mode = .idle)
    (hx : s.index = .cleared) (hcur : s.cur = 0x1000) : s.Inv := by
  refine .of_idle hc ⟨hi.1, hi.2, ho.1, ho.2, ?_, ?_⟩ ⟨⟨fun _ => 0, ?_⟩, ?_, ?_⟩ hm ?_
  · rw [hx]; exact Index.Stored.cleared.1
  · rw [hx]; exact Index.Stored.cleared.2
  · rw [hx]; constructor <;> simp
  · rw [hcur]; exact Nat.le_refl 4096
  · rw [hx]; rfl
  · rw [hcur]; show 4096 ≤ _; omega

theorem platformReset_inv (h : s.Inv) : (platformReset s).Inv :=
  .of_fresh ⟨h.caps.1, h.caps.2, h.caps.3⟩ (Memory.ofCells_wf _ _) (Memory.ofCells_wf _ _) rfl rfl rfl

theorem State.Inv.withHost (h : s.Inv) (l : List HostAccess) : ({ s with host := l } : State).Inv :=
  h.of_same (by constructor <;> rfl)

theorem storeReg_inv (h : s.Inv) (off : Nat) (v : Word) : (storeReg off v s).Inv := by
  unfold storeReg
  split
  · exact h.dropped
  · split
    · exact h.dropped
    · exact h.of_same (by constructor <;> rfl)
  · split
    · exact h.dropped
    · rename_i hc
      have hm : s.mode = .idle := by simp at hc; exact hc.2
      exact .of_idle ⟨h.caps.1, h.caps.2, h.caps.3⟩
        ⟨h.storage.1, h.storage.2, h.storage.3, h.storage.4, h.storage.5, h.storage.6⟩
        ⟨h.window.1, h.window.2, h.window.3⟩ hm h.run.curCap
  · exact h

theorem loadReg_inv (h : s.Inv) (off : Nat) : (loadReg off s).Inv := by
  unfold loadReg
  split <;> exact h.of_same (by constructor <;> rfl)

theorem storeIn_inv (h : s.Inv) {a : Nat} (v : Byte) (ha : a < s.inCap.toNat) : (storeIn a v s).Inv := by
  unfold storeIn
  split
  · exact h.dropped
  · rename_i hc
    have hm : s.mode = .idle := by simp at hc; exact hc.2
    exact .of_idle ⟨h.caps.1, h.caps.2, h.caps.3⟩
      ⟨Memory.wf_write _ _ _ h.storage.inWf, Memory.bound_write _ _ _ _ ha h.storage.inBound,
        h.storage.3, h.storage.4, h.storage.5, h.storage.6⟩
      ⟨h.window.1, h.window.2, h.window.3⟩ hm h.run.curCap

theorem loadIn_inv (h : s.Inv) (a : Nat) : (loadIn a s).Inv := h.of_same (by constructor <;> rfl)

theorem loadOut_inv (h : s.Inv) (a : Nat) : (loadOut a s).Inv := by
  unfold loadOut
  split <;> exact h.of_same (by constructor <;> rfl)

/-- The host accesses leave the tree and CUR. -/
theorem storeReg_tree (off : Nat) (v : Word) (s : State) :
    (storeReg off v s).index = s.index ∧ (storeReg off v s).cur = s.cur := by
  unfold storeReg
  split
  · exact ⟨rfl, rfl⟩
  · split <;> exact ⟨rfl, rfl⟩
  · split <;> exact ⟨rfl, rfl⟩
  · exact ⟨rfl, rfl⟩

theorem loadReg_tree (off : Nat) (s : State) :
    (loadReg off s).index = s.index ∧ (loadReg off s).cur = s.cur := by
  unfold loadReg
  split <;> exact ⟨rfl, rfl⟩

theorem storeIn_tree (a : Nat) (v : Byte) (s : State) :
    (storeIn a v s).index = s.index ∧ (storeIn a v s).cur = s.cur := by
  unfold storeIn
  split <;> exact ⟨rfl, rfl⟩

theorem loadOut_tree (a : Nat) (s : State) :
    (loadOut a s).index = s.index ∧ (loadOut a s).cur = s.cur := by
  unfold loadOut
  split <;> exact ⟨rfl, rfl⟩

/-- What an accepted command word leaves: the state its command ends in, BUSY held at 1. -/
theorem startCommand_eq {w : Word} {s t : State} (h : exec (decodeCommand w) { s with engine := .running } = .next t) :
    startCommand w s = .next { t with engine := .running } := by
  simp only [startCommand, h]

theorem startCommand_next {w : Word} {s u : State} (h : startCommand w s = .next u) :
    ∃ t, exec (decodeCommand w) { s with engine := .running } = .next t ∧ u = { t with engine := .running } := by
  unfold startCommand at h
  split at h
  · rename_i t ht; cases h; exact ⟨t, ht, rfl⟩
  · cases h
  · cases h

theorem State.Inv.withEngine (h : s.Inv) (e : Engine) : ({ s with engine := e } : State).Inv :=
  h.of_same (by constructor <;> rfl)

/-- A host write to REG keeps the invariant, with no fault (R200). -/
theorem writeReg_keeps (h : s.Inv) (off : Nat) (v : Word) : Keeps (writeReg off v s) := by
  unfold writeReg
  split
  · obtain ⟨t, ht, hi⟩ := exec_keeps (h.withEngine .running) (decodeCommand v) (decodeCommand_space _)
    exact ⟨_, startCommand_eq ht, hi.withEngine _⟩
  · exact ⟨_, rfl, storeReg_inv h _ _⟩

end Sys2Proof.Machine
end

