-- ==== Sys2Proof/Laws/Encoding.lean ====
section
/-! SUPPORT. Laws/Encoding.lean: the bit fields of the encodings (R85, R94, R96), taken apart and put together. -/

namespace Sys2Proof

/-- The four bytes of a word, lowest first, give the word back (R69, R70). -/
theorem leWord_bit (b0 b1 b2 b3 : Byte) (k : Nat) (hk : k < 32) :
    (leWord b0 b1 b2 b3).getLsbD k =
      if k < 8 then b0.getLsbD k else if k < 16 then b1.getLsbD (k - 8)
      else if k < 24 then b2.getLsbD (k - 16) else b3.getLsbD (k - 24) := by
  unfold leWord
  simp only [BitVec.getLsbD_append]
  by_cases h1 : k < 8
  · simp [h1]
  · by_cases h2 : k < 16
    · simp [h1, h2, show k - 8 < 8 by omega]
    · by_cases h3 : k < 24
      · rw [if_neg h1, if_neg h1, if_neg (by omega), if_neg h2, if_pos (by omega), if_pos h3,
          show k - 8 - 8 = k - 16 by omega]
      · rw [if_neg h1, if_neg h1, if_neg (by omega), if_neg h2, if_neg (by omega), if_neg h3,
          show k - 8 - 8 - 8 = k - 24 by omega]

theorem leWord_leBytes (w : Word) :
    leWord (w.extractLsb' 0 8) (w.extractLsb' 8 8) (w.extractLsb' 16 8) (w.extractLsb' 24 8) = w := by
  apply BitVec.eq_of_getLsbD_eq
  intro i hi
  rw [leWord_bit _ _ _ _ _ hi]
  simp only [BitVec.getLsbD_extractLsb']
  by_cases h1 : i < 8
  · simp [h1]
  · by_cases h2 : i < 16
    · simp [h1, h2, show i - 8 < 8 by omega, show 8 + (i - 8) = i by omega]
    · by_cases h3 : i < 24
      · simp [h1, h2, h3, show i - 16 < 8 by omega, show 16 + (i - 16) = i by omega]
      · simp [h1, h2, h3, show i - 24 < 8 by omega, show 24 + (i - 24) = i by omega]

/-- A word gives back the four bytes it is made of. -/
theorem leBytes_leWord (b0 b1 b2 b3 : Byte) : leBytes (leWord b0 b1 b2 b3) = [b0, b1, b2, b3] := by
  have h : ∀ n, ∀ b : Byte, (∀ i, i < 8 → (leWord b0 b1 b2 b3).getLsbD (n + i) = b.getLsbD i) →
      (leWord b0 b1 b2 b3).extractLsb' n 8 = b := by
    intro n b hb
    apply BitVec.eq_of_getLsbD_eq
    intro i hi
    rw [BitVec.getLsbD_extractLsb', hb i hi]
    simp [hi]
  unfold leBytes
  rw [h 0 b0, h 8 b1, h 16 b2, h 24 b3]
  all_goals
    intro i hi
    rw [leWord_bit _ _ _ _ _ (by omega)]
  · simp [show ¬ 24 + i < 8 by omega, show ¬ 24 + i < 16 by omega, show 24 + i - 24 = i by omega]
  · simp [hi, show ¬ 16 + i < 8 by omega, show ¬ 16 + i < 16 by omega, show 16 + i < 24 by omega,
      show 16 + i - 16 = i by omega]
  · simp [hi, show ¬ 8 + i < 8 by omega, show 8 + i < 16 by omega, show 8 + i - 8 = i by omega]
  · simp [hi]

/-- The 16-bit value of a reference, bit by bit: the second byte low, the first high (R96). -/
theorem refValue_bit (b0 b1 : Byte) (k : Nat) :
    (refValue b0 b1).getLsbD k = if k < 8 then b1.getLsbD k else b0.getLsbD (k - 8) := by
  unfold refValue
  exact BitVec.getLsbD_append

/-- The offset field, bit by bit: the first byte, then the high nibble of the second (R94, R96). -/
theorem refOff_bit (b0 b1 : Byte) (k : Nat) (hk : k < 12) :
    (refOff b0 b1).getLsbD k = if k < 8 then b0.getLsbD k else b1.getLsbD (k - 4) := by
  unfold refOff
  rw [BitVec.getLsbD_setWidth, BitVec.getLsbD_or, BitVec.getLsbD_and, BitVec.getLsbD_ushiftRight,
    BitVec.getLsbD_shiftLeft, BitVec.getLsbD_and, refValue_bit, refValue_bit]
  interval_cases k <;> simp

/-- The length code is the low nibble of the second byte (R94, R96). -/
theorem refLc_bit (b0 b1 : Byte) (k : Nat) (hk : k < 4) :
    (refLc b0 b1).getLsbD k = b1.getLsbD k := by
  unfold refLc
  rw [BitVec.getLsbD_setWidth, BitVec.getLsbD_and, refValue_bit]
  interval_cases k <;> simp

/-- The two bytes of a reference give back its offset field. -/
theorem refBytes_off (off : BitVec 12) (lc : BitVec 4) :
    refOff (refByte0 off) (refByte1 off lc) = off := by
  apply BitVec.eq_of_getLsbD_eq
  intro i hi
  rw [refOff_bit _ _ _ hi]
  unfold refByte0 refByte1
  interval_cases i <;> simp

/-- The two bytes of a reference give back its length code. -/
theorem refBytes_lc (off : BitVec 12) (lc : BitVec 4) :
    refLc (refByte0 off) (refByte1 off lc) = lc := by
  apply BitVec.eq_of_getLsbD_eq
  intro i hi
  rw [refLc_bit _ _ _ hi]
  unfold refByte1
  interval_cases i <;> simp

/-- The fields of a reference give back its two bytes: no bit of them is dropped. -/
theorem refBytes_back (b0 b1 : Byte) :
    refByte0 (refOff b0 b1) = b0 ∧ refByte1 (refOff b0 b1) (refLc b0 b1) = b1 := by
  refine ⟨BitVec.eq_of_getLsbD_eq fun i hi => ?_, BitVec.eq_of_getLsbD_eq fun i hi => ?_⟩
  · unfold refByte0
    rw [BitVec.getLsbD_extractLsb', refOff_bit _ _ _ (by omega)]
    simp [hi]
  · unfold refByte1
    rw [BitVec.getLsbD_or, BitVec.getLsbD_shiftLeft, BitVec.getLsbD_setWidth, BitVec.getLsbD_setWidth,
      BitVec.getLsbD_extractLsb']
    by_cases h : i < 4
    · rw [refLc_bit _ _ _ h]; simp [h, hi]
    · rw [refOff_bit _ _ _ (by omega)]
      interval_cases i <;> simp at h ⊢

/-- The first byte of a reference as a number (R94). -/
theorem refByte0_toNat (off : BitVec 12) : (refByte0 off).toNat = off.toNat % 256 := by
  simp [refByte0, BitVec.extractLsb'_toNat]

/-- The second byte of a reference as a number (R94). -/
theorem refByte1_toNat (off : BitVec 12) (lc : BitVec 4) :
    (refByte1 off lc).toNat = off.toNat / 256 * 16 + lc.toNat := by
  unfold refByte1
  have e : (BitVec.setWidth 8 (BitVec.extractLsb' 8 4 off) <<< 4).toNat = 2 ^ 4 * (off.toNat / 256) := by
    rw [BitVec.toNat_shiftLeft, BitVec.toNat_setWidth, BitVec.extractLsb'_toNat,
      Nat.shiftRight_eq_div_pow, Nat.shiftLeft_eq]
    have := off.isLt
    omega
  rw [BitVec.toNat_or, e, BitVec.toNat_setWidth]
  have hlc := lc.isLt
  rw [Nat.mod_eq_of_lt (by omega), ← Nat.two_pow_add_eq_or_of_lt hlc]
  omega

end Sys2Proof
end

