-- ==== Sys2Proof/Laws/RoundTrip.lean ====
section
/-! SUPPORT. Laws/RoundTrip.lean: the decoder meets the encoder's items in order (R186): one item of each, side
by side, and the induction over the run. -/

namespace Sys2Proof.Machine

namespace State

/-! ## The two offset formulas (R101) -/

theorem refBackset_refOffset {pos back : Nat} (h1 : 1 ≤ back) (h2 : back ≤ 4095) :
    refBackset pos (refOffset (4096 + pos) (back : Int)) = back := by
  unfold refBackset refOffset
  simp only [BitVec.toNat_ofNat]
  omega

theorem refLength_refCode {len : Nat} (h1 : 3 ≤ len) (h2 : len ≤ 18) : refLength (refCode len) = len := by
  unfold refLength refCode
  simp only [BitVec.toNat_ofNat]
  omega

/-! ## A finished stream against the encoder's state -/

/-- The finished stream F agrees with what the open encode run s has written: its item bytes and full
groups' control bytes, and the control bits counted so far of its open group (R162). -/
structure Agrees (F : Nat → Byte) (s : State) : Prop where
  bytes : ∀ a, 8 ≤ a → a < s.outLen.toNat → (s.encCnt < 8 → a ≠ s.encGptr.toNat) →
    F a = s.outMem.read a
  bits : s.encCnt < 8 → ∀ k, k < s.encCnt.val →
    (F s.encGptr.toNat).getLsbD k = s.encCtrl.getLsbD k

/-- The bits of ENC_CTRL for items the open group does not have are 0 (R162). -/
def CtrlClear (s : State) : Prop :=
  s.encCnt < 8 → ∀ k, s.encCnt.val ≤ k → s.encCtrl.getLsbD k = false

theorem encCnt_lt {s : State} : s.encCnt < 8 ↔ s.encCnt ≠ 8 := by
  have := s.encCnt.isLt
  constructor
  · intro h e; rw [e] at h; exact absurd h (by decide)
  · intro h
    have : s.encCnt.val ≠ 8 := fun e => h (Fin.ext e)
    exact Fin.lt_def.2 (show s.encCnt.val < 8 by omega)

theorem one_shift_bit (i k : Nat) (hi : i < 8) :
    ((1 : Byte) <<< i).getLsbD k = decide (k = i) := by
  have : ∀ i : Fin 8, ((1 : Byte) <<< i.val) = BitVec.twoPow 8 i.val := by decide
  rw [this ⟨i, hi⟩, BitVec.getLsbD_twoPow]
  simp only [hi, decide_true, Bool.true_and]
  simp [eq_comm]

/-- The control bits an item leaves: those before it as they were, its own 1 for a literal, none after. -/
theorem ItemDone.ctrlBit {s t : State} {m : Nat × Nat} (d : ItemDone s m t) (hc : CtrlClear s)
    (k : Nat) : t.encCtrl.getLsbD k =
      if k < s.itemIndex then s.encCtrl.getLsbD k
      else if k = s.itemIndex then decide (¬ 3 ≤ m.1) else false := by
  have hi := s.itemIndex_lt
  rw [d.ctrl, BitVec.getLsbD_or]
  have h2 : (if 3 ≤ m.1 then (0 : Byte) else (1 : Byte) <<< s.itemIndex).getLsbD k =
      (decide (¬ 3 ≤ m.1) && decide (k = s.itemIndex)) := by
    split
    · rename_i h; simp [h]
    · rename_i h; rw [one_shift_bit _ _ hi]; simp [h]
  rw [h2]
  by_cases h8 : s.encCnt = 8
  · have h0 : s.itemIndex = 0 := by simp [itemIndex, h8]
    simp only [h8, if_true, h0]
    by_cases hk : k = 0 <;> simp [hk]
  · have h0 : s.itemIndex = s.encCnt.val := by simp [itemIndex, h8]
    simp only [h8, if_false, h0]
    by_cases hk : k < s.encCnt.val
    · simp [hk, Nat.ne_of_lt hk]
    · rw [hc (encCnt_lt.2 h8) k (by omega)]
      by_cases hk' : k = s.encCnt.val <;> simp [hk, hk']

theorem ItemDone.ctrlClear {s t : State} {m : Nat × Nat} (d : ItemDone s m t) (hc : CtrlClear s) :
    CtrlClear t := by
  intro _ k hk
  have := d.cnt
  rw [d.ctrlBit hc, if_neg (by omega), if_neg (by omega)]

/-- Where the open group's control byte of the state after an item stands (R162). -/
theorem ItemDone.gptr_lt {s t : State} {m : Nat × Nat} (d : ItemDone s m t) (he : s.EncodingOk) :
    8 ≤ t.encGptr.toNat ∧ t.encGptr.toNat < s.itemStart := by
  rw [d.gptr]
  unfold itemStart
  have h8 := he.headerOut
  split
  · omega
  · rename_i hne
    have := he.openGroup (encCnt_lt.2 hne)
    omega

/-- What the finished stream holds for one item: its bytes, its control bit, and, where it opens a group,
the control byte's address. The stream agrees with the state before the item too. -/
theorem Agrees.item {F : Nat → Byte} {s t : State} {m : Nat × Nat} (hF : Agrees F t)
    (d : ItemDone s m t) (he : s.EncodingOk) (hc : CtrlClear s) :
    Agrees F s ∧
    (∀ i, i < (s.itemBytes m).length → F (s.itemStart + i) = (s.itemBytes m).getD i 0) ∧
    (F t.encGptr.toNat).getLsbD s.itemIndex = decide (¬ 3 ≤ m.1) := by
  obtain ⟨g1, g2⟩ := d.gptr_lt he
  have hi := s.itemIndex_lt
  have hlen := d.outLen
  have hstart : s.outLen.toNat ≤ s.itemStart := by unfold itemStart; omega
  have h8 := he.headerOut
  -- the control bits counted after the item
  have hbit : ∀ k, k ≤ s.itemIndex → (F t.encGptr.toNat).getLsbD k = t.encCtrl.getLsbD k := by
    intro k hk
    by_cases h : t.encCnt < 8
    · exact hF.bits h k (by rw [d.cnt]; omega)
    · have h' : t.encCnt = 8 := by rw [encCnt_lt, not_not] at h; exact h
      rw [hF.bytes _ g1 (by omega) (fun x => absurd x h), d.mem, if_pos ⟨h', rfl⟩]
  refine ⟨⟨fun a a1 a2 a3 => ?_, fun hs k hk => ?_⟩, fun i hi => ?_, ?_⟩
  · have hag : a ≠ t.encGptr.toNat := by
      rw [d.gptr]
      split
      · omega
      · rename_i hne; exact a3 (encCnt_lt.2 hne)
    rw [hF.bytes a a1 (by omega) (fun _ => hag), d.mem, if_neg (fun x => hag x.2), if_neg (by omega),
      if_neg (by omega)]
  · have hne := encCnt_lt.1 hs
    have hgp : t.encGptr = s.encGptr := by rw [d.gptr, if_neg hne]
    have hix : s.itemIndex = s.encCnt.val := by simp [itemIndex, hne]
    rw [← hgp, hbit k (by omega), d.ctrlBit hc, if_pos (by omega)]
  · rw [hF.bytes _ (by omega) (by omega) (fun _ => by omega), d.mem, if_neg (by omega),
      if_pos (by omega)]
    congr 1; omega
  · rw [hbit _ (Nat.le_refl _), d.ctrlBit hc, if_neg (by omega), if_pos rfl]

/-! ## Side by side -/

/-- The decode run d over the finished stream F stands where the encode run s over n bytes stood. -/
structure Follows (F : Nat → Byte) (s d : State) : Prop where
  stream : ∀ a, 8 ≤ a → a < d.inLen.toNat → d.inMem.read a = F a
  ptr : d.decInPtr.toNat = s.outLen.toNat
  bit : d.decBit = s.encCnt
  ctrl : s.encCnt < 8 → d.decCtrl = F s.encGptr.toNat
  pos : 4096 + d.outLen.toNat = s.cur.toNat
  size : 4096 + d.decU.toNat = s.endPos
  done : ∀ a, a < d.outLen.toNat → d.outMem.read a = s.window.byte (4096 + a)

/-- The output bytes of one item of the encoder's: the window bytes from CUR on (R161, R182). -/
theorem window_copy {s : State} {m : Nat × Nat} {mem : Nat → Byte} {n : Nat}
    (hn : 4096 + n = s.cur.toNat) (hb : 1 ≤ s.cur.toNat - m.2)
    (hle : m.2 ≤ s.cur.toNat)
    (heq : ∀ i, i < m.1 → s.window.byte (s.cur.toNat + i) = s.window.byte (m.2 + i))
    (hold : ∀ a, a < n → mem a = s.window.byte (4096 + a))
    (hcopy : ∀ k, k < m.1 → mem (n + k) =
      if n + k < s.cur.toNat - m.2 then 0 else mem (n + k - (s.cur.toNat - m.2))) :
    ∀ k, k < m.1 → mem (n + k) = s.window.byte (4096 + (n + k)) := by
  intro k
  induction k using Nat.strongRecOn with
  | ind k ih =>
    intro hk
    rw [hcopy k hk, show 4096 + (n + k) = s.cur.toNat + k by omega, heq k hk]
    split
    · unfold Window.byte; rw [if_pos (by omega)]
    · rw [show m.2 + k = 4096 + (n + k - (s.cur.toNat - m.2)) by omega]
      by_cases hlt : n + k - (s.cur.toNat - m.2) < n
      · exact hold _ hlt
      · have := ih (k - (s.cur.toNat - m.2)) (by omega) (by omega)
        rw [show n + k - (s.cur.toNat - m.2) = n + (k - (s.cur.toNat - m.2)) by omega]
        exact this

/-- One item of each run, side by side (R186). -/
theorem Follows.item {F : Nat → Byte} {s t d : State} {m : Nat × Nat} (f : Follows F s d)
    (hs : s.Inv) (hsm : s.mode = .encoding) (hc : CtrlClear s) (hd : d.Inv)
    (hdm : d.mode = .decoding) (hcur : s.cur.toNat < s.endPos) (i : ItemDone s m t)
    (hmatch : m = (2, 0) ∨ 3 ≤ m.1 ∧ m.1 ≤ 18 ∧ s.cur.toNat + m.1 ≤ s.endPos ∧
        s.cur.toNat ≤ m.2 + 4095 ∧ m.2 < s.cur.toNat ∧
        ∀ i, i < m.1 → s.window.byte (s.cur.toNat + i) = s.window.byte (m.2 + i))
    (hF : Agrees F t) (hlen : t.outLen.toNat ≤ d.inLen.toNat) :
    ∃ e, decStepBody d = .ok e ∧ e.Inv ∧ Follows F t e ∧ e.err = d.err ∧ e.inLen = d.inLen ∧
      (t.cur.toNat < t.endPos → e.mode = .decoding) ∧
      (t.cur.toNat = t.endPos → e.mode = .idle ∧ e.done = true) := by
  have he := hs.run.encoding hsm
  have hde := hd.run.decoding hdm
  obtain ⟨_, hbytes, hbit⟩ := hF.item i he hc
  obtain ⟨g1, g2⟩ := i.gptr_lt he
  have h8 := he.headerOut
  have hlen' := i.outLen
  have hfit := hde.fitsIn
  have hL := itemBytes_length s m
  have hix := s.itemIndex_lt
  have hstart : s.outLen.toNat ≤ s.itemStart := by unfold itemStart; omega
  have hcn : s.encCnt = 8 ↔ s.encCnt.val = 8 := ⟨fun e => by rw [e]; rfl, fun e => Fin.ext e⟩
  have hstream : ∀ a, 8 ≤ a → a < t.outLen.toNat → d.inMem.read a = F a :=
    fun a a1 a2 => f.stream a a1 (by omega)
  -- the item is read at the cursor that stands after the control byte
  have hstep : decStepBody d = itemAt ⟨s.itemStart, ⟨s.itemIndex, by omega⟩, F t.encGptr.toNat⟩ d := by
    by_cases e8 : s.encCnt = 8
    · have hsl : s.itemStart = s.outLen.toNat + 1 := by simp [itemStart, e8]
      have hi0 : s.itemIndex = 0 := by simp [itemIndex, e8]
      have hgp : t.encGptr.toNat = s.outLen.toNat := by rw [i.gptr, if_pos e8]
      have hread : d.inMem.read d.decInPtr.toNat = F t.encGptr.toNat := by
        rw [f.ptr, hgp]; exact hstream _ h8 (by omega)
      simp only [decStepBody, f.bit, e8, if_true]
      rw [if_neg (by rw [f.ptr]; omega), readIn_ok (by rw [f.ptr]; omega), Run.ok_bind, groupItem, hread,
        f.ptr]
      congr 2
      · exact hsl.symm
      · exact Fin.ext hi0.symm
    · have hsl : s.itemStart = s.outLen.toNat := by simp [itemStart, e8]
      have hi0 : s.itemIndex = s.encCnt.val := by simp [itemIndex, e8]
      have hgp : t.encGptr = s.encGptr := by rw [i.gptr, if_neg e8]
      simp only [decStepBody, f.bit, if_neg e8, cursor]
      rw [f.ctrl (encCnt_lt.2 e8), ← hgp, f.ptr]
      congr 2
      · exact hsl.symm
      · exact Fin.ext hi0.symm
  have hne : t.endPos = s.endPos := i.same.endPos
  have hwin : t.window = s.window := i.same.window
  -- what the produced state gives, for either kind of item
  have finish : ∀ e n k, Produced d ⟨s.itemStart + k, ⟨s.itemIndex, by omega⟩, F t.encGptr.toNat⟩ n e →
      n = itemSpan m → k = (s.itemBytes m).length →
      (∀ j, j < n → e.outMem.read (d.outLen.toNat + j) = s.window.byte (4096 + (d.outLen.toNat + j))) →
      e.Inv ∧ Follows F t e ∧ e.err = d.err ∧ e.inLen = d.inLen ∧
        (t.cur.toNat < t.endPos → e.mode = .decoding) ∧
        (t.cur.toNat = t.endPos → e.mode = .idle ∧ e.done = true) := by
    intro e n k p hn hk hnew
    have hcur' := i.cur
    have hpos := f.pos
    have hsize := f.size
    have hto : t.outLen.toNat = s.itemStart + k := by rw [hlen', hk]
    have hle : s.cur.toNat + itemSpan m ≤ s.endPos := by
      rcases hmatch with rfl | ⟨a, _, b, _⟩
      · simp [itemSpan]; omega
      · simpa [itemSpan, a] using b
    have hU : e.decU = d.decU := by rw [p.rest]
    have hM : e.inMem = d.inMem := by rw [p.rest]
    have hIL : e.inLen = d.inLen := by rw [p.rest]
    have hR : e.err = d.err := by rw [p.rest]
    have hinv := p.inv hd hdm ⟨by simp only; omega, by simp only; omega⟩ (by omega)
    have hptr : e.decInPtr.toNat = s.itemStart + k := by
      have := d.inLen.isLt
      have : e.decInPtr = BitVec.ofNat 32 (s.itemStart + k) := by rw [p.rest]
      rw [this, BitVec.toNat_ofNat]; omega
    have hbitE : e.decBit = t.encCnt := by
      have : e.decBit = Fin.ofNat 9 (s.itemIndex + 1) := by rw [p.rest]
      rw [this]
      apply Fin.ext
      simp only [Fin.ofNat, i.cnt]; omega
    have hctl : e.decCtrl = F t.encGptr.toNat := by rw [p.rest]
    refine ⟨hinv, ⟨?_, by rw [hptr, hto], hbitE, fun _ => hctl, by rw [p.outLen, hcur']; omega,
      by rw [hU, hne, hsize], fun a ha => ?_⟩, hR, hIL, fun hlt => ?_, fun heq => ?_⟩
    · rw [hM, hIL]; exact f.stream
    · rw [p.outLen] at ha
      rw [hwin]
      by_cases hlt : a < d.outLen.toNat
      · rw [p.before a hlt]; exact f.done a hlt
      · have := hnew (a - d.outLen.toNat) (by omega)
        rwa [show d.outLen.toNat + (a - d.outLen.toNat) = a by omega] at this
    · have : e.mode = if d.outLen.toNat + n = d.decU.toNat then .idle else d.mode := by rw [p.rest]
      rw [this, if_neg (by omega)]; exact hdm
    · have h1 : e.mode = if d.outLen.toNat + n = d.decU.toNat then .idle else d.mode := by rw [p.rest]
      have h2 : e.done = if d.outLen.toNat + n = d.decU.toNat then true else d.done := by rw [p.rest]
      rw [h1, h2, if_pos (by omega), if_pos (by omega)]
      exact ⟨rfl, rfl⟩
  rw [hstep]
  rcases hmatch with hm2 | ⟨m3, m18, mEnd, mB, mLt, mEq⟩
  · -- a literal
    have h3 : ¬ 3 ≤ m.1 := by rw [hm2]; omega
    have hspan : itemSpan m = 1 := by simp [itemSpan, h3]
    have hbl : s.itemBytes m = [s.window.byte s.cur.toNat] := by simp [itemBytes, h3]
    rw [hbl] at hbytes hlen'
    simp only [List.length_cons, List.length_nil] at hbytes hlen'
    have hv : d.inMem.read s.itemStart = s.window.byte s.cur.toNat := by
      rw [hstream _ (by omega) (by omega)]
      simpa using hbytes 0 (by omega)
    obtain ⟨e, e1, e2, e3⟩ := literalItem_ok hd hdm
      ⟨s.itemStart, ⟨s.itemIndex, by omega⟩, F t.encGptr.toNat⟩ (s.window.byte s.cur.toNat)
    refine ⟨e, ?_, finish e 1 1 e2 hspan.symm (by rw [hbl]; rfl) (fun j hj => ?_)⟩
    · have hb : (F t.encGptr.toNat).getLsbD s.itemIndex = true := by rw [hbit]; simp [h3]
      unfold itemAt
      simp only [hb, if_true]
      rw [if_neg (by omega), readIn_ok (by omega), Run.ok_bind, hv, e1]
    · obtain rfl : j = 0 := by omega
      rw [Nat.add_zero, e3, f.pos]
  · -- a reference
    have hspan : itemSpan m = m.1 := by simp [itemSpan, m3]
    have hbl : s.itemBytes m = [refByte0 (refOffset s.cur.toNat ((s.cur.toNat : Int) - m.2)),
        refByte1 (refOffset s.cur.toNat ((s.cur.toNat : Int) - m.2)) (refCode m.1)] := by
      simp [itemBytes, m3]
    rw [hbl] at hbytes hlen'
    simp only [List.length_cons, List.length_nil] at hbytes hlen'
    have hb0 := hbytes 0 (by omega)
    have hb1 := hbytes 1 (by omega)
    simp only [List.getD_cons_zero, List.getD_cons_succ, Nat.add_zero] at hb0 hb1
    have hi0 : d.inMem.read s.itemStart = _ := (hstream _ (by omega) (by omega)).trans hb0
    have hi1 : d.inMem.read (s.itemStart + 1) = _ := (hstream _ (by omega) (by omega)).trans hb1
    have hback : refBackset d.outLen.toNat (refOffset s.cur.toNat ((s.cur.toNat : Int) - m.2)) =
        s.cur.toNat - m.2 := by
      have h := refBackset_refOffset (pos := d.outLen.toNat) (back := s.cur.toNat - m.2) (by omega)
        (by omega)
      rwa [f.pos, show ((s.cur.toNat - m.2 : Nat) : Int) = (s.cur.toNat : Int) - m.2 by omega] at h
    have hcode : refLength (refCode m.1) = m.1 := refLength_refCode m3 m18
    obtain ⟨e, e1, e2, e3⟩ := referenceItem_ok hd hdm
      ⟨s.itemStart, ⟨s.itemIndex, by omega⟩, F t.encGptr.toNat⟩
      (refOffset s.cur.toNat ((s.cur.toNat : Int) - m.2)) (refCode m.1) (by rw [hback]; omega)
      (by rw [hcode]; have := f.pos; have := f.size; omega)
    rw [hcode] at e2 e3
    rw [hback] at e3
    refine ⟨e, ?_, finish e m.1 2 e2 hspan.symm (by rw [hbl]; rfl) ?_⟩
    · have hb : (F t.encGptr.toNat).getLsbD s.itemIndex = false := by rw [hbit]; simp [m3]
      unfold itemAt
      simp only [hb, Bool.false_eq_true, if_false]
      rw [if_neg (by omega), readIn_ok (by omega), Run.ok_bind, readIn_ok (by omega), Run.ok_bind, hi0,
        hi1, refBytes_off, refBytes_lc, e1]
    · exact window_copy f.pos (by omega) (by omega) mEq
        (fun a ha => by rw [e2.before a ha]; exact f.done a ha) e3

/-- A stream that agrees with the end of the encoder's loop agrees with its start, and is no shorter. -/
theorem Agrees.back {F : Nat → Byte} (fuel : Nat) : ∀ {s u : State}, s.Inv → s.mode = .encoding →
    CtrlClear s → encLoop fuel s = .ok u → Agrees F u → Agrees F s ∧ s.outLen.toNat ≤ u.outLen.toNat := by
  induction fuel with
  | zero => intro s u _ _ _ hu hF; cases hu; exact ⟨hF, Nat.le_refl _⟩
  | succ fuel ih =>
    intro s u hs hsm hc hu hF
    unfold encLoop at hu
    split at hu
    · rename_i hcur
      obtain ⟨m, t, _, _, h1, h2, h3, h4⟩ := encodeItem_ok hs hsm hcur
      rw [h1, Run.ok_bind] at hu
      obtain ⟨k1, k2⟩ := ih h3 h4 (h2.ctrlClear hc) hu hF
      refine ⟨(k1.item h2 (hs.run.encoding hsm) hc).1, ?_⟩
      have := h2.outLen
      have : s.outLen.toNat ≤ s.itemStart := by unfold itemStart; omega
      omega
    · cases hu; exact ⟨hF, Nat.le_refl _⟩

/-- The rest of a run of each, side by side (R186): where the encoder's loop ends, so does the decoder's,
with the window's data as its output. -/
theorem Follows.loop {F : Nat → Byte} (fuel : Nat) : ∀ {s u d : State}, Follows F s d → s.Inv →
    s.mode = .encoding → CtrlClear s → d.Inv → d.mode = .decoding → s.cur.toNat < s.endPos →
    s.endPos ≤ s.cur.toNat + fuel → encLoop fuel s = .ok u → Agrees F u →
    u.outLen.toNat ≤ d.inLen.toNat →
    ∃ e, decLoop fuel d = .ok e ∧ e.err = d.err ∧ e.mode = .idle ∧ e.done = true ∧
      4096 + e.outLen.toNat = s.endPos ∧
      ∀ a, a < e.outLen.toNat → e.outMem.read a = s.window.byte (4096 + a) := by
  induction fuel with
  | zero => intro s u d _ _ _ _ _ _ h1 h2; omega
  | succ fuel ih =>
    intro s u d f hs hsm hc hd hdm hcur hfuel hu hF hlen
    obtain ⟨m, t, _, hmatch, h1, h2, h3, h4⟩ := encodeItem_ok hs hsm hcur
    simp only [encLoop, if_pos hcur, h1, Run.ok_bind] at hu
    have hce := (h3.run.encoding h4).curHigh
    have hcur' := h2.cur
    have hpos := (itemBytes_length s m).2
    have hen := h2.same.endPos
    have hcc := h2.ctrlClear hc
    obtain ⟨hFt, hle⟩ := hF.back fuel h3 h4 hcc hu
    obtain ⟨e, e1, e2, e3, e4, e5, e6, e7⟩ := f.item hs hsm hc hd hdm hcur h2 hmatch hFt (by omega)
    have hstep : decLoop (fuel + 1) d = decLoop fuel e := by
      rw [decLoop, if_pos hdm, e1, Run.ok_bind]
    by_cases hlast : t.cur.toNat = t.endPos
    · obtain ⟨e8, e9⟩ := e7 hlast
      refine ⟨e, ?_, e4, e8, e9, ?_, fun a ha => ?_⟩
      · rw [hstep]
        cases fuel with
        | zero => rfl
        | succ fuel => rw [decLoop, if_neg (by rw [e8]; decide)]
      · have := e3.pos; omega
      · rw [e3.done a ha, h2.same.window]
    · obtain ⟨e', k1, k2, k3, k4, k5, k6⟩ := ih e3 h3 h4 hcc e2 (e6 (by omega)) (by omega) (by omega)
        hu hF (by rw [e5]; exact hlen)
      refine ⟨e', by rw [hstep, k1], by rw [k2, e4], k3, k4, by omega, ?_⟩
      rw [h2.same.window] at k6
      exact k6

end State

end Sys2Proof.Machine
end

