-- ==== Sys2Proof/Laws/Exec.lean ====
section
/-! SUPPORT. Laws/Exec.lean: `exec` on a state whose checks pass, and the runs of the two loops as repeated
steps. -/

namespace Sys2Proof.Machine

open State

/-- The meaning of a command word is its body behind the dispatch. -/
theorem exec_command_dispatch (w : Word) (s : State) :
    exec (decodeCommand w) s = dispatch w (execBody (decodeCommand w)) s := by
  have h := exec_command (decodeCommand w) s (decodeCommand_space w)
  rwa [execWord_decode] at h

/-- A command word decodes to a well-formed instruction whose encoding is the word. -/
theorem encode_decodeCommand (w : Word) : (decodeCommand w).wellFormed = true ∧
    encode (decodeCommand w) = leBytes w := by
  by_cases h : 16 ≤ w.toNat
  · have := (illegalWord_iff w).2 h
    simp [decodeCommand, this, Instr.wellFormed, encode]
  · obtain ⟨n, rfl, hn⟩ : ∃ n, w = BitVec.ofNat 32 n ∧ n < 16 := ⟨w.toNat, by simp, by omega⟩
    clear h
    interval_cases n <;> exact ⟨rfl, rfl⟩

/-- A command whose checks pass runs its body, and BUSY falls. -/
theorem run_body {i : Instr} {s u : State} (hd : exec i s = dispatch (execWord i) (execBody i) s) (he :
    s.err = .none)
   (hw : illegalWord (execWord i) = false) (ha : allowed ((execWord i).extractLsb' 0 8) s.mode = true)
       (hb : execBody i s = .ok u) :
   exec i s = .next u.endActivity := by rw [hd]; exact dispatch_next he hw ha hb

/-- The commands that every mode allows (R207). -/
theorem allowed_always {op : Byte} (h : op = 0x09 ∨ op = 0x0C ∨ op = 0x0D ∨ op = 0x0F) (m : Mode) :
    allowed op m = true := by
  rcases h with rfl | rfl | rfl | rfl <;> rfl

/-- A reference item, its checks passed. -/
theorem run_ref {s u : State} {off : BitVec 12} {lc : BitVec 4} (he : s.err = .none) (hm :
    s.mode = .decoding) (h8 : s.decBit ≠ 8)
   (hb : s.decCtrl.getLsbD s.decBit.val = false) (h : referenceItem s.cursor off lc s = .ok u) :
       exec (.ref off lc) s = .next u.endActivity := by
  refine run_body ?_ he (by simp only [execWord]; decide) (by rw [hm]; simp only [execWord]; decide) h
  simp only [exec, execRef]; rw [if_pos ⟨h8, hb⟩]; rfl

/-- A literal item, its checks passed. -/
theorem run_lit {s u : State} {v : Byte} (he : s.err = .none) (hm : s.mode = .decoding) (h8 : s.decBit ≠ 8)
   (hb : s.decCtrl.getLsbD s.decBit.val = true) (h : literalItem s.cursor v s = .ok u) :
       exec (.lit v) s = .next u.endActivity := by
  refine run_body ?_ he (by simp only [execWord]; decide) (by rw [hm]; simp only [execWord]; decide) h
  simp only [exec, execLit]; rw [if_pos ⟨h8, hb⟩]; rfl

/-- A control byte, its checks passed. -/
theorem run_ctrl {s u : State} {v : Byte} (he : s.err = .none) (hm : s.mode = .decoding) (h8 : s.decBit = 8)
   (h : groupItem v s = .ok u) : exec (.streamCtrl v) s = .next u.endActivity := by
  refine run_body ?_ he (by simp only [execWord]; decide) (by rw [hm]; simp only [execWord]; decide) h
  simp only [exec, execStreamCtrl]; rw [if_pos h8]; rfl

/-- The backset as an integer (R96). -/
theorem refBackset_int (n : Nat) (off : BitVec 12) : (refBackset n off : Int) = ((n :
    Int) - 18 - off.toNat) % 4096 := by
  unfold refBackset; omega

theorem ofNat_add1 (w : Word) : BitVec.ofNat 32 (w.toNat + 1) = w + 1 := by
  apply BitVec.eq_of_toNat_eq; simp [BitVec.toNat_add]

theorem ofNat_add2 (w : Word) : BitVec.ofNat 32 (w.toNat + 2) = w + 2 := by
  apply BitVec.eq_of_toNat_eq; simp [BitVec.toNat_add]

theorem bit_lt {s : State} (h8 : s.decBit ≠ 8) : s.decBit.val + 1 < 9 := by
  have := s.decBit.isLt
  have : s.decBit.val ≠ 8 := fun e => h8 (Fin.ext e)
  omega

/-- The bytes of a word, by index. -/
theorem leBytes_getD (w : Word) (a : Nat) (h : a < 4) :
    (leBytes w).getD a 0 = BitVec.ofNat 8 (w.toNat / 256 ^ a) := by
  apply BitVec.eq_of_toNat_eq
  interval_cases a <;> simp [leBytes, BitVec.extractLsb'_toNat, Nat.shiftRight_eq_div_pow]

/-- The bytes of a header, by index. -/
theorem header_getD (v w : Word) (a : Nat) (h : a < 8) : (leBytes v ++ leBytes w).getD a 0 =
   if a < 4 then BitVec.ofNat 8 (v.toNat / 256 ^ a) else BitVec.ofNat 8 (w.toNat / 256 ^ (a - 4)) := by
  by_cases h4 : a < 4
  · rw [if_pos h4, List.getD_append _ _ _ _ (by simpa [leBytes] using h4), leBytes_getD _ _ h4]
  · rw [if_neg h4, List.getD_append_right _ _ _ _ (by simpa [leBytes] using h4)]
    rw [show (leBytes v).length = 4 from rfl, leBytes_getD _ _ (by omega)]

theorem zeros_getD (a : Nat) : (List.replicate 8 (0 : Byte)).getD a 0 = 0 := by
  by_cases h : a < 8
  · interval_cases a <;> rfl
  · rw [List.getD_eq_default]; simpa using h

theorem twoPow_eq (n : Nat) (h : n < 8) : (1 : Byte) <<< n = BitVec.twoPow 8 n := by
  interval_cases n <;> rfl

theorem word_ofNat {w : Word} {n : Nat} (h : w.toNat = n) : w = BitVec.ofNat 32 n := by subst h; simp

/-- Outside the live range of R135. -/
theorem live_iff (s : State) (p : Nat) :
    s.liveRange p = false ↔ s.cur.toNat > p + 4095 ∨ p + 1 > s.cur.toNat := by
  simp [liveRange]; omega

/-- ENC_STEP with input left encodes the item of the search result. -/
theorem step_item {s : State} (h : s.Inv) (he : s.err = .none) (hm : s.mode = .encoding) (hc :
    s.cur.toNat < s.endPos)
   {m : Nat × Nat} (hf : findLongestMatch s.window s.cur.toNat s.index = .ok m) :
   ∃ t, exec .encStep s = .next t.endActivity ∧ ItemDone s m t ∧ (m = (2,0) ∨ 3 ≤ m.1 ∧ m.1 ≤ 18 ∧
       s.cur.toNat + m.1 ≤ s.endPos ∧ s.cur.toNat ≤ m.2 + 4095 ∧ m.2 < s.cur.toNat) := by
  obtain ⟨m', t, h1, h2, h3, h4, h5, h6⟩ := encodeItem_ok h hm hc
  obtain rfl : m = m' := Except.ok.inj (hf.symm.trans h1)
  refine ⟨t, ?_, h4, ?_⟩
  · refine run_body (i := .encStep) rfl he rfl (by rw [hm]; rfl) ?_
    exact (if_neg (by omega)).trans ((if_neg (by have := (h.run.encoding hm).fitsIn; omega)).trans h3)
  · rcases h2 with h2 | ⟨a, b, c, d, e, f⟩
    · exact .inl h2
    · exact .inr ⟨a, b, c, d, e⟩

/-- COMPRESS, its checks passed: the seeded window, the loop, then the header. -/
theorem run_compress {s : State} (h : s.Inv) (he : s.err = .none) (hi : s.inLen.toNat ≤ s.inCap.toNat)
   (ho : worstCase s.inLen.toNat ≤ s.outCap.toNat) : ∃ ix u t, seedFrom s.window 4095 1 .cleared = .ok ix ∧
      encLoop s.inLen.toNat (s.encStarted ix) = .ok u ∧ (s.encStarted ix).Inv ∧
      u.Inv ∧ u.mode = .encoding ∧ u.cur.toNat = s.endPos ∧ SameButItems (s.encStarted ix) u ∧
      Closed u t ∧ t.Inv ∧ exec .compress s = .next t.endActivity := by
  obtain ⟨ix, u, t, h1, h2, h3, h4, h5, h6, h7, h8, h9, h10⟩ := compressBody_ok h he hi ho
  exact ⟨ix, u, t, h1, h2, h3, h4, h5, h6, h7, h9, h10,
      run_body (i := .compress) rfl he rfl (allowed_always (by decide) _) h8⟩

/-- The header of a finished stream. -/
theorem closed_header {u t : State} (c : Closed u t) :
   leWord (t.outMem.read 0) (t.outMem.read 1) (t.outMem.read 2) (t.outMem.read 3) = u.outLen ∧
   leWord (t.outMem.read 4) (t.outMem.read 5) (t.outMem.read 6) (t.outMem.read 7) = u.inLen := by
  simp only [c.mem]
  exact ⟨leWord_leBytes _, leWord_leBytes _⟩

/-- A COMPRESS that raised no error went through its three parts. -/
theorem compress_inv {s t : State} (h : s.Inv) (he : s.err = .none) (hx : exec .compress s = .next t) (ht :
    t.err = .none) :
   ∃ ix u v, seedFrom s.window 4095 1 .cleared = .ok ix ∧
      encLoop s.inLen.toNat (s.encStarted ix) = .ok u ∧ (s.encStarted ix).Inv ∧
      u.Inv ∧ u.mode = .encoding ∧ SameButItems (s.encStarted ix) u ∧ Closed u v ∧ t = v.endActivity := by
  rcases encStartBody_cases h he with ⟨w, hb⟩ | ⟨hi, ho, _⟩
  · have hc : compressBody s = .ok (s.raise .allocationFailure w) := by simp [compressBody, hb]
    have := run_body (i := .compress) rfl he rfl (allowed_always (by decide) _) hc
    rw [hx] at this; cases this; simp at ht
  · obtain ⟨ix, u, v, h1, h2, h3, h4, h5, h6, h7, h9, h10, h11⟩ := run_compress h he hi ho
    rw [hx] at h11; cases h11
    exact ⟨ix, u, v, h1, h2, h3, h4, h5, h7, h9, rfl⟩

theorem idle_idle (s : State) : s.endActivity.endActivity = s.endActivity := rfl

/-- The loop of COMPRESS is ENC_STEP, repeated. -/
theorem repeat_enc (fuel : Nat) : ∀ {s u : State}, s.Inv → s.err = .none → s.mode = .encoding →
    encLoop fuel s = .ok u →
   ∃ n, repeatExec .encStep n s.endActivity = some u.endActivity := by
  induction fuel with
  | zero => intro s u _ _ _ h; cases h; exact ⟨0, rfl⟩
  | succ fuel ih =>
    intro s u hs he hm h
    unfold encLoop at h
    split at h
    · rename_i hc
      obtain ⟨m, t, _, _, h1, h2, h3, h4⟩ := encodeItem_ok hs hm hc
      rw [h1, Run.ok_bind] at h
      obtain ⟨n, hn⟩ := ih h3 (by rw [h2.same]; exact he) h4 h
      refine ⟨n + 1, ?_⟩
      have hb : execBody .encStep s.endActivity = .ok t.endActivity := by
        refine (if_neg (show ¬ s.cur.toNat ≥ s.endPos by omega)).trans ((if_neg (show ¬ s.inLen.toNat > s.inCap.toNat by have := (hs.run.encoding hm).fitsIn; omega)).trans ?_)
        rw [encodeItem_endActivity, h1]; rfl
      have := run_body (i := .encStep) (s := s.endActivity) rfl he rfl (by rw [endActivity_mode, hm]; rfl) hb
      simp only [repeatExec, this, idle_idle, hn]
    · cases h; exact ⟨0, rfl⟩

/-- A decode run is open only while no error is pending. -/
theorem decoding_err {s : State} (h : s.Inv) (hm : s.mode = .decoding) : s.err = .none := by
  by_contra hc
  have := h.run.errIdle hc
  rw [hm] at this; cases this

/-- The loop of DECOMPRESS is DEC_STEP, repeated while MODE = DECODING. -/
theorem repeat_dec (fuel : Nat) : ∀ {s u : State}, s.Inv → (s.mode = .decoding →
    s.decU.toNat ≤ s.outLen.toNat + fuel) → decLoop fuel s = .ok u →
   ∃ n, repeatExec .decStep n s.endActivity = some u.endActivity ∧ (∀ k v, k < n →
       repeatExec .decStep k s.endActivity = some v → v.mode = .decoding) := by
  induction fuel with
  | zero => intro s u hs hf h; cases h; exact ⟨0, rfl, fun k v hk => by omega⟩
  | succ fuel ih =>
    intro s u hs hf h
    unfold decLoop at h
    split at h
    · rename_i hm
      have he := decoding_err hs hm
      have hstep : ∀ t, decStepBody s = .ok t →
          exec .decStep s.endActivity = .next t.endActivity := fun t ht => by
        have hb : execBody .decStep s.endActivity = .ok t.endActivity := by
          show decStepBody _ = _
          rw [decStepBody_endActivity, ht]; rfl
        exact (run_body (i := .decStep) (s := s.endActivity) rfl he rfl (by rw [endActivity_mode, hm]; rfl) hb).trans rfl
      have key : ∀ t, decStepBody s = .ok t → t.Inv → (t.mode = .decoding →
          t.decU.toNat ≤ t.outLen.toNat + fuel) → ∃ n,
              repeatExec .decStep n s.endActivity = some u.endActivity ∧ (∀ k v, k < n →
                  repeatExec .decStep k s.endActivity = some v → v.mode = .decoding) := by
        intro t ht hti htf
        rw [ht, Run.ok_bind] at h
        obtain ⟨n, n1, n2⟩ := ih hti htf h
        refine ⟨n + 1, by simp only [repeatExec, hstep t ht, n1], fun k v hk hv => ?_⟩
        cases k with
        | zero => cases hv; exact hm
        | succ k =>
          simp only [repeatExec, hstep t ht] at hv
          exact n2 k v (by omega) hv
      rcases decStepBody_cases hs hm with ⟨e, w, hb⟩ | ⟨t, c, n, t1, t2, t3, t4, t5⟩
      · exact key _ hb (hs.raise _ _) (fun e => by cases e)
      · have hu : t.decU = s.decU := by rw [t2.rest]
        exact key _ t1 t5 (fun _ => by rw [hu, t2.outLen]; have := hf hm; omega)
    · cases h; exact ⟨0, rfl, fun k v hk => by omega⟩

/-- The decoder's loop on the rest of a group of literals. -/
theorem decLoop_literals (n : Nat) (hn8 : n ≤ 8) (fuel : Nat) : ∀ {d : State} {k : Nat}, d.Inv →
    d.mode = .decoding → d.outLen.toNat = k → d.decU.toNat = n →
   d.decInPtr.toNat = (if k = 0 then 8 else 9 + k) → (d.decBit.val = if k = 0 then 8 else k) → (k ≠ 0 →
       d.decCtrl = 0xFF) → d.inMem.read 8 = 0xFF → 9 + n ≤ d.inLen.toNat → n = k + fuel → 1 ≤ fuel →
   ∃ t, decLoop fuel d = .ok t ∧ t.outLen.toNat = n ∧ t.done = true ∧ t.mode = .idle ∧ t.err = d.err ∧
       t.decInPtr.toNat = 9 + n ∧ t.decBit.val = n ∧ t.decCtrl = 0xFF ∧
     ∀ a, t.outMem.read a = if k ≤ a ∧ a < n then d.inMem.read (9 + a) else d.outMem.read a := by
  induction fuel with
  | zero => intro d k _ _ _ _ _ _ _ _ _ _ h; omega
  | succ fuel ih =>
    intro d k hd hm hk hU hp hb hc h8 hl hf _
    have hdo := hd.run.decoding hm
    have hfit := hdo.fitsIn
    obtain ⟨t, t1, t2, t3⟩ := literalItem_ok hd hm ⟨9 + k, ⟨k, by omega⟩, 0xFF⟩ (d.inMem.read (9 + k))
    have hstep : decStepBody d = .ok t := by
      have hbit : (0xFF : Byte).getLsbD k = true := by
        have : k < 8 := by omega
        interval_cases k <;> rfl
      have hitem : itemAt ⟨9 + k, ⟨k, by omega⟩, 0xFF⟩ d = .ok t := by
        refine (if_pos hbit).trans ((if_neg (show ¬ 9 + k ≥ d.inLen.toNat by omega)).trans ?_)
        rw [readIn_ok (show 9 + k < _ by omega), Run.ok_bind, t1]
      unfold decStepBody
      by_cases h0 : k = 0
      · subst h0
        rw [if_pos rfl] at hp hb
        rw [if_pos (Fin.ext hb), hp, if_neg (by omega), readIn_ok (by omega), Run.ok_bind, h8, groupItem, hp]
        exact hitem
      · rw [if_neg h0] at hp hb
        rw [if_neg (fun e => by rw [e] at hb; simp at hb; omega)]
        have : d.cursor = ⟨9 + k, ⟨k, by omega⟩, 0xFF⟩ := by
          unfold cursor; rw [hp, hc h0]; congr 1; exact Fin.ext hb
        rw [this, hitem]
    have hto := t2.outLen
    have htU : t.decU = d.decU := by rw [t2.rest]
    have htI : t.inMem = d.inMem := by rw [t2.rest]
    have htL : t.inLen = d.inLen := by rw [t2.rest]
    have htE : t.err = d.err := by rw [t2.rest]
    have hP : t.decInPtr = BitVec.ofNat 32 (9 + k + 1) := by rw [t2.rest]
    have hB : t.decBit = Fin.ofNat 9 (k + 1) := by rw [t2.rest]
    have hC : t.decCtrl = 0xFF := by rw [t2.rest]
    have hPn : t.decInPtr.toNat = 9 + (k + 1) := by rw [hP]; simp; omega
    have hBn : t.decBit.val = k + 1 := by rw [hB]; simp [Fin.ofNat]; omega
    have hM : t.mode = if d.outLen.toNat + 1 = d.decU.toNat then .idle else d.mode := by rw [t2.rest]
    have hD : t.done = if d.outLen.toNat + 1 = d.decU.toNat then true else d.done := by rw [t2.rest]
    have hmem : ∀ a, t.outMem.read a = if a = k then d.inMem.read (9 + k) else d.outMem.read a := by
      intro a
      by_cases e : a = k
      · subst e; rw [if_pos rfl, ← hk] ; rw [hk] at *; exact t3
      · rw [if_neg e]
        rcases Nat.lt_or_ge a k with hlt | hge
        · exact t2.before a (by omega)
        · exact t2.after a (by omega)
    rw [decLoop, if_pos hm, hstep, Run.ok_bind]
    cases fuel with
    | zero =>
      refine ⟨t, rfl, by omega, by rw [hD, if_pos (by omega)], by rw [hM, if_pos (by omega)], htE, by omega, by omega, hC, fun a => ?_⟩
      rw [hmem]
      by_cases e : a = k
      · subst e; rw [if_pos rfl, if_pos (by omega)]
      · rw [if_neg e, if_neg (by omega)]
    | succ fuel =>
      rw [if_neg (by omega), hm] at hM
      obtain ⟨u, u1, u2, u3, u4, u5, u6, u7,
          u8, u9⟩ := ih (d := t) (k := k + 1) (t2.inv hd hm ⟨by simp only; omega, by simp only; omega⟩ (by omega)) hM (by omega) (by rw [htU]; exact hU) (by rw [if_neg (by omega)]; exact hPn) (by rw [if_neg (by omega)]; exact hBn) (fun _ => hC) (by rw [htI]; exact h8) (by rw [htL]; exact hl) (by omega) (by omega)
      refine ⟨u, u1, u2, u3, u4, u5.trans htE, u6, u7, u8, fun a => ?_⟩
      rw [u9, htI, hmem]
      by_cases e : a = k
      · subst e; rw [if_neg (by omega), if_pos rfl, if_pos (by omega)]
      · by_cases e2 : k + 1 ≤ a ∧ a < n
        · rw [if_pos e2, if_pos (by omega)]
        · rw [if_neg e2, if_neg e, if_neg (by omega)]

end Sys2Proof.Machine
end

