-- ==== Sys2Proof/Laws/Order.lean ====
section
/-! SUPPORT. Laws/Order.lean: the order of the tree (R43, R45, R46) under insert, remove and the loops, and what
the search finds on an ordered tree (R132). Keys are compared as numbers here. -/

namespace Sys2Proof.Machine

open Index

/-! ## Keys as numbers -/

/-- The n bytes from p on, as a number, the first byte most significant. -/
def Window.keyNum (w : Window) (p : Nat) : (n : Nat) → Nat
  | 0 => 0
  | n + 1 => (w.byte p).toNat * 256 ^ n + w.keyNum (p + 1) n

namespace Window

variable (w : Window)

theorem keyNum_lt (n : Nat) : ∀ p, w.keyNum p n < 256 ^ n := by
  induction n with
  | zero => intro p; simp [keyNum]
  | succ n ih =>
    intro p
    have h1 := ih (p + 1)
    have h2 := (w.byte p).isLt
    rw [keyNum, pow_succ]
    have h3 : (w.byte p).toNat * 256 ^ n ≤ 255 * 256 ^ n := Nat.mul_le_mul_right _ (by omega)
    omega

/-- Numeric order of the head bytes decides, else that of the tails. -/
theorem head_lt {a b x y M : Nat} (hx : x < M) (hy : y < M) :
    a * M + x < b * M + y ↔ a < b ∨ a = b ∧ x < y := by
  rcases Nat.lt_trichotomy a b with h | rfl | h
  · have : (a + 1) * M ≤ b * M := Nat.mul_le_mul_right _ h
    rw [Nat.add_mul, Nat.one_mul] at this
    omega
  · omega
  · have : (b + 1) * M ≤ a * M := Nat.mul_le_mul_right _ h
    rw [Nat.add_mul, Nat.one_mul] at this
    omega

/-- Numeric order is the order by the first differing byte (R43). -/
theorem keyNum_lt_iff (n : Nat) : ∀ p q, w.keyNum p n < w.keyNum q n ↔
    ∃ m, m < n ∧ (∀ i, i < m → w.byte (p + i) = w.byte (q + i)) ∧
      (w.byte (p + m)).toNat < (w.byte (q + m)).toNat := by
  induction n with
  | zero => intro p q; simp [keyNum]
  | succ n ih =>
    intro p q
    rw [keyNum, keyNum, head_lt (w.keyNum_lt n _) (w.keyNum_lt n _), ih]
    constructor
    · rintro (h | ⟨h, m, h1, h2, h3⟩)
      · exact ⟨0, by omega, fun i hi => by omega, by simpa using h⟩
      · refine ⟨m + 1, by omega, fun i hi => ?_, ?_⟩
        · cases i with
          | zero => exact BitVec.eq_of_toNat_eq h
          | succ i =>
            have := h2 i (by omega)
            rwa [Nat.add_right_comm, Nat.add_right_comm q] at this
        · rwa [Nat.add_right_comm, Nat.add_right_comm q] at h3
    · rintro ⟨m, h1, h2, h3⟩
      cases m with
      | zero => exact .inl (by simpa using h3)
      | succ m =>
        refine .inr ⟨congrArg BitVec.toNat (h2 0 (by omega)), m, by omega, fun i hi => ?_, ?_⟩
        · have := h2 (i + 1) (by omega)
          rwa [Nat.add_right_comm, Nat.add_right_comm q]
        · rwa [Nat.add_right_comm, Nat.add_right_comm q]

/-- Equal numbers are equal keys (R43). -/
theorem keyNum_eq_iff (n : Nat) : ∀ p q, w.keyNum p n = w.keyNum q n ↔
    ∀ i, i < n → w.byte (p + i) = w.byte (q + i) := by
  induction n with
  | zero => intro p q; simp [keyNum]
  | succ n ih =>
    intro p q
    have h : w.keyNum p (n + 1) = w.keyNum q (n + 1) ↔
        (w.byte p).toNat = (w.byte q).toNat ∧ w.keyNum (p + 1) n = w.keyNum (q + 1) n := by
      have h1 := @head_lt (w.byte p).toNat (w.byte q).toNat _ _ _ (w.keyNum_lt n (p + 1)) (w.keyNum_lt n (q + 1))
      have h2 := @head_lt (w.byte q).toNat (w.byte p).toNat _ _ _ (w.keyNum_lt n (q + 1)) (w.keyNum_lt n (p + 1))
      rw [keyNum, keyNum]
      omega
    rw [h, ih]
    constructor
    · rintro ⟨h1, h2⟩ i hi
      cases i with
      | zero => exact BitVec.eq_of_toNat_eq h1
      | succ i =>
        have := h2 i (by omega)
        rwa [Nat.add_right_comm, Nat.add_right_comm q] at this
    · intro h
      refine ⟨congrArg BitVec.toNat (h 0 (by omega)), fun i hi => ?_⟩
      have := h (i + 1) (by omega)
      rwa [Nat.add_right_comm, Nat.add_right_comm q]

theorem keyLt_iff (p q : Nat) : w.KeyLt p q ↔ w.keyNum p 18 < w.keyNum q 18 :=
  (w.keyNum_lt_iff 18 p q).symm

theorem keyEq_iff (p q : Nat) : w.KeyEq p q ↔ w.keyNum p 18 = w.keyNum q 18 :=
  (w.keyNum_eq_iff 18 p q).symm

end Window

/-- Where a comparison that stops early stops, the bytes differ, in the direction it tells (R121). -/
theorem cmpFrom_dir (w : Window) (a b rem : Nat) : ∀ m,
    ((cmpFrom w a b rem m).1 = m + rem ∧ (cmpFrom w a b rem m).2 = .equal) ∨
    ((cmpFrom w a b rem m).1 < m + rem ∧
      ((w.byte (a + (cmpFrom w a b rem m).1)).toNat < (w.byte (b + (cmpFrom w a b rem m).1)).toNat ∧
        (cmpFrom w a b rem m).2 = .less ∨
      (w.byte (b + (cmpFrom w a b rem m).1)).toNat < (w.byte (a + (cmpFrom w a b rem m).1)).toNat ∧
        (cmpFrom w a b rem m).2 = .greater)) := by
  induction rem with
  | zero => intro m; exact .inl ⟨rfl, rfl⟩
  | succ rem ih =>
    intro m
    unfold cmpFrom
    split
    · have := ih (m + 1)
      rwa [show m + 1 + rem = m + (rem + 1) by omega] at this
    · rename_i hne
      refine .inr ⟨by simp, ?_⟩
      have hne' : (w.byte (a + m)).toNat ≠ (w.byte (b + m)).toNat := fun e => hne (BitVec.eq_of_toNat_eq e)
      by_cases h : w.byte (a + m) < w.byte (b + m)
      · exact .inl ⟨h, by simp [h]⟩
      · refine .inr ⟨?_, by simp [h]⟩
        have : ¬ (w.byte (a + m)).toNat < (w.byte (b + m)).toNat := h
        simp only
        omega

/-- Where cmpKey stops early, the bytes differ, in the direction it tells (R121). -/
theorem cmpKey_stop (w : Window) (a b n : Nat) :
    ((cmpKey w a b n).1 = n ∧ (cmpKey w a b n).2 = .equal) ∨
    ((cmpKey w a b n).1 < n ∧
      ((w.byte (a + (cmpKey w a b n).1)).toNat < (w.byte (b + (cmpKey w a b n).1)).toNat ∧
        (cmpKey w a b n).2 = .less ∨
      (w.byte (b + (cmpKey w a b n).1)).toNat < (w.byte (a + (cmpKey w a b n).1)).toNat ∧
        (cmpKey w a b n).2 = .greater)) := by
  have h := cmpFrom_dir w a b n 0
  rw [Nat.zero_add] at h
  exact h

/-- cmpKey's direction is the order of the compared bytes as numbers (R121, R43). -/
theorem cmpKey_dir (w : Window) (a b n : Nat) :
    ((cmpKey w a b n).2 = .equal ∧ w.keyNum a n = w.keyNum b n) ∨
    ((cmpKey w a b n).2 = .less ∧ w.keyNum a n < w.keyNum b n) ∨
    ((cmpKey w a b n).2 = .greater ∧ w.keyNum b n < w.keyNum a n) := by
  obtain ⟨_, hp⟩ := cmpKey_spec w a b n
  rcases cmpKey_stop w a b n with ⟨h1, h2⟩ | ⟨h1, ⟨h2, h3⟩ | ⟨h2, h3⟩⟩
  · exact .inl ⟨h2, (w.keyNum_eq_iff n a b).2 fun i hi => hp i (by rw [h1]; exact hi)⟩
  · exact .inr (.inl ⟨h3, (w.keyNum_lt_iff n a b).2 ⟨_, h1, hp, h2⟩⟩)
  · exact .inr (.inr ⟨h3, (w.keyNum_lt_iff n b a).2 ⟨_, h1, fun i hi => (hp i hi).symm, h2⟩⟩)

/-! ## Subtrees -/

namespace Index

variable {ix : Index} {rank : Slot → Nat} {k : Slot → Nat}

theorem Under.trans {a b c : Slot} (h : ix.Under a b) (h' : ix.Under b c) : ix.Under a c := by
  induction h with
  | here => exact h'
  | left e _ ih => exact .left e (ih h')
  | right e _ ih => exact .right e (ih h')

theorem Under.rank_le (ht : ix.IsTree rank) {a b : Slot} (h : ix.Under a b) : rank a ≤ rank b := by
  induction h with
  | here => exact Nat.le_refl _
  | left e _ ih => have := (ht.left_child e).2; omega
  | right e _ ih => have := (ht.right_child e).2; omega

/-- A slot under c is c, or its parent is under c. -/
theorem Under.parent (ht : ix.IsTree rank) {c t : Slot} (h : ix.Under c t) :
    t = c ∨ ∃ p, ix.parent t = .slot p ∧ ix.Under c p := by
  induction h with
  | here => exact .inl rfl
  | @left q d t e _ ih =>
    rcases ih with rfl | ⟨p, hp, hu⟩
    · exact .inr ⟨q, (ht.left_child e).1, .here q⟩
    · exact .inr ⟨p, hp, .left e hu⟩
  | @right q d t e _ ih =>
    rcases ih with rfl | ⟨p, hp, hu⟩
    · exact .inr ⟨q, (ht.right_child e).1, .here q⟩
    · exact .inr ⟨p, hp, .right e hu⟩

/-- Every occupied slot is under the root (R44). -/
theorem IsTree.under_root (ht : ix.IsTree rank) : ∀ (n : Nat) (t : Slot), rank t ≤ n → ix.parent t ≠ .nil →
    ∃ r, ix.root = .slot r ∧ ix.Under r t := by
  intro n
  induction n with
  | zero =>
    intro t hn hp
    cases e : ix.parent t with
    | nil => exact absurd e hp
    | rootMark => exact ⟨t, ht.rootOnly t e, .here t⟩
    | slot p => have := ht.ranked t p e; omega
  | succ n ih =>
    intro t hn hp
    cases e : ix.parent t with
    | nil => exact absurd e hp
    | rootMark => exact ⟨t, ht.rootOnly t e, .here t⟩
    | slot p =>
      obtain ⟨h1, h2⟩ := ht.isChild t p e
      obtain ⟨r, hr, hu⟩ := ih p (by have := ht.ranked t p e; omega) h1
      refine ⟨r, hr, hu.trans ?_⟩
      rcases h2 with h2 | h2
      · exact .left h2 (.here t)
      · exact .right h2 (.here t)

/-! ## The order, and bounds that certify it -/

/-- The binary search tree property for numeric keys (R45). -/
structure Sorted (ix : Index) (k : Slot → Nat) : Prop where
  left : ∀ q c t, ix.left q = .slot c → ix.Under c t → k t < k q
  right : ∀ q c t, ix.right q = .slot c → ix.Under c t → k q < k t

/-- Bounds on the keys under each slot: a certificate of the order that is local to each link. -/
structure Bounds (ix : Index) (k lo hi : Slot → Nat) : Prop where
  here : ∀ q, lo q ≤ k q ∧ k q ≤ hi q
  left : ∀ q c, ix.left q = .slot c → lo q ≤ lo c ∧ hi c < k q
  right : ∀ q c, ix.right q = .slot c → k q < lo c ∧ hi c ≤ hi q

theorem Bounds.under {lo hi : Slot → Nat} (h : ix.Bounds k lo hi) {q t : Slot} (hu : ix.Under q t) :
    lo q ≤ lo t ∧ hi t ≤ hi q := by
  induction hu with
  | here => exact ⟨Nat.le_refl _, Nat.le_refl _⟩
  | @left q c t e _ ih => have := h.left q c e; have := h.here q; omega
  | @right q c t e _ ih => have := h.right q c e; have := h.here q; omega

theorem Bounds.sorted {lo hi : Slot → Nat} (h : ix.Bounds k lo hi) : ix.Sorted k := by
  refine ⟨fun q c t e hu => ?_, fun q c t e hu => ?_⟩
  · have := h.left q c e; have := h.under hu; have := h.here t; omega
  · have := h.right q c e; have := h.under hu; have := h.here t; omega

theorem Sorted.bounds (h : ix.Sorted k) : ∃ lo hi, ix.Bounds k lo hi := by
  let S : Slot → Set Nat := fun q => k '' { t | ix.Under q t }
  have mem : ∀ {q t}, ix.Under q t → k t ∈ S q := fun hu => ⟨_, hu, rfl⟩
  have fin : ∀ q, BddAbove (S q) := fun q => (Set.toFinite _).bddAbove
  have ne : ∀ q, (S q).Nonempty := fun q => ⟨_, mem (.here q)⟩
  refine ⟨fun q => sInf (S q), fun q => sSup (S q), fun q => ?_, fun q c e => ?_, fun q c e => ?_⟩
  · exact ⟨Nat.sInf_le (mem (.here q)), le_csSup (fin q) (mem (.here q))⟩
  · obtain ⟨t, ht, e1⟩ := Nat.sInf_mem (ne c)
    obtain ⟨t', ht', e2⟩ := Nat.sSup_mem (ne c) (fin c)
    refine ⟨?_, ?_⟩
    · show sInf (S q) ≤ sInf (S c)
      rw [← e1]; exact Nat.sInf_le (mem (.left e ht))
    · show sSup (S c) < k q
      rw [← e2]; exact h.left q c t' e ht'
  · obtain ⟨t, ht, e1⟩ := Nat.sInf_mem (ne c)
    obtain ⟨t', ht', e2⟩ := Nat.sSup_mem (ne c) (fin c)
    refine ⟨?_, ?_⟩
    · show k q < sInf (S c)
      rw [← e1]; exact h.right q c t e ht
    · show sSup (S c) ≤ sSup (S q)
      rw [← e2]; exact le_csSup (fin q) (mem (.right e ht'))

/-- The order depends on the child links and the keys of occupied slots alone. -/
theorem Sorted.congr {jx : Index} {k' : Slot → Nat} (h : ix.Sorted k) (hl : ∀ t, jx.left t = ix.left t)
    (hr : ∀ t, jx.right t = ix.right t) (hk : ∀ t c, ix.left t = .slot c ∨ ix.right t = .slot c →
      k' t = k t ∧ ∀ u, ix.Under c u → k' u = k u) : jx.Sorted k' := by
  have hu : ∀ {a b}, jx.Under a b → ix.Under a b := fun hu => by
    induction hu with
    | here => exact .here _
    | left e _ ih => exact .left ((hl _).symm.trans e) ih
    | right e _ ih => exact .right ((hr _).symm.trans e) ih
  refine ⟨fun q c t e u => ?_, fun q c t e u => ?_⟩
  · rw [hl] at e
    obtain ⟨h1, h2⟩ := hk q c (.inl e)
    rw [h1, h2 t (hu u)]
    exact h.left q c t e (hu u)
  · rw [hr] at e
    obtain ⟨h1, h2⟩ := hk q c (.inr e)
    rw [h1, h2 t (hu u)]
    exact h.right q c t e (hu u)

theorem Sorted.empty {lx : Index} (hl : ∀ t, lx.left t = .nil) (hr : ∀ t, lx.right t = .nil) : lx.Sorted k :=
  ⟨fun q c t e _ => (by simp [hl] at e), fun q c t e _ => (by simp [hr] at e)⟩

/-! ## Remove keeps the order -/

theorem Sorted.splice (h : ix.Sorted k) (ht : ix.IsTree rank) {s : Slot} {y : Link}
    (hc : ix.left s = .nil ∧ y = ix.right s ∨ ix.right s = .nil ∧ y = ix.left s) :
    ((ix.relink s y).clear s).Sorted k := by
  obtain ⟨lo, hi, hb⟩ := h.bounds
  have hs := hb.here s
  refine Bounds.sorted (lo := lo) (hi := hi) ⟨hb.here, fun q c e => ?_, fun q c e => ?_⟩
  · rw [ht.left_splice] at e
    have b1 := hb.left q
    have b2 := hb.left s
    have b3 := hb.right s
    grind
  · rw [ht.right_splice] at e
    have b1 := hb.right q
    have b2 := hb.left s
    have b3 := hb.right s
    grind

theorem Sorted.promotedChild (h : ix.Sorted k) (ht : ix.IsTree rank) {s y l : Slot}
    (hl : ix.left s = .slot l) (hr : ix.right s = .slot y) (hy : ix.left y = .nil) :
    (ix.promotedChild s y).Sorted k := by
  obtain ⟨lo, hi, hb⟩ := h.bounds
  have hs := hb.here s
  have hyk := hb.here y
  have b2 := hb.left s l hl
  have b3 := hb.right s y hr
  have hne : y ≠ s := by rintro rfl; omega
  refine Bounds.sorted (lo := fun t => if t = y then lo s else lo t)
    (hi := fun t => if t = y then hi s else hi t) ⟨fun q => ?_, fun q c e => ?_, fun q c e => ?_⟩
  · have := hb.here q
    by_cases e : q = y
    · subst e; simp only [if_true]; omega
    · simpa only [e, if_false] using this
  · rw [ht.left_promotedChild hl hr] at e
    have b1 := hb.left q
    have hly : l ≠ y := fun e => ht.childOnce s y (e ▸ hl) hr
    have hyp := (ht.right_child hr).1
    have k1 := fun e : ix.left q = .slot y => (ht.left_child e).1
    grind
  · rw [ht.right_promotedChild hl hr] at e
    have b1 := hb.right q
    have hyp := (ht.right_child hr).1
    have k1 := fun e : ix.right q = .slot y => (ht.right_child e).1
    grind

/-- The leftmost slot under r is under r, and has the least key there. -/
theorem Sorted.leftmost_min (h : ix.Sorted k) (fuel : Nat) : ∀ {r y : Slot}, leftmost ix fuel r = .ok y →
    ix.Under r y ∧ ∀ a, ix.Under r a → a = y ∨ k y < k a := by
  induction fuel with
  | zero => intro r y e; cases e
  | succ fuel ih =>
    intro r y e
    unfold leftmost at e
    split at e
    · rename_i hl
      cases e
      refine ⟨.here _, fun a ha => ?_⟩
      cases ha with
      | here => exact .inl rfl
      | left e _ => simp [hl] at e
      | right e hu => exact .inr (h.right _ _ _ e hu)
    · cases e
    · rename_i c hl
      obtain ⟨h1, h2⟩ := ih e
      have hyr := h.left r c y hl h1
      refine ⟨.left hl h1, fun a ha => ?_⟩
      cases ha with
      | here => exact .inr hyr
      | left e hu =>
        rw [hl] at e
        cases e
        exact h2 a hu
      | right e hu => exact .inr (Nat.lt_trans hyr (h.right _ _ _ e hu))

theorem Sorted.promotedDeep (h : ix.Sorted k) (ht : ix.IsTree rank) {s y l r p : Slot} (hs : ix.parent s ≠ .nil)
    (hl : ix.left s = .slot l) (hr : ix.right s = .slot r) (hy : ix.left y = .nil)
    (hm : leftmost ix 4096 r = .ok y) (hp : ix.parent y = .slot p) (hpy : ix.left p = .slot y)
    (hps : p ≠ s) (hpl : p ≠ l) (hyr : rank r < rank y) (hsy : rank s < rank p) :
    (ix.promotedDeep s y).Sorted k := by
  obtain ⟨lo, hi, hb⟩ := h.bounds
  obtain ⟨_, hL, hR, _⟩ := ht.promotedDeep_links hs hl hr hy hp hpy hps hpl hyr hsy
  obtain ⟨hry, hmin⟩ := h.leftmost_min 4096 hm
  have hsk := hb.here s
  have hyk := hb.here y
  have b2 := hb.left s l hl
  have b3 := hb.right s r hr
  have b4 := hb.left p y hpy
  have b5 := hb.under hry
  have hky : k s < k y := h.right s r y hr hry
  have hsr := (ht.right_child hr).2
  have hns : ¬ ix.Under r s := fun hu => by have := hu.rank_le ht; omega
  have hys : y ≠ s := by rintro rfl; omega
  have hyne : y ≠ r := by rintro rfl; omega
  have edgeL : ∀ {q c}, ix.left q = .slot c → ix.Under r q → ix.Under r c :=
    fun e hu => hu.trans (.left e (.here _))
  have edgeR : ∀ {q c}, ix.right q = .slot c → ix.Under r q → ix.Under r c :=
    fun e hu => hu.trans (.right e (.here _))
  have onlyL : ∀ q, ix.left q = .slot y → q = p := fun q e => by
    have := (ht.left_child e).1; rw [hp] at this; cases this; rfl
  have onlyR : ∀ q, ix.right q ≠ .slot y := fun q e => by
    have := (ht.right_child e).1; rw [hp] at this; cases this
    exact ht.childOnce _ _ hpy e
  have onlyLs : ∀ q, ix.left q = .slot s → ¬ ix.Under r q := fun q e hu => hns (edgeL e hu)
  have onlyRs : ∀ q, ix.right q = .slot s → ¬ ix.Under r q := fun q e hu => hns (edgeR e hu)
  classical
  let lo' : Slot → Nat := fun t => if t = y then lo s else if ix.Under r t then max (lo t) (k y + 1) else lo t
  let hi' : Slot → Nat := fun t => if t = y then hi s else hi t
  have loy : lo' y = lo s := if_pos rfl
  have hiy : hi' y = hi s := if_pos rfl
  have lon : ∀ t, t ≠ y → lo' t = if ix.Under r t then max (lo t) (k y + 1) else lo t := fun t e => if_neg e
  have hin : ∀ t, t ≠ y → hi' t = hi t := fun t e => if_neg e
  -- an old link whose ends are not y keeps its bounds
  have oldL : ∀ q c, ix.left q = .slot c → q ≠ y → c ≠ y → lo' q ≤ lo' c ∧ hi' c < k q := by
    intro q c e hq hc
    have b := hb.left q c e
    rw [lon q hq, lon c hc, hin c hc]
    by_cases hu : ix.Under r q
    · rw [if_pos hu, if_pos (edgeL e hu)]; omega
    · rw [if_neg hu]
      split <;> omega
  have oldR : ∀ q c, ix.right q = .slot c → q ≠ y → c ≠ y → k q < lo' c ∧ hi' c ≤ hi' q := by
    intro q c e hq hc
    have b := hb.right q c e
    rw [lon c hc, hin c hc, hin q hq]
    split <;> omega
  refine Bounds.sorted (lo := lo') (hi := hi') ⟨fun q => ?_, fun q c e => ?_, fun q c e => ?_⟩
  · by_cases e : q = y
    · subst e; rw [loy, hiy]; omega
    · have b := hb.here q
      rw [lon q e, hin q e]
      split
      · rename_i hu
        have := (hmin q hu).resolve_left e
        omega
      · exact b
  · rw [hL] at e
    split_ifs at e with e1 e2 e3 e4
    · -- y's left link is that of s
      subst e2
      rw [hl] at e; cases e
      have hne : l ≠ q := by rintro rfl; have := (ht.left_child hl).1; rw [hp] at this; cases this; exact hps rfl
      rw [loy, lon l hne, hin l hne]
      split <;> omega
    · -- p's left link is the right link of y
      subst e3
      have hne : c ≠ y := fun e' => onlyR y (e' ▸ e)
      have b := hb.right y c e
      have hup : ix.Under r q := by
        rcases hry.parent ht with h1 | ⟨p', h1, h2⟩
        · exact absurd h1 hyne
        · rw [hp] at h1; cases h1; exact h2
      rw [lon q e2, if_pos hup, lon c hne, if_pos (hry.trans (.right e (.here c))), hin c hne]
      omega
    · cases e
      have b := hb.left q s e4
      rw [loy, hiy, lon q e2, if_neg (onlyLs q e4)]
      exact b
    · exact oldL q c e e2 (fun e' => e3 (onlyL q (e' ▸ e)))
  · rw [hR] at e
    split_ifs at e with e1 e2 e3
    · subst e2
      rw [hr] at e; cases e
      rw [hiy, lon r (Ne.symm hyne), if_pos (.here r), hin r (Ne.symm hyne)]
      omega
    · cases e
      have b := hb.right q s e3
      rw [loy, hiy, hin q e2]
      exact b
    · exact oldR q c e e2 (fun e' => onlyR q (e' ▸ e))

theorem Sorted.removed {ix' : Index} {s : Slot} (h : ix.Sorted k) (ht : ix.IsTree rank) (hs : ix.parent s ≠ .nil)
    (hr : Removed ix rank s ix') : ix'.Sorted k := by
  cases hr with
  | splice y hy hc => exact h.splice ht hc
  | child l y hl hr hy => exact h.promotedChild ht hl hr hy
  | deep l r y p hl hr hy hm hp hpy hps hpl hry hsp => exact h.promotedDeep ht hs hl hr hy hm hp hpy hps hpl hry hsp

/-- `remove(s)` keeps the order (R124, R125, R45). -/
theorem Sorted.remove {ix' : Index} {s : Slot} (h : ix.Sorted k) (ht : ix.TreeShape) (hs : ix.parent s ≠ .nil)
    (e : remove s ix = .ok ix') : ix'.Sorted k := by
  obtain ⟨rank, ht⟩ := ht
  obtain ⟨jx, h1, h2⟩ := remove_forms ht hs
  rw [e] at h1; cases h1
  exact h.removed ht hs h2

/-! ## Insert keeps the order -/

/-- The keys along the path to q stand on either side of x as the path turned. -/
def PathOk (ix : Index) (k : Slot → Nat) (x : Nat) (q : Slot) : Prop :=
  ∀ a c, ix.Under c q → (ix.left a = .slot c → x < k a) ∧ (ix.right a = .slot c → k a < x)

/-- A new leaf s under q keeps the order, when its key lies on the right side of every key on the path. -/
theorem Sorted.attach {jx : Index} {q s : Slot} (h : ix.Sorted k) (ht : ix.IsTree rank) (hs : ix.parent s = .nil)
    (hq : ix.parent q ≠ .nil) (hp : ix.PathOk k (k s) q)
    (hlr : (k s < k q ∧ ix.left q = .nil ∧ (∀ t, jx.left t = if t = q then .slot s else ix.left t) ∧
        ∀ t, jx.right t = ix.right t) ∨
      (k q < k s ∧ ix.right q = .nil ∧ (∀ t, jx.left t = ix.left t) ∧
        ∀ t, jx.right t = if t = q then .slot s else ix.right t)) : jx.Sorted k := by
  obtain ⟨lo, hi, hb⟩ := h.bounds
  have hqs : q ≠ s := by rintro rfl; exact hq hs
  obtain ⟨sl, sr⟩ := ht.emptySlot s hs
  have nL : ∀ t, ix.left t ≠ .slot s := fun t e => by have := (ht.left_child e).1; simp [hs] at this
  have nR : ∀ t, ix.right t ≠ .slot s := fun t e => by have := (ht.right_child e).1; simp [hs] at this
  have edgeL : ∀ {a c}, ix.left a = .slot c → ix.Under c q → ix.Under a q := fun e hu => .left e hu
  have edgeR : ∀ {a c}, ix.right a = .slot c → ix.Under c q → ix.Under a q := fun e hu => .right e hu
  classical
  let lo' : Slot → Nat := fun t => if t = s then k s else if ix.Under t q then min (lo t) (k s) else lo t
  let hi' : Slot → Nat := fun t => if t = s then k s else if ix.Under t q then max (hi t) (k s) else hi t
  have los : lo' s = k s := if_pos rfl
  have his : hi' s = k s := if_pos rfl
  have lon : ∀ t, t ≠ s → lo' t = if ix.Under t q then min (lo t) (k s) else lo t := fun t e => if_neg e
  have hin : ∀ t, t ≠ s → hi' t = if ix.Under t q then max (hi t) (k s) else hi t := fun t e => if_neg e
  have oldL : ∀ a c, ix.left a = .slot c → lo' a ≤ lo' c ∧ hi' c < k a := by
    intro a c e
    have ha : a ≠ s := by rintro rfl; simp [sl] at e
    have hc : c ≠ s := fun e' => nL a (e' ▸ e)
    have b := hb.left a c e
    rw [lon a ha, lon c hc, hin c hc]
    by_cases hu : ix.Under c q
    · have := (hp a c hu).1 e
      rw [if_pos hu, if_pos (edgeL e hu), if_pos hu]; omega
    · rw [if_neg hu, if_neg hu]
      split <;> omega
  have oldR : ∀ a c, ix.right a = .slot c → k a < lo' c ∧ hi' c ≤ hi' a := by
    intro a c e
    have ha : a ≠ s := by rintro rfl; simp [sr] at e
    have hc : c ≠ s := fun e' => nR a (e' ▸ e)
    have b := hb.right a c e
    rw [lon c hc, hin c hc, hin a ha]
    by_cases hu : ix.Under c q
    · have := (hp a c hu).2 e
      rw [if_pos hu, if_pos hu, if_pos (edgeR e hu)]; omega
    · rw [if_neg hu, if_neg hu]
      split <;> omega
  refine Bounds.sorted (lo := lo') (hi := hi') ⟨fun t => ?_, fun a c e => ?_, fun a c e => ?_⟩
  · by_cases e : t = s
    · subst e; rw [los, his]; exact ⟨Nat.le_refl _, Nat.le_refl _⟩
    · have := hb.here t
      rw [lon t e, hin t e]
      split <;> omega
  · rcases hlr with ⟨h1, h2, h3, h4⟩ | ⟨h1, h2, h3, h4⟩
    · rw [h3] at e
      split at e
      · rename_i e1
        subst e1
        cases e
        rw [los, his, lon a hqs, if_pos (.here a)]
        omega
      · exact oldL a c e
    · rw [h3] at e; exact oldL a c e
  · rcases hlr with ⟨h1, h2, h3, h4⟩ | ⟨h1, h2, h3, h4⟩
    · rw [h4] at e; exact oldR a c e
    · rw [h4] at e
      split at e
      · rename_i e1
        subst e1
        cases e
        rw [los, his, hin a hqs, if_pos (.here a)]
        omega
      · exact oldR a c e

/-- Slot s in the place of q, with an equal key, keeps the order (R123). -/
theorem Sorted.substituted {q s : Slot} (h : ix.Sorted k) (ht : ix.IsTree rank) (hq : ix.parent q ≠ .nil)
    (hs : ix.parent s = .nil) (hk : k q = k s) : (ix.substituted q s).Sorted k := by
  obtain ⟨lo, hi, hb⟩ := h.bounds
  have hqs : q ≠ s := by rintro rfl; exact hq hs
  obtain ⟨sl, sr⟩ := ht.emptySlot s hs
  have nL : ∀ t, ix.left t ≠ .slot s := fun t e => by have := (ht.left_child e).1; simp [hs] at this
  have nR : ∀ t, ix.right t ≠ .slot s := fun t e => by have := (ht.right_child e).1; simp [hs] at this
  have noL : ix.left q ≠ .slot q := fun e => by have := (ht.left_child e).2; omega
  have noR : ix.right q ≠ .slot q := fun e => by have := (ht.right_child e).2; omega
  have bq := hb.here q
  refine Bounds.sorted (lo := fun t => if t = s then lo q else lo t) (hi := fun t => if t = s then hi q else hi t)
    ⟨fun t => ?_, fun a c e => ?_, fun a c e => ?_⟩
  · have := hb.here t
    by_cases e : t = s
    · subst e; simp only [if_true]; omega
    · simpa only [e, if_false] using this
  · rw [ht.left_substituted hq hs] at e
    have b1 := hb.left a
    have b2 := hb.left q
    have n1 := nL a
    have n2 := nL q
    grind
  · rw [ht.right_substituted hq hs] at e
    have b1 := hb.right a
    have b2 := hb.right q
    have n1 := nR a
    have n2 := nR q
    grind

/-- Where the descent for key x ends, on an ordered tree (R123). -/
theorem Sorted.descend (h : ix.Sorted k) (ht : ix.IsTree rank) {w : Window} {cur p : Nat}
    (hk : ∀ t, k t = w.keyNum (posOf cur t) 18) (fuel : Nat) : ∀ {q : Slot} {place : Place},
    descend w cur p ix fuel q = .ok place → ix.parent q ≠ .nil → ix.PathOk k (w.keyNum p 18) q →
    (∀ t, ix.parent t ≠ .nil → k t = w.keyNum p 18 → ix.Under q t) →
    match place with
    | .equal q => ix.parent q ≠ .nil ∧ k q = w.keyNum p 18 ∧
        ∀ t, ix.parent t ≠ .nil → k t = w.keyNum p 18 → t = q
    | .left q => ix.parent q ≠ .nil ∧ w.keyNum p 18 < k q ∧ ix.left q = .nil ∧
        ix.PathOk k (w.keyNum p 18) q ∧ ∀ t, ix.parent t ≠ .nil → k t ≠ w.keyNum p 18
    | .right q => ix.parent q ≠ .nil ∧ k q < w.keyNum p 18 ∧ ix.right q = .nil ∧
        ix.PathOk k (w.keyNum p 18) q ∧ ∀ t, ix.parent t ≠ .nil → k t ≠ w.keyNum p 18 := by
  generalize hx : w.keyNum p 18 = x
  induction fuel with
  | zero => intro q place e; cases e
  | succ fuel ih =>
    intro q place e hq hp hin
    have step : ∀ c, ix.left q = .slot c ∧ x < k q ∨ ix.right q = .slot c ∧ k q < x →
        Machine.descend w cur p ix fuel c = .ok place → ix.parent c ≠ .nil ∧ ix.PathOk k x c ∧
          ∀ t, ix.parent t ≠ .nil → k t = x → ix.Under c t := by
      intro c hc e
      have hpar : ix.parent c = .slot q := by
        rcases hc with ⟨hc, _⟩ | ⟨hc, _⟩
        · exact (ht.left_child hc).1
        · exact (ht.right_child hc).1
      refine ⟨by simp [hpar], fun a d hu => ?_, fun t h1 h2 => ?_⟩
      · rcases hu.parent ht with rfl | ⟨p', hp', hu'⟩
        · refine ⟨fun ea => ?_, fun ea => ?_⟩
          · have := (ht.left_child ea).1
            rw [hpar] at this; cases this
            rcases hc with ⟨_, hc⟩ | ⟨hc, _⟩
            · exact hc
            · exact absurd hc (ht.childOnce _ _ ea)
          · have := (ht.right_child ea).1
            rw [hpar] at this; cases this
            rcases hc with ⟨hc, _⟩ | ⟨_, hc⟩
            · exact absurd ea (ht.childOnce _ _ hc)
            · exact hc
        · rw [hpar] at hp'; cases hp'
          exact hp a d hu'
      · have hu := hin t h1 h2
        cases hu with
        | here => omega
        | left el hu =>
          have := h.left _ _ _ el hu
          rcases hc with ⟨hc, _⟩ | ⟨_, hc⟩
          · rw [hc] at el; cases el; exact hu
          · omega
        | right er hu =>
          have := h.right _ _ _ er hu
          rcases hc with ⟨_, hc⟩ | ⟨hc, _⟩
          · omega
          · rw [hc] at er; cases er; exact hu
    unfold Machine.descend at e
    have hd := cmpKey_dir w p (posOf cur q) 18
    rw [← hk, hx] at hd
    rcases hd with ⟨hd, hc⟩ | ⟨hd, hc⟩ | ⟨hd, hc⟩
    · rw [hd] at e
      cases e
      refine ⟨hq, hc.symm, fun t h1 h2 => ?_⟩
      cases hin t h1 h2 with
      | here => rfl
      | left el hu => have := h.left _ _ _ el hu; omega
      | right er hu => have := h.right _ _ _ er hu; omega
    · rw [hd] at e
      simp only at e
      split at e
      · rename_i hl
        cases e
        refine ⟨hq, hc, hl, hp, fun t h1 h2 => ?_⟩
        cases hin t h1 h2 with
        | here => omega
        | left el hu => simp [hl] at el
        | right er hu => have := h.right _ _ _ er hu; omega
      · cases e
      · rename_i c hl
        obtain ⟨h1, h2, h3⟩ := step c (.inl ⟨hl, hc⟩) e
        exact ih e h1 h2 h3
    · rw [hd] at e
      simp only at e
      split at e
      · rename_i hl
        cases e
        refine ⟨hq, hc, hl, hp, fun t h1 h2 => ?_⟩
        cases hin t h1 h2 with
        | here => omega
        | left el hu => have := h.left _ _ _ el hu; omega
        | right er hu => simp [hl] at er
      · cases e
      · rename_i c hl
        obtain ⟨h1, h2, h3⟩ := step c (.inr ⟨hl, hc⟩) e
        exact ih e h1 h2 h3

/-- `insert(p)` on an ordered tree keeps the order, occupies slot(p), and empties just the slot of an equal key
(R123, R45, R46). -/
theorem Sorted.insert {ix' : Index} {w : Window} {cur p : Nat} (h : ix.Sorted k) (ht : ix.TreeShape)
    (hk : ∀ t, k t = w.keyNum (posOf cur t) 18) (hs : ix.parent (slotOf p) = .nil)
    (hp : posOf cur (slotOf p) = p) (e : insert w cur p ix = .ok ix') :
    ix'.Sorted k ∧
      ∀ t, ix'.parent t ≠ .nil ↔ t = slotOf p ∨ ix.parent t ≠ .nil ∧ k t ≠ k (slotOf p) := by
  obtain ⟨rank, ht⟩ := ht
  have hx : k (slotOf p) = w.keyNum p 18 := by rw [hk, hp]
  obtain ⟨sl, sr⟩ := ht.emptySlot _ hs
  unfold Machine.insert at e
  simp only at e
  have ht' := ht.clearChildren hs
  have hL : ∀ t, ((ix.setLeft (slotOf p) .nil).setRight (slotOf p) .nil).left t = ix.left t := by
    intro t; simp only [left_setRight, left_setLeft]; split <;> simp_all
  have hR : ∀ t, ((ix.setLeft (slotOf p) .nil).setRight (slotOf p) .nil).right t = ix.right t := by
    intro t; simp only [right_setRight, right_setLeft]; split <;> simp_all
  have hP : ∀ t, ((ix.setLeft (slotOf p) .nil).setRight (slotOf p) .nil).parent t = ix.parent t := by simp
  have h' : ((ix.setLeft (slotOf p) .nil).setRight (slotOf p) .nil).Sorted k :=
    h.congr hL hR (fun _ _ _ => ⟨rfl, fun _ _ => rfl⟩)
  have hs' := hP (slotOf p)
  rw [hs] at hs'
  simp only [← hP]
  generalize (ix.setLeft (slotOf p) .nil).setRight (slotOf p) .nil = jx at *
  generalize slotOf p = s at *
  clear hL hR hP h ht sl sr hs
  split at e
  · rename_i hr
    cases e
    have none : ∀ t, jx.parent t = .nil := fun t => by
      by_contra hc
      obtain ⟨r, e, _⟩ := ht'.under_root _ t (Nat.le_refl _) hc
      rw [hr] at e; cases e
    refine ⟨.empty (fun t => ?_) (fun t => ?_), fun t => ?_⟩
    · simpa using (ht'.emptySlot t (none t)).1
    · simpa using (ht'.emptySlot t (none t)).2
    · simp only [parent_setParent, parent_setRoot, none]
      by_cases e : t = s <;> simp [e]
  · cases e
  · rename_i r hr
    obtain ⟨place, hd, e⟩ := Run.bind_ok e
    have hroot := ht'.rootParent r hr
    have res := h'.descend ht' hk 4096 hd (by simp [hroot]) (fun a c hu => by
        rcases hu.parent ht' with rfl | ⟨p', hp', _⟩
        · exact ⟨fun ea => (by have := (ht'.left_child ea).1; simp [hroot] at this),
            fun ea => (by have := (ht'.right_child ea).1; simp [hroot] at this)⟩
        · rw [hroot] at hp'; cases hp')
      (fun t h1 _ => by
        obtain ⟨r', e1, hu⟩ := ht'.under_root _ t (Nat.le_refl _) h1
        rw [hr] at e1; cases e1; exact hu)
    rw [← hx] at res
    cases place with
    | equal q =>
      obtain ⟨r1, r2, r3⟩ := res
      have e' : replaceNode q s jx = .ok ix' := e
      rw [ht'.replaceNode_ok r1 hs'] at e'
      cases e'
      have hqs : q ≠ s := by rintro rfl; exact r1 hs'
      refine ⟨h'.substituted ht' r1 hs' r2, fun t => ?_⟩
      rw [ht'.parent_substituted r1 hs']
      have k1 := fun e : jx.left q = .slot t => (ht'.left_child e).1
      have k2 := fun e : jx.right q = .slot t => (ht'.right_child e).1
      have k3 := r3 t
      grind
    | left q =>
      obtain ⟨r1, r2, r3, r4, r5⟩ := res
      cases e
      refine ⟨h'.attach ht' hs' r1 r4 (.inl ⟨r2, r3, fun t => by simp, fun t => by simp⟩), fun t => ?_⟩
      have := r5 t
      simp only [parent_setParent, parent_setLeft]
      by_cases e : t = s
      · simp [e]
      · simp only [e, if_false, false_or]
        exact ⟨fun hp => ⟨hp, this hp⟩, fun hp => hp.1⟩
    | right q =>
      obtain ⟨r1, r2, r3, r4, r5⟩ := res
      cases e
      refine ⟨h'.attach ht' hs' r1 r4 (.inr ⟨r2, r3, fun t => by simp, fun t => by simp⟩), fun t => ?_⟩
      have := r5 t
      simp only [parent_setParent, parent_setRight]
      by_cases e : t = s
      · simp [e]
      · simp only [e, if_false, false_or]
        exact ⟨fun hp => ⟨hp, this hp⟩, fun hp => hp.1⟩

end Index

/-! ## The window moves -/

/-- The key of the position a slot stands for, as a number. -/
def slotKey (w : Window) (cur : Nat) (t : Slot) : Nat := w.keyNum (posOf cur t) 18

/-- R46 at the index: of the last 4095 positions the tree holds the most recent of each key. -/
def ContentAt (w : Window) (cur : Nat) (ix : Index) : Prop :=
  ∀ q, cur ≤ q + 4095 → q < cur →
    (ix.parent (slotOf q) ≠ .nil ↔ ∀ p, q < p → p < cur → ¬ w.KeyEq p q)

/-- A live position is the one its slot stands for (R42). -/
theorem posOf_slotOf {cur p : Nat} (h : 4096 ≤ cur) (h1 : cur ≤ p + 4095) (h2 : p ≤ cur) :
    posOf cur (slotOf p) = p := by
  unfold posOf slotOf; simp only; omega

/-- As CUR moves on by 1, only the retired slot stands for another position (R128). -/
theorem posOf_next {c : Nat} {t : Slot} (h : 4096 ≤ c) (ht : t ≠ slotOf (c + 1)) :
    posOf (c + 1) t = posOf c t := by
  have : t.val ≠ (c + 1) % 4096 := fun e => ht (Fin.ext e)
  have := t.isLt
  unfold posOf
  omega

/-- A slot under a child is occupied (R44). -/
theorem Index.Under.occupied {ix : Index} {rank : Slot → Nat} (ht : ix.IsTree rank) {a c t : Slot}
    (e : ix.left a = .slot c ∨ ix.right a = .slot c) (hu : ix.Under c t) : ix.parent t ≠ .nil := by
  rcases hu.parent ht with rfl | ⟨p, hp, _⟩
  · rcases e with e | e
    · rw [(ht.left_child e).1]; simp
    · rw [(ht.right_child e).1]; simp
  · rw [hp]; simp

/-- The order after CUR moves on by 1, when the slot of the new CUR is empty. -/
theorem Index.Sorted.next {ix : Index} {w : Window} {c : Nat} (h : ix.Sorted (slotKey w c)) (ht : ix.TreeShape)
    (hc : 4096 ≤ c) (hf : ix.parent (slotOf (c + 1)) = .nil) : ix.Sorted (slotKey w (c + 1)) := by
  obtain ⟨rank, ht⟩ := ht
  have key : ∀ t, ix.parent t ≠ .nil → slotKey w (c + 1) t = slotKey w c t := fun t hp => by
    unfold slotKey
    rw [posOf_next hc (by rintro rfl; exact hp hf)]
  refine h.congr (fun _ => rfl) (fun _ => rfl) fun t d e => ⟨key t ?_, fun u hu => key u (hu.occupied ht e)⟩
  intro hn
  obtain ⟨h1, h2⟩ := ht.emptySlot t hn
  rcases e with e | e
  · simp [h1] at e
  · simp [h2] at e

/-- One position entering the window, its slot free and the next one retired: the order and the content
(R45, R46). -/
theorem insert_next {ix ix' : Index} {w : Window} {c : Nat} (h : ix.Sorted (slotKey w c)) (ht : ix.TreeShape)
    (hc : 4096 ≤ c) (hs : ix.parent (slotOf c) = .nil) (hf : ix.parent (slotOf (c + 1)) = .nil)
    (e : insert w c c ix = .ok ix') :
    ix'.Sorted (slotKey w (c + 1)) ∧
    ((∀ q, c + 1 ≤ q + 4095 → q < c →
        (ix.parent (slotOf q) ≠ .nil ↔ ∀ p, q < p → p < c → ¬ w.KeyEq p q)) → ContentAt w (c + 1) ix') := by
  obtain ⟨jx, j1, j2, j3, j4⟩ := insert_ok ht w c c hs
  rw [e] at j1; cases j1
  have hpos := posOf_slotOf hc (show c ≤ c + 4095 by omega) (Nat.le_refl c)
  obtain ⟨k1, k2⟩ := h.insert ht (fun _ => rfl) hs hpos e
  have hne : slotOf (c + 1) ≠ slotOf c := by rw [Ne, slotOf_eq]; omega
  refine ⟨k1.next j2 hc (j4 _ hne hf), fun hcont q q1 q2 => ?_⟩
  by_cases hq : q = c
  · subst hq
    exact ⟨fun _ p p1 p2 => absurd p1 (by omega), fun _ => j3⟩
  · have hsl : slotOf q ≠ slotOf c := by rw [Ne, slotOf_eq]; omega
    have hkey : slotKey w c (slotOf q) ≠ slotKey w c (slotOf c) ↔ ¬ w.KeyEq c q := by
      unfold slotKey
      rw [posOf_slotOf hc (by omega) (by omega), hpos, Window.keyEq_iff]
      exact ⟨fun h e => h e.symm, fun h e => h e.symm⟩
    rw [k2, hcont q q1 (by omega), hkey]
    constructor
    · rintro (h' | ⟨h1, h2⟩) p p1 p2
      · exact absurd h' hsl
      · by_cases hpc : p = c
        · rw [hpc]; exact h2
        · exact h1 p p1 (by omega)
    · exact fun h' => .inr ⟨fun p p1 p2 => h' p p1 (by omega), h' c (by omega) (by omega)⟩

/-- `advanceWindow(count)` keeps the order and the content (R128, R45, R46). -/
theorem advanceIndex_order (w : Window) (count : Nat) : ∀ {c : Nat} {ix ix' : Index}, ix.TreeShape → 4096 ≤ c →
    ix.parent (slotOf c) = .nil → ix.Sorted (slotKey w c) → advanceIndex w count c ix = .ok ix' →
    ix'.Sorted (slotKey w (c + count)) ∧ (ContentAt w c ix → ContentAt w (c + count) ix') := by
  induction count with
  | zero => intro c ix ix' _ _ _ h e; cases e; exact ⟨h, id⟩
  | succ count ih =>
    intro c ix ix' ht hc hf h e
    have hne : slotOf (c + 1) ≠ slotOf c := by rw [Ne, slotOf_eq]; omega
    simp only [advanceIndex] at e
    obtain ⟨jx, e1, e⟩ := Run.bind_ok e
    obtain ⟨kx, e2, e⟩ := Run.bind_ok e
    have retired : jx.TreeShape ∧ jx.Sorted (slotKey w c) ∧
        ∀ t, jx.parent t = .nil ↔ t = slotOf (c + 1) ∨ ix.parent t = .nil := by
      unfold retire at e1
      split at e1
      · rename_i hn
        cases e1
        exact ⟨ht, h, fun t => ⟨.inr, fun h => by rcases h with rfl | h <;> assumption⟩⟩
      · rename_i hn
        obtain ⟨lx, l1, l2, l3⟩ := remove_ok ht hn
        rw [e1] at l1; cases l1
        exact ⟨l2, h.remove ht hn e1, l3⟩
    obtain ⟨r1, r2, r3⟩ := retired
    have hs := (r3 (slotOf c)).2 (.inr hf)
    have hr := (r3 (slotOf (c + 1))).2 (.inl rfl)
    obtain ⟨mx, m1, m2, _, m4⟩ := insert_ok r1 w c c hs
    rw [e2] at m1; cases m1
    obtain ⟨n1, n2⟩ := insert_next r2 r1 hc hs hr e2
    obtain ⟨o1, o2⟩ := ih m2 (by omega) (m4 _ hne hr) n1 e
    rw [show c + (count + 1) = c + 1 + count by omega]
    refine ⟨o1, fun hcont => o2 (n2 fun q q1 q2 => ?_)⟩
    rw [← hcont q (by omega) q2, Ne, r3, not_or]
    exact ⟨fun hx => hx.2, fun hx => ⟨by rw [slotOf_eq]; omega, hx⟩⟩

/-- The seed gives an ordered tree with the content of R46 (R129). -/
theorem seedFrom_order (w : Window) (count : Nat) : ∀ {p : Nat} {ix ix' : Index}, ix.TreeShape → 1 ≤ p →
    p + count ≤ 4096 → ix.Sorted (slotKey w 4096) →
    (∀ t : Slot, p ≤ t.val ∨ t.val = 0 → ix.parent t = .nil) →
    (∀ q, 1 ≤ q → q < p → (ix.parent (slotOf q) ≠ .nil ↔ ∀ p', q < p' → p' < p → ¬ w.KeyEq p' q)) →
    seedFrom w count p ix = .ok ix' →
    ix'.Sorted (slotKey w 4096) ∧
      ∀ q, 1 ≤ q → q < p + count →
        (ix'.parent (slotOf q) ≠ .nil ↔ ∀ p', q < p' → p' < p + count → ¬ w.KeyEq p' q) := by
  induction count with
  | zero => intro p ix ix' _ _ _ h _ hc e; cases e; exact ⟨h, hc⟩
  | succ count ih =>
    intro p ix ix' ht hp hb h he hc e
    have hsv : (slotOf p).val = p := Nat.mod_eq_of_lt (by omega)
    have hs := he (slotOf p) (.inl (by omega))
    simp only [seedFrom] at e
    obtain ⟨jx, e1, e⟩ := Run.bind_ok e
    obtain ⟨kx, k1, k2, k3, k4⟩ := insert_ok ht w 4096 p hs
    rw [e1] at k1; cases k1
    have hpos := posOf_slotOf (Nat.le_refl 4096) (show 4096 ≤ p + 4095 by omega) (by omega)
    obtain ⟨m1, m2⟩ := h.insert ht (fun _ => rfl) hs hpos e1
    have hres := ih k2 (by omega) (by omega) m1 (fun t htt =>
      k4 t (fun e => by rw [e, hsv] at htt; omega) (he t (by omega))) ?_ e
    · rwa [show p + 1 + count = p + (count + 1) by omega] at hres
    · intro q q1 q2
      by_cases hq : q = p
      · subst hq
        exact ⟨fun _ p' p1 p2 => absurd p1 (by omega), fun _ => k3⟩
      · have hsl : slotOf q ≠ slotOf p := by rw [Ne, slotOf_eq]; omega
        have hkey : slotKey w 4096 (slotOf q) ≠ slotKey w 4096 (slotOf p) ↔ ¬ w.KeyEq p q := by
          unfold slotKey
          rw [posOf_slotOf (Nat.le_refl _) (by omega) (by omega), hpos, Window.keyEq_iff]
          exact ⟨fun h e => h e.symm, fun h e => h e.symm⟩
        rw [m2, hc q q1 (by omega), hkey]
        constructor
        · rintro (h' | ⟨h1, h2⟩) p' p1 p2
          · exact absurd h' hsl
          · by_cases hpc : p' = p
            · rw [hpc]; exact h2
            · exact h1 p' p1 (by omega)
        · exact fun h' => .inr ⟨fun p' p1 p2 => h' p' p1 (by omega), h' p (by omega) (by omega)⟩

/-- `seed()` gives an ordered tree with the content of R46 (R129). -/
theorem seed_order {w : Window} {ix : Index} (e : seedFrom w 4095 1 .cleared = .ok ix) :
    ix.Sorted (slotKey w 4096) ∧ ContentAt w 4096 ix := by
  obtain ⟨h1, h2⟩ := seedFrom_order w 4095 .cleared (Nat.le_refl 1) (Nat.le_refl 4096)
    (.empty (by simp) (by simp)) (by simp) (fun q q1 q2 => absurd q1 (by omega)) e
  exact ⟨h1, fun q q1 q2 => h2 q (by omega) q2⟩

/-! ## What the search finds (R132) -/

/-- A key beyond q, on the side away from the query, shares no more of it than q does. -/
theorem common_between {w : Window} {cur q t n : Nat} (h : (cmpKey w cur q n).1 < n)
    (hs : (cmpKey w cur q n).2 = .less ∧ w.keyNum q 18 < w.keyNum t 18 ∨
      (cmpKey w cur q n).2 = .greater ∧ w.keyNum t 18 < w.keyNum q 18) :
    (cmpKey w cur t n).1 ≤ (cmpKey w cur q n).1 := by
  by_contra hc
  obtain ⟨_, hq⟩ := cmpKey_spec w cur q n
  obtain ⟨_, ht⟩ := cmpKey_spec w cur t n
  have hd := cmpKey_stop w cur q n
  generalize hm : (cmpKey w cur q n).1 = m at *
  have hqt : ∀ i, i < m → w.byte (q + i) = w.byte (t + i) := fun i hi =>
    (hq i hi).symm.trans (ht i (by omega))
  have htm := ht m (by omega)
  obtain ⟨_, hd⟩ := hd.resolve_left (fun x => by omega)
  rcases hs with ⟨h1, h2⟩ | ⟨h1, h2⟩
  · have hlt : (w.byte (cur + m)).toNat < (w.byte (q + m)).toNat := by
      rcases hd with ⟨hd, _⟩ | ⟨_, hd⟩
      · exact hd
      · rw [h1] at hd; cases hd
    obtain ⟨j, j1, j2, j3⟩ := (w.keyNum_lt_iff 18 q t).1 h2
    rcases Nat.lt_trichotomy j m with hj | rfl | hj
    · rw [hqt j hj] at j3; omega
    · rw [← htm] at j3; omega
    · have := j2 m hj; rw [this, ← htm] at hlt; omega
  · have hlt : (w.byte (q + m)).toNat < (w.byte (cur + m)).toNat := by
      rcases hd with ⟨_, hd⟩ | ⟨hd, _⟩
      · rw [h1] at hd; cases hd
      · exact hd
    obtain ⟨j, j1, j2, j3⟩ := (w.keyNum_lt_iff 18 t q).1 h2
    rcases Nat.lt_trichotomy j m with hj | rfl | hj
    · rw [hqt j hj] at j3; omega
    · rw [← htm] at j3; omega
    · have := j2 m hj; rw [← this, ← htm] at hlt; omega

/-- What a search below link q that starts from best finds (R132): no slot there shares a longer prefix than the
result m, and a result found there is the one nearest the top with its length. -/
def BestFound (ix : Index) (w : Window) (cur lim : Nat) (q : Link) (best m : Nat × Nat) : Prop :=
  best.1 ≤ m.1 ∧
  (∀ c t, q = .slot c → ix.Under c t → (cmpKey w cur (posOf cur t) lim).1 ≤ m.1) ∧
  (m = best ∨ ∃ c d, q = .slot c ∧ ix.Under c d ∧ m.2 = posOf cur d ∧ best.1 < m.1 ∧
    m.1 = (cmpKey w cur (posOf cur d) lim).1 ∧
    ∀ t, ix.Under c t → ix.Under t d → t ≠ d → (cmpKey w cur (posOf cur t) lim).1 < m.1)

theorem search_best {ix : Index} {rank : Slot → Nat} {w : Window} {cur lim : Nat} (ht : ix.IsTree rank)
    (h : ix.Sorted (slotKey w cur)) (fuel : Nat) : ∀ {q : Link} {best m : Nat × Nat},
    searchFrom w cur lim ix fuel q best = .ok m → BestFound ix w cur lim q best m := by
  induction fuel with
  | zero =>
    intro q best m e
    cases q with
    | nil => cases e; exact ⟨Nat.le_refl _, fun _ _ e => (by cases e), .inl rfl⟩
    | rootMark => cases e
    | slot c => cases e
  | succ fuel ih =>
    intro q best m e
    cases q with
    | nil => cases e; exact ⟨Nat.le_refl _, fun _ _ e => (by cases e), .inl rfl⟩
    | rootMark => cases e
    | slot q =>
      simp only [searchFrom] at e
      have hcap := (cmpKey_spec w cur (posOf cur q) lim).1
      have hcapt := fun t => (cmpKey_spec w cur (posOf cur t) lim).1
      generalize hb : (if (cmpKey w cur (posOf cur q) lim).1 > best.1 then
        ((cmpKey w cur (posOf cur q) lim).1, posOf cur q) else best) = b at e
      have hbest : best.1 ≤ b.1 ∧ (cmpKey w cur (posOf cur q) lim).1 ≤ b.1 ∧
          (b = best ∨ best.1 < b.1 ∧ b.1 = (cmpKey w cur (posOf cur q) lim).1 ∧ b.2 = posOf cur q) := by
        subst hb
        split
        · rename_i hg; exact ⟨Nat.le_of_lt hg, Nat.le_refl _, .inr ⟨hg, rfl, rfl⟩⟩
        · exact ⟨Nat.le_refl _, by omega, .inl rfl⟩
      obtain ⟨b1, b2, b3⟩ := hbest
      -- a result that stands at q itself is under no other slot below q
      have top : ∀ t, ix.Under q t → ix.Under t q → t ≠ q → False := by
        intro t h1 h2 h3
        have r2 := h2.rank_le ht
        rcases h1.parent ht with e | ⟨p, hp, hu⟩
        · exact h3 e
        · have := ht.ranked _ _ hp; have := hu.rank_le ht; omega
      split at e
      · rename_i hfull
        cases e
        refine ⟨b1, fun c t e _ => ?_, ?_⟩
        · cases e; have := hcapt t; omega
        · rcases b3 with b3 | ⟨b3, b4, b5⟩
          · exact .inl b3
          · exact .inr ⟨q, q, rfl, .here q, b5, b3, b4, fun t h1 h2 h3 => (top t h1 h2 h3).elim⟩
      · rename_i hpart
        have hdir : ((cmpKey w cur (posOf cur q) lim).2 = .less ∨
            (cmpKey w cur (posOf cur q) lim).2 = .greater) := by
          rcases cmpKey_stop w cur (posOf cur q) lim with ⟨hd, _⟩ | ⟨_, ⟨_, hd⟩ | ⟨_, hd⟩⟩
          · exact absurd hd hpart
          · exact .inl hd
          · exact .inr hd
        -- the side taken, and the other side
        have join : ∀ (near far : Link) (side : ∀ c t, far = .slot c → ix.Under c t →
              (cmpKey w cur (posOf cur t) lim).1 ≤ (cmpKey w cur (posOf cur q) lim).1),
            (∀ t, ix.Under q t → t = q ∨ (∃ c, near = .slot c ∧ ix.Under c t) ∨ ∃ c, far = .slot c ∧ ix.Under c t) →
            (∀ c, near = .slot c → ix.Under q c ∧ rank q < rank c) →
            (∀ c c' t, near = .slot c → far = .slot c' → ix.Under c t → ¬ ix.Under c' t) →
            searchFrom w cur lim ix fuel near b = .ok m → BestFound ix w cur lim (.slot q) best m := by
          intro near far side split3 hnear apart e
          obtain ⟨i1, i2, i3⟩ := ih e
          refine ⟨by omega, fun c t e hu => ?_, ?_⟩
          · cases e
            rcases split3 t hu with rfl | ⟨c, h1, h2⟩ | ⟨c, h1, h2⟩
            · omega
            · exact i2 c t h1 h2
            · have := side c t h1 h2; omega
          · rcases i3 with rfl | ⟨c, d, h1, h2, h3, h4, h5, h6⟩
            · rcases b3 with b3 | ⟨b3, b4, b5⟩
              · exact .inl b3
              · exact .inr ⟨q, q, rfl, .here q, b5, b3, b4, fun t h1 h2 h3 => (top t h1 h2 h3).elim⟩
            · refine .inr ⟨q, d, rfl, (hnear c h1).1.trans h2, h3, by omega, h5, fun t t1 t2 t3 => ?_⟩
              rcases split3 t t1 with rfl | ⟨c', k1, k2⟩ | ⟨c', k1, k2⟩
              · omega
              · rw [h1] at k1; cases k1
                exact h6 t k2 t2 t3
              · exact absurd (k2.trans t2) (apart c c' d h1 k1 h2)
        have under3 : ∀ t, ix.Under q t → t = q ∨ (∃ c, ix.left q = .slot c ∧ ix.Under c t) ∨
            ∃ c, ix.right q = .slot c ∧ ix.Under c t := by
          intro t hu
          cases hu with
          | here => exact .inl rfl
          | left e hu => exact .inr (.inl ⟨_, e, hu⟩)
          | right e hu => exact .inr (.inr ⟨_, e, hu⟩)
        have apart : ∀ c c' t, ix.left q = .slot c → ix.right q = .slot c' → ix.Under c t → ¬ ix.Under c' t :=
          fun c c' t e1 e2 h1 h2 => by
            have := h.left q c t e1 h1
            have := h.right q c' t e2 h2
            omega
        split at e
        · rename_i hless
          refine join _ (ix.right q) (fun c t e hu => ?_) under3 (fun c e => ⟨.left e (.here c), (ht.left_child e).2⟩)
            apart e
          exact common_between (by omega) (.inl ⟨hless, h.right q c t e hu⟩)
        · rename_i hless
          have hgt := hdir.resolve_left hless
          refine join _ (ix.left q) (fun c t e hu => ?_) (fun t hu => by rcases under3 t hu with h | h | h <;> simp [h])
            (fun c e => ⟨.right e (.here c), (ht.right_child e).2⟩)
            (fun c c' t e1 e2 h1 h2 => apart c' c t e2 e1 h2 h1) e
          exact common_between (by omega) (.inr ⟨hgt, h.left q c t e hu⟩)

end Sys2Proof.Machine
end

