-- ==== Sys2Proof/Laws/OrderSteps.lean ====
section
/-! SUPPORT. Laws/OrderSteps.lean: the order and the content of the tree (R45, R46) on the registers: what leaves
them, the runs that build them, and the loops that keep them. -/

namespace Sys2Proof.Machine

open Index State

namespace State

variable {s t : State}

theorem orderOk_iff (s : State) : s.OrderOk ↔ s.index.Sorted (slotKey s.window s.cur.toNat) := by
  constructor
  · rintro ⟨h1, h2⟩
    exact ⟨fun q c u e hu => (Window.keyLt_iff _ _ _).1 (h1 q c u e hu),
      fun q c u e hu => (Window.keyLt_iff _ _ _).1 (h2 q c u e hu)⟩
  · rintro ⟨h1, h2⟩
    exact ⟨fun q c u e hu => (Window.keyLt_iff _ _ _).2 (h1 q c u e hu),
      fun q c u e hu => (Window.keyLt_iff _ _ _).2 (h2 q c u e hu)⟩

/-- A tree with no links is ordered. -/
theorem OrderOk.of_empty (h : s.index = .cleared) : s.OrderOk := by
  rw [orderOk_iff, h]
  exact .empty (by simp) (by simp)

theorem keyNum_same {w v : Window} (h : w.Same v) (n : Nat) : ∀ p, w.keyNum p n = v.keyNum p n := by
  induction n with
  | zero => intro p; rfl
  | succ n ih => intro p; rw [Window.keyNum, Window.keyNum, h.byte, ih]

/-- The order depends on the tree, CUR and the window's bytes (R45). -/
theorem OrderOk.of_same (h : s.OrderOk) (hi : t.index = s.index) (hc : t.cur = s.cur)
    (hw : s.window.Same t.window) : t.OrderOk := by
  rw [orderOk_iff] at h ⊢
  rw [hi, hc]
  have : slotKey t.window s.cur.toNat = slotKey s.window s.cur.toNat := by
    funext u; unfold slotKey; rw [keyNum_same hw]
  rwa [this]

theorem ContentOk.of_same (h : s.ContentOk) (hi : t.index = s.index) (hc : t.cur = s.cur)
    (hw : s.window.Same t.window) : t.ContentOk := by
  intro q q1 q2
  rw [hc] at q1 q2 ⊢
  rw [hi, h q q1 q2]
  simp only [Window.keyEq_iff, keyNum_same hw]

theorem window_refl (w : Window) : w.Same w := ⟨fun _ => rfl, rfl⟩

/-- States with the same input have the same window. -/
theorem window_of_input (h : SameInput s t) : s.window.Same t.window := by
  rw [show t.window = s.window by unfold State.window; rw [h.inLen, h.inMem]]
  exact window_refl _

/-- The seeded window is ordered and holds the content of R46 (R129). -/
theorem seeded_order {ix : Index} (e : seedFrom s.window 4095 1 .cleared = .ok ix) (hi : t.index = ix)
    (hc : t.cur = 0x1000) (hw : s.window.Same t.window) : t.OrderOk ∧ t.ContentOk := by
  obtain ⟨h1, h2⟩ := seed_order e
  have k1 : ({ s with index := ix, cur := 0x1000 } : State).OrderOk := (orderOk_iff _).2 h1
  have k2 : ({ s with index := ix, cur := 0x1000 } : State).ContentOk := h2
  exact ⟨k1.of_same hi hc hw, k2.of_same hi hc hw⟩

/-- The window's move by count keeps the order and the content (R128). -/
theorem advanced_order {n : Nat} (hw : s.WindowOk) (ho : s.OrderOk)
    (e : advanceIndex s.window n s.cur.toNat s.index = .ok t.index) (hc : t.cur.toNat = s.cur.toNat + n)
    (hwin : s.window.Same t.window) : t.OrderOk ∧ (s.ContentOk → t.ContentOk) := by
  obtain ⟨h1, h2⟩ := advanceIndex_order s.window n hw.shape hw.low hw.free ((orderOk_iff s).1 ho) e
  refine ⟨?_, fun hcont => ?_⟩
  · rw [orderOk_iff, hc]
    have : slotKey t.window (s.cur.toNat + n) = slotKey s.window (s.cur.toNat + n) := by
      funext u; unfold slotKey; rw [keyNum_same hwin]
    rwa [this]
  · intro q q1 q2
    rw [hc] at q1 q2 ⊢
    rw [h2 hcont q q1 q2]
    simp only [Window.keyEq_iff, keyNum_same hwin]

/-- An item of the encoder keeps the order and the content (R161). -/
theorem ItemDone.order {m : Nat × Nat} (d : ItemDone s m t) (hw : s.WindowOk) (ho : s.OrderOk) :
    t.OrderOk ∧ (s.ContentOk → t.ContentOk) :=
  advanced_order hw ho d.index d.cur (by rw [d.same.window]; exact window_refl _)

/-- The loop of COMPRESS keeps the order and the content (R166). -/
theorem encLoop_order (fuel : Nat) : ∀ {s u : State}, s.Inv → s.mode = .encoding → s.OrderOk →
    encLoop fuel s = .ok u → u.OrderOk ∧ (s.ContentOk → u.ContentOk) := by
  induction fuel with
  | zero => intro s u _ _ ho h; cases h; exact ⟨ho, id⟩
  | succ fuel ih =>
    intro s u hs hm ho h
    unfold encLoop at h
    split at h
    · rename_i hc
      obtain ⟨m, t, _, _, h1, h2, h3, h4⟩ := encodeItem_ok hs hm hc
      rw [h1, Run.ok_bind] at h
      obtain ⟨k1, k2⟩ := h2.order hs.window ho
      obtain ⟨l1, l2⟩ := ih h3 h4 k1 h
      exact ⟨l1, fun hcont => l2 (k2 hcont)⟩
    · cases h; exact ⟨ho, id⟩

/-- COMPRESS's body ends in an ordered tree with the content of R46 when it raises no error (R166). -/
theorem compressBody_order (h : s.Inv) (he : s.err = .none) (e : compressBody s = .ok t) (ht : t.err = .none) :
    t.OrderOk ∧ t.ContentOk := by
  rcases encStartBody_cases h he with ⟨w, hb⟩ | ⟨hi, ho, _⟩
  · have hc : compressBody s = .ok (s.raise .allocationFailure w) := by simp [compressBody, hb]
    rw [e] at hc; cases hc; simp at ht
  · obtain ⟨ix, u, v, h1, h2, h3, h4, h5, h6, h7, h8, h9, _⟩ := compressBody_ok h he hi ho
    rw [e] at h8; cases h8
    obtain ⟨k1, k2⟩ := seeded_order (t := s.encStarted ix) h1 rfl rfl (window_refl _)
    obtain ⟨l1, l2⟩ := encLoop_order _ h3 rfl k1 h2
    have w1 : u.window.Same t.window := by
      rw [show t.window = u.window by rw [h9.rest]; rfl]; exact window_refl _
    exact ⟨l1.of_same (by rw [h9.rest]) (by rw [h9.rest]) w1,
      (l2 k2).of_same (by rw [h9.rest]) (by rw [h9.rest]) w1⟩

/-- What the search finds on an ordered tree, in terms of common prefixes (R132). -/
theorem findLongestMatch_best (hw : s.WindowOk) (ho : s.OrderOk) {m : Nat × Nat}
    (e : findLongestMatch s.window s.cur.toNat s.index = .ok m) :
    (∀ u, s.index.parent u ≠ .nil → ∀ n, n ≤ 18 → s.cur.toNat + n ≤ s.endPos →
      (∀ i, i < n → s.window.byte (s.cur.toNat + i) = s.window.byte (posOf s.cur.toNat u + i)) → n ≤ m.1) ∧
    (m = (2, 0) ∨ ∃ d, m.2 = posOf s.cur.toNat d ∧ s.index.parent d ≠ .nil ∧
      ∀ u, s.index.Under u d → u ≠ d →
        ∃ i, i < m.1 ∧ s.window.byte (s.cur.toNat + i) ≠ s.window.byte (posOf s.cur.toNat u + i)) := by
  obtain ⟨rank, ht⟩ := hw.shape
  obtain ⟨_, h2, h3⟩ := search_best ht ((orderOk_iff s).1 ho) _ e
  -- a prefix of n equal bytes inside the limit is counted whole
  have counted : ∀ p n lim, n ≤ lim →
      (∀ i, i < n → s.window.byte (s.cur.toNat + i) = s.window.byte (p + i)) →
      n ≤ (cmpKey s.window s.cur.toNat p lim).1 := by
    intro p n lim hn he
    by_contra hc
    rcases cmpKey_stop s.window s.cur.toNat p lim with ⟨hd, _⟩ | ⟨_, ⟨hd, _⟩ | ⟨hd, _⟩⟩
    · omega
    · rw [he _ (by omega)] at hd; omega
    · rw [he _ (by omega)] at hd; omega
  have hend : s.endPos = 4096 + s.window.inLen := rfl
  refine ⟨fun u hu n n1 n2 n3 => ?_, ?_⟩
  · obtain ⟨r, hr, hur⟩ := ht.under_root _ u (Nat.le_refl _) hu
    exact Nat.le_trans (counted _ n _ (by omega) n3) (h2 r u hr hur)
  · rcases h3 with h3 | ⟨r, d, hr, hd, p1, _, p3, p4⟩
    · exact .inl h3
    · have hocc : s.index.parent d ≠ .nil := by
        rcases hd.parent ht with rfl | ⟨q, hq, _⟩
        · rw [ht.rootParent _ hr]; simp
        · rw [hq]; simp
      refine .inr ⟨d, p1, hocc, fun u hu hne => ?_⟩
      by_contra hc
      simp only [not_exists, not_and, not_not] at hc
      have huo : s.index.parent u ≠ .nil := by
        intro hn
        obtain ⟨l, r'⟩ := ht.emptySlot u hn
        cases hu with
        | here => exact hne rfl
        | left e _ => simp [l] at e
        | right e _ => simp [r'] at e
      obtain ⟨r', hr', hur⟩ := ht.under_root _ u (Nat.le_refl _) huo
      rw [hr] at hr'; cases hr'
      have hlt := p4 u hur hu hne
      have hcap := (cmpKey_spec s.window s.cur.toNat (posOf s.cur.toNat d)
        (min 18 (4096 + s.window.inLen - s.cur.toNat))).1
      have := counted _ m.1 (min 18 (4096 + s.window.inLen - s.cur.toNat)) (p3 ▸ hcap) hc
      omega

end State

end Sys2Proof.Machine
end

