-- ==== Sys2Proof/Laws/Effects.lean ====
section
/-! SUPPORT. Laws/Effects.lean: what each instruction's body does to MODE, to DONE and to the order of the
tree. -/

namespace Sys2Proof.Machine

open State

/-- MODE after a body (R25): IDLE, as it was, or the run that a START opens. -/
theorem body_mode (i : Instr) {s t : State} (hi : s.Inv) (he :
    s.err = .none ∨ execWord i = 0 ∨ execWord i = 1) (h : execBody i s = .ok t) :
    t.mode = .idle ∨ (t.mode = s.mode ∧ i ≠ .compress ∧ i ≠ .encFinish ∧
        i ≠ .decompress) ∨ (t.mode = .encoding ∧ i = .encStart) ∨ (t.mode = .decoding ∧
            (i = .decStart ∨ ∃ c u, i = .streamHeader c u)) := by
  cases i with
  | nop => cases h; exact .inr (.inl ⟨rfl, by simp, by simp, by simp⟩)
  | clearErr => cases h; exact .inr (.inl ⟨rfl, by simp, by simp, by simp⟩)
  | mfClear => cases h; exact .inr (.inl ⟨rfl, by simp, by simp, by simp⟩)
  | mfInit =>
    rcases checkInput_inv h with rfl | ⟨_, h⟩
    · exact .inl rfl
    · rw [seed_frame h]; exact .inr (.inl ⟨rfl, by simp, by simp, by simp⟩)
  | mfInsert =>
    rcases checkInput_inv h with rfl | ⟨_, h⟩
    · exact .inl rfl
    · split at h
      · cases h; exact .inl rfl
      · obtain ⟨ix, _, h⟩ := Run.bind_ok h; cases h; exact .inr (.inl ⟨rfl, by simp, by simp, by simp⟩)
  | mfRemove =>
    simp only [execBody, mfRemoveBody] at h
    split at h
    · cases h; exact .inl rfl
    · obtain ⟨ix, _, h⟩ := Run.bind_ok h; cases h; exact .inr (.inl ⟨rfl, by simp, by simp, by simp⟩)
  | mfAdvance =>
    rcases checkInput_inv h with rfl | ⟨_, h⟩
    · exact .inl rfl
    · split at h
      · cases h; exact .inl rfl
      · rw [advanceWindow_frame h]; exact .inr (.inl ⟨rfl, by simp, by simp, by simp⟩)
  | mfSearch =>
    rcases checkInput_inv h with rfl | ⟨_, h⟩
    · exact .inl rfl
    · obtain ⟨m, _, h⟩ := Run.bind_ok h; cases h; exact .inr (.inl ⟨rfl, by simp, by simp, by simp⟩)
  | mfReadNode =>
    simp only [execBody, mfReadNodeBody] at h
    split at h
    · cases h; exact .inl rfl
    · cases h; exact .inr (.inl ⟨rfl, by simp, by simp, by simp⟩)
  | encStart =>
    rcases encStartBody_frame h with ⟨w, rfl⟩ | h
    · exact .inl rfl
    · rw [h]; exact .inr (.inr (.inl ⟨rfl, rfl⟩))
  | encStep =>
    rcases encStepBody_frame h with rfl | h
    · exact .inl rfl
    · rw [h]; exact .inr (.inl ⟨rfl, by simp, by simp, by simp⟩)
  | encFinish =>
    rcases encFinishBody_frame h with rfl | h
    · exact .inl rfl
    · rw [h]; exact .inl rfl
  | compress =>
    rcases compressBody_frame h with ⟨w, rfl⟩ | h
    · exact .inl rfl
    · rw [h]; exact .inl rfl
  | decStart =>
    rcases headerBody_frame h with ⟨e, w, rfl, he⟩ | rfl
    · exact .inl rfl
    · unfold decStarted; simp only; split
      · exact .inl rfl
      · refine .inr (.inr (.inr ⟨rfl, ?_⟩)); simp
  | decStep =>
    rcases decStepBody_frame h with ⟨e, w, rfl, he⟩ | h
    · exact .inl rfl
    · rcases h.2 with ⟨k, _⟩ | ⟨k, _⟩
      · exact .inr (.inl ⟨k, by simp, by simp, by simp⟩)
      · exact .inl k
  | decompress =>
    have he : s.err = .none := by rcases he with h | h | h <;> first | exact h | exact absurd h (by decide)
    refine .inl ?_
    rcases (decompressBody_frame h).2.2 with k | k
    · exact k
    · exfalso
      obtain ⟨u, hu, h⟩ := Run.bind_ok h
      have hu : headerBody (s.le32 0) (s.le32 4) s = .ok u := hu
      have huI : u.Inv := by
        rcases headerBody_cases hi he (s.le32 0) (s.le32 4) with ⟨e, w, hb⟩ | ⟨hb, hI⟩
        · rw [hu] at hb; cases hb; exact hi.raise _ _
        · rw [hu] at hb; cases hb; exact hI
      obtain ⟨v, v1, v2, v3⟩ := decLoop_ok _ huI (fun _ => (show u.decU.toNat ≤ u.outLen.toNat + (u.decU.toNat - u.outLen.toNat) by omega))
      rw [h] at v1; cases v1; exact v3 k
  | illegal w => cases h; exact .inl rfl
  | streamHeader c u =>
    rcases headerBody_frame h with ⟨e, w, rfl, he⟩ | rfl
    · exact .inl rfl
    · unfold decStarted; simp only; split
      · exact .inl rfl
      · exact .inr (.inr (.inr ⟨rfl, .inr ⟨c, u, rfl⟩⟩))
  | streamCtrl b =>
    rcases itemAt_frame h with ⟨e, w, rfl, he⟩ | h
    · exact .inl rfl
    · rcases h.2 with ⟨k, _⟩ | ⟨k, _⟩
      · exact .inr (.inl ⟨k, by simp, by simp, by simp⟩)
      · exact .inl k
  | lit v => 
    rcases (literalItem_frame h).2 with ⟨k, _⟩ | ⟨k, _⟩
    · exact .inr (.inl ⟨k, by simp, by simp, by simp⟩)
    · exact .inl k
  | ref off lc =>
    rcases referenceItem_frame h with ⟨e, w, rfl, he⟩ | h
    · exact .inl rfl
    · rcases h.2 with ⟨k, _⟩ | ⟨k, _⟩
      · exact .inr (.inl ⟨k, by simp, by simp, by simp⟩)
      · exact .inl k

/-- DONE after a body (R209). -/
theorem body_done (i : Instr) {s t : State} (h : execBody i s = .ok t) :
    (t.done = true → s.done = true ∨ i = .encFinish ∨ i = .compress ∨ i = .decStart ∨ i = .decStep ∨
      i = .decompress ∨ i.space ≠ .command) ∧
    (t.err = s.err ∨ (i = .clearErr ∧ t.err = .none) ∨ t.done = false) ∧
    (i = .nop ∨ i = .clearErr → t.done = s.done) ∧
    (i = .mfClear ∨ i = .mfInit ∨ i = .mfInsert ∨ i = .mfRemove ∨ i = .mfAdvance ∨ i = .mfSearch ∨
      i = .mfReadNode → (∃ e w, e ≠ .none ∧ t = s.raise e w) ∨ t.done = s.done) := by
  cases i with
  | nop => cases h; exact ⟨fun h => .inl h, .inl rfl, fun _ => rfl, fun _ => .inr rfl⟩
  | clearErr => cases h; exact ⟨fun h => .inl h, .inr (.inl ⟨rfl, rfl⟩), fun _ => rfl, fun _ => .inr rfl⟩
  | mfClear => cases h; exact ⟨fun h => .inl h, .inl rfl, fun _ => rfl, fun _ => .inr rfl⟩
  | mfInit =>
    rcases checkInput_inv h with rfl | ⟨_, h⟩
    · exact ⟨(fun h => by cases h), .inr (.inr rfl), by simp, fun _ => .inl ⟨_, _, by simp, rfl⟩⟩
    · rw [seed_frame h]; exact ⟨fun h => .inl h, .inl rfl, fun _ => rfl, fun _ => .inr rfl⟩
  | mfInsert =>
    rcases checkInput_inv h with rfl | ⟨_, h⟩
    · exact ⟨(fun h => by cases h), .inr (.inr rfl), by simp, fun _ => .inl ⟨_, _, by simp, rfl⟩⟩
    · split at h
      · cases h; exact ⟨(fun h => by cases h), .inr (.inr rfl), by simp, fun _ => .inl ⟨.indexArgument, _, by simp, rfl⟩⟩
      · obtain ⟨ix, _, h⟩ := Run.bind_ok h; cases h; exact ⟨fun h => .inl h, .inl rfl, fun _ => rfl,
            fun _ => .inr rfl⟩
  | mfRemove =>
    simp only [execBody, mfRemoveBody] at h
    split at h
    · cases h; exact ⟨(fun h => by cases h), .inr (.inr rfl), by simp, fun _ => .inl ⟨.indexArgument, _, by simp, rfl⟩⟩
    · obtain ⟨ix, _, h⟩ := Run.bind_ok h; cases h; exact ⟨fun h => .inl h, .inl rfl, fun _ => rfl,
          fun _ => .inr rfl⟩
  | mfAdvance =>
    rcases checkInput_inv h with rfl | ⟨_, h⟩
    · exact ⟨(fun h => by cases h), .inr (.inr rfl), by simp, fun _ => .inl ⟨_, _, by simp, rfl⟩⟩
    · split at h
      · cases h; exact ⟨(fun h => by cases h), .inr (.inr rfl), by simp, fun _ => .inl ⟨.indexArgument, _, by simp, rfl⟩⟩
      · rw [advanceWindow_frame h]; exact ⟨fun h => .inl h, .inl rfl, fun _ => rfl, fun _ => .inr rfl⟩
  | mfSearch =>
    rcases checkInput_inv h with rfl | ⟨_, h⟩
    · exact ⟨(fun h => by cases h), .inr (.inr rfl), by simp, fun _ => .inl ⟨_, _, by simp, rfl⟩⟩
    · obtain ⟨m, _, h⟩ := Run.bind_ok h; cases h; exact ⟨fun h => .inl h, .inl rfl, fun _ => rfl,
          fun _ => .inr rfl⟩
  | mfReadNode =>
    simp only [execBody, mfReadNodeBody] at h
    split at h
    · cases h; exact ⟨(fun h => by cases h), .inr (.inr rfl), by simp, fun _ => .inl ⟨.indexArgument, _, by simp, rfl⟩⟩
    · cases h; exact ⟨fun h => .inl h, .inl rfl, fun _ => rfl, fun _ => .inr rfl⟩
  | encStart =>
    rcases encStartBody_frame h with ⟨w, rfl⟩ | h
    · exact ⟨(fun h => by cases h), .inr (.inr rfl), by simp, by simp⟩
    · rw [h]; exact ⟨(fun h => by cases h), .inr (.inr rfl), by simp, by simp⟩
  | encStep =>
    rcases encStepBody_frame h with rfl | h
    · exact ⟨(fun h => by cases h), .inr (.inr rfl), by simp, by simp⟩
    · rw [h]; exact ⟨fun h => .inl h, .inl rfl, by simp, by simp⟩
  | encFinish =>
    refine ⟨by simp, ?_, by simp, by simp⟩
    rcases encFinishBody_frame h with rfl | h
    · exact .inr (.inr rfl)
    · rw [h]; exact .inl rfl
  | compress =>
    refine ⟨by simp, ?_, by simp, by simp⟩
    rcases compressBody_frame h with ⟨w, rfl⟩ | h
    · exact .inr (.inr rfl)
    · rw [h]; exact .inl rfl
  | decStart =>
    refine ⟨by simp, ?_, by simp, by simp⟩
    rcases headerBody_frame h with ⟨e, w, rfl, he⟩ | rfl
    · exact .inr (.inr rfl)
    · exact .inl rfl
  | decStep =>
    refine ⟨by simp, ?_, by simp, by simp⟩
    rcases decStepBody_frame h with ⟨e, w, rfl, he⟩ | h
    · exact .inr (.inr rfl)
    · rw [h.1]; exact .inl rfl
  | decompress =>
    refine ⟨by simp, ?_, by simp, by simp⟩
    rcases (decompressBody_frame h).2.1 with k | k
    · exact .inl k
    · exact .inr (.inr k.2.1)
  | illegal w => cases h; exact ⟨(fun h => by cases h), .inr (.inr rfl), by simp, by simp⟩
  | streamHeader c u =>
    refine ⟨by simp [Instr.space], ?_, by simp, by simp⟩
    rcases headerBody_frame h with ⟨e, w, rfl, he⟩ | rfl
    · exact .inr (.inr rfl)
    · exact .inl rfl
  | streamCtrl b =>
    refine ⟨by simp [Instr.space], ?_, by simp, by simp⟩
    rcases itemAt_frame h with ⟨e, w, rfl, he⟩ | h
    · exact .inr (.inr rfl)
    · rw [h.1]; exact .inl rfl
  | lit v => 
    refine ⟨by simp [Instr.space], ?_, by simp, by simp⟩
    rw [(literalItem_frame h).1]; exact .inl rfl
  | ref off lc =>
    refine ⟨by simp [Instr.space], ?_, by simp, by simp⟩
    rcases referenceItem_frame h with ⟨e, w, rfl, he⟩ | h
    · exact .inr (.inr rfl)
    · rw [h.1]; exact .inl rfl

/-- MF_INIT, ENC_START and COMPRESS build a window in order (R45, R46). -/
theorem body_builds {s t : State} {i : Instr} (h : s.Inv) (he : s.err = .none) (hb :
    execBody i s = .ok t) (ht : t.err = .none)
   (hi : i = .mfInit ∨ i = .encStart ∨ i = .compress) : t.OrderOk ∧ t.ContentOk := by
  rcases hi with rfl | rfl | rfl
  · rcases checkInput_inv hb with rfl | ⟨_, hb⟩
    · simp at ht
    · obtain ⟨ix, h1, hb⟩ := Run.bind_ok hb
      cases hb
      exact seeded_order h1 rfl rfl (window_refl _)
  · rcases encStartBody_cases h he with ⟨w, hw⟩ | ⟨hi, ho, ix, h1, hw, _⟩
    · change encStartBody s = _ at hb
      rw [hw] at hb; cases hb; simp at ht
    · change encStartBody s = _ at hb
      rw [hw] at hb; cases hb
      exact seeded_order h1 rfl rfl (window_refl _)
  · exact compressBody_order h he hb ht

/-- Every body keeps the order of the tree (R45), and all but three its contents (R46). -/
theorem body_order {s t : State} {i : Instr} (h : s.Inv) (he : s.err = .none) (hb :
    execBody i s = .ok t) (ho : s.OrderOk)
   (ha : allowed ((execWord i).extractLsb' 0 8) s.mode = true) :
   t.OrderOk ∧ (i ≠ .mfClear → i ≠ .mfInsert → i ≠ .mfRemove → s.ContentOk → t.ContentOk) := by
  have hsi := execBody_sameInput i hb
  have hw := window_of_input hsi
  have same : t.index = s.index → t.cur = s.cur → t.OrderOk ∧ (i ≠ .mfClear → i ≠ .mfInsert →
      i ≠ .mfRemove → s.ContentOk → t.ContentOk) :=
    fun a b => ⟨ho.of_same a b hw, fun _ _ _ k => k.of_same a b hw⟩
  have so := (orderOk_iff s).1 ho
  cases i with
  | nop => cases hb; exact same rfl rfl
  | clearErr => cases hb; exact same rfl rfl
  | mfClear => cases hb; exact ⟨.of_empty rfl, fun h => absurd rfl h⟩
  | mfInit =>
    rcases checkInput_inv hb with rfl | ⟨_, hb⟩
    · exact same rfl rfl
    · obtain ⟨ix, h1, hb⟩ := Run.bind_ok hb
      cases hb
      have := seeded_order (t := { s with index := ix, cur := 0x1000 }) h1 rfl rfl (window_refl _)
      exact ⟨this.1, fun _ _ _ _ => this.2⟩
  | mfInsert =>
    rcases checkInput_inv hb with rfl | ⟨_, hb⟩
    · exact same rfl rfl
    · split at hb
      · cases hb; exact same rfl rfl
      · rename_i hc
        obtain ⟨ix, h1, hb⟩ := Run.bind_ok hb
        cases hb
        refine ⟨(orderOk_iff _).2 ?_, fun _ h => absurd rfl h⟩
        simp only [not_or, not_not, Bool.not_eq_false] at hc
        have hl : s.cur.toNat ≤ s.arg.toNat + 4095 ∧ s.arg.toNat + 1 ≤ s.cur.toNat := by
          simpa [liveRange] using hc.1
        exact (so.insert h.window.shape (fun _ => rfl) hc.2 (posOf_slotOf h.window.low hl.1 (by omega)) h1).1
  | mfRemove =>
    simp only [execBody, mfRemoveBody] at hb
    split at hb
    · cases hb; exact same rfl rfl
    · rename_i hc
      obtain ⟨ix, h1, hb⟩ := Run.bind_ok hb
      cases hb
      refine ⟨(orderOk_iff _).2 ?_, fun _ _ h => absurd rfl h⟩
      simp only [not_or] at hc
      exact so.remove h.window.shape hc.2 h1
  | mfAdvance =>
    rcases checkInput_inv hb with rfl | ⟨hi, hb⟩
    · exact same rfl rfl
    · split at hb
      · cases hb; exact same rfl rfl
      · rename_i hc
        obtain ⟨ix, h1, hb⟩ := Run.bind_ok hb
        cases hb
        have := advanced_order (t := { s with index := ix, cur := BitVec.ofNat 32 (s.cur.toNat + s.arg.toNat) }) h.window ho h1 (by
          have := h.caps.inHigh
          unfold endPos at hc
          simp only [BitVec.toNat_ofNat]; omega) (window_refl _)
        exact ⟨this.1, fun _ _ _ => this.2⟩
  | mfSearch =>
    rcases checkInput_inv hb with rfl | ⟨_, hb⟩
    · exact same rfl rfl
    · obtain ⟨m, _, hb⟩ := Run.bind_ok hb; cases hb; exact same rfl rfl
  | mfReadNode =>
    simp only [execBody, mfReadNodeBody] at hb
    split at hb
    · cases hb; exact same rfl rfl
    · cases hb; exact same rfl rfl
  | encStart =>
    change encStartBody s = _ at hb
    rcases encStartBody_cases h he with ⟨w, hw⟩ | ⟨hi, ho, ix, h1, hw, _⟩
    · rw [hw] at hb; cases hb; exact same rfl rfl
    · rw [hw] at hb; cases hb
      have := seeded_order (t := s.encStarted ix) h1 rfl rfl (window_refl _)
      exact ⟨this.1, fun _ _ _ _ => this.2⟩
  | encStep =>
    have hm : s.mode = .encoding := by simpa [allowed, execWord] using ha
    simp only [execBody, encStepBody] at hb
    split at hb
    · cases hb; exact same rfl rfl
    · split at hb
      · cases hb
      · rename_i hc _
        obtain ⟨m, t', _, _, h1, h2, h3, h4⟩ := encodeItem_ok h hm (by omega)
        rw [h1] at hb; cases hb
        have := h2.order h.window ho
        exact ⟨this.1, fun _ _ _ => this.2⟩
  | encFinish =>
    rcases encFinishBody_frame hb with rfl | hx
    · exact same rfl rfl
    · exact same (by rw [hx]) (by rw [hx])
  | compress =>
    by_cases ht : t.err = .none
    · have := compressBody_order h he hb ht
      exact ⟨this.1, fun _ _ _ _ => this.2⟩
    · rcases compressBody_frame hb with ⟨w, rfl⟩ | hx
      · exact same rfl rfl
      · rw [hx] at ht; exact absurd he ht
  | decStart =>
    rcases headerBody_frame hb with ⟨e, w, rfl, _⟩ | hx
    · exact same rfl rfl
    · exact same (by rw [hx]; rfl) (by rw [hx]; rfl)
  | decStep =>
    rcases decStepBody_frame hb with ⟨e, w, rfl, _⟩ | hx
    · exact same rfl rfl
    · exact same (by rw [hx.1]) (by rw [hx.1])
  | decompress => exact same (by rw [(decompressBody_frame hb).1]) (by rw [(decompressBody_frame hb).1])
  | illegal w => cases hb; exact same rfl rfl
  | streamHeader c u =>
    rcases headerBody_frame hb with ⟨e, w, rfl, _⟩ | hx
    · exact same rfl rfl
    · exact same (by rw [hx]; rfl) (by rw [hx]; rfl)
  | streamCtrl b =>
    rcases itemAt_frame hb with ⟨e, w, rfl, _⟩ | hx
    · exact same rfl rfl
    · exact same (by rw [hx.1]) (by rw [hx.1])
  | lit v => exact same (by rw [(literalItem_frame hb).1]) (by rw [(literalItem_frame hb).1])
  | ref off lc =>
    rcases referenceItem_frame hb with ⟨e, w, rfl, _⟩ | hx
    · exact same rfl rfl
    · exact same (by rw [hx.1]) (by rw [hx.1])

end Sys2Proof.Machine
end

