-- ==== Sys2Proof/Laws/PerInstr.lean ====
section
/-! SUPPORT. Laws/PerInstr.lean: what holds of each instruction as syntax: its encoding has the size of its
space (R85, R90, R91, R93, R94, R98). -/

namespace Sys2Proof.Laws.EncodingLength

/-- The encoding of the instruction has as many bytes as its space gives it. -/
def Statement (i : Instr) : Prop := (encode i).length = i.space.size

theorem nop : Statement .nop := rfl
theorem clearErr : Statement .clearErr := rfl
theorem mfClear : Statement .mfClear := rfl
theorem mfInit : Statement .mfInit := rfl
theorem mfInsert : Statement .mfInsert := rfl
theorem mfRemove : Statement .mfRemove := rfl
theorem mfAdvance : Statement .mfAdvance := rfl
theorem mfSearch : Statement .mfSearch := rfl
theorem mfReadNode : Statement .mfReadNode := rfl
theorem encStart : Statement .encStart := rfl
theorem encStep : Statement .encStep := rfl
theorem encFinish : Statement .encFinish := rfl
theorem compress : Statement .compress := rfl
theorem decStart : Statement .decStart := rfl
theorem decStep : Statement .decStep := rfl
theorem decompress : Statement .decompress := rfl
theorem illegal (w : Word) : Statement (.illegal w) := rfl
theorem streamHeader (csize usize : Word) : Statement (.streamHeader csize usize) := rfl
theorem streamCtrl (bits : Byte) : Statement (.streamCtrl bits) := rfl
theorem lit (v : Byte) : Statement (.lit v) := rfl
theorem ref (off : BitVec 12) (lc : BitVec 4) : Statement (.ref off lc) := rfl

end Sys2Proof.Laws.EncodingLength
end

