-- ==== Sys2Proof/Tests/Slice0.lean ====
section
/-! SUPPORT. Tests/Slice0.lean: the model's own tests. Expected values are those of spec/95_test_vectors.md, named
beside each test, or written out from the tables of the rule named. -/

namespace Sys2Proof.Tests

open Sys2Proof Sys2Proof.Machine

/-! ## Well-formedness: a command's word is no illegal word (R88) -/

theorem test_illegal_nop_refused : (Instr.illegal 0x00).wellFormed = false := by decide
theorem test_illegal_mfRemove_refused : (Instr.illegal 0x05).wellFormed = false := by decide
theorem test_illegal_decompress_refused : (Instr.illegal 0x0F).wellFormed = false := by decide
theorem test_illegal_words_accepted : (Instr.illegal 0x10).wellFormed = true ∧
    (Instr.illegal 0xFF).wellFormed = true ∧ (Instr.illegal 0x100).wellFormed = true := by decide

/-! ## Decoding: one word per row of the opcode table, written out from R86, R90, R91, R93 and R94 -/

theorem test_decode_control : decodeTableWord 32 0x00000000 = some .nop ∧
    decodeTableWord 32 0x00000001 = some .clearErr := by decide

theorem test_decode_matchIndex : decodeTableWord 32 0x00000002 = some .mfClear ∧
    decodeTableWord 32 0x00000003 = some .mfInit ∧ decodeTableWord 32 0x00000004 = some .mfInsert ∧
    decodeTableWord 32 0x00000005 = some .mfRemove ∧ decodeTableWord 32 0x00000006 = some .mfAdvance ∧
    decodeTableWord 32 0x00000007 = some .mfSearch ∧ decodeTableWord 32 0x00000008 = some .mfReadNode := by
  decide

theorem test_decode_encoder : decodeTableWord 32 0x00000009 = some .encStart ∧
    decodeTableWord 32 0x0000000A = some .encStep ∧ decodeTableWord 32 0x0000000B = some .encFinish ∧
    decodeTableWord 32 0x0000000C = some .compress := by decide

theorem test_decode_decoder : decodeTableWord 32 0x0000000D = some .decStart ∧
    decodeTableWord 32 0x0000000E = some .decStep ∧ decodeTableWord 32 0x0000000F = some .decompress := by
  decide

/-- V-SYS-1, P4. -/
theorem test_decode_illegal : decodeTableWord 32 0x00000010 = some (.illegal 0x10) ∧
    decodeTableWord 32 0x00000101 = some (.illegal 0x101) ∧
    decodeTableWord 32 0x80000000 = some (.illegal 0x80000000) := by decide

/-- S1's header: `0D 00 00 00 0A 00 00 00`. -/
theorem test_decode_header : decodeTableWord 64 0x0000000A0000000D = some (.streamHeader 13 10) := by decide

theorem test_decode_streamCtrl : decodeTableWord 8 0x03 = some (.streamCtrl 0x03) := by decide

theorem test_decode_lit : decode .literal [0x41, 0x42] = some (.lit 0x41, [0x42]) := by decide

/-- S1's reference `EE F5`: offset 0xFEE, length 8; S4's `DF F0`: offset 0xFDF, length 3. -/
theorem test_decode_ref : decodeTableWord 16 0xF5EE = some (.ref 0xFEE 5) ∧
    decodeTableWord 16 0xF0DF = some (.ref 0xFDF 0) := by decide

theorem test_decode_short : decode .reference [0xEE] = none ∧ decode .command [0, 0, 0] = none := by decide

/-- The table of 95_test_vectors.md section 2.1: off from cur and backset, and the backset from off. -/
theorem test_offsets : refOffset 0 1 = 0xFED ∧ refOffset 0 15 = 0xFDF ∧ refOffset 1 1 = 0xFEE ∧
    refOffset 2 2 = 0xFEE ∧ refOffset 21 3 = 0 ∧ refOffset 4113 4095 = 0 ∧ refOffset 5000 1 = 0x375 ∧
    refBackset 0 0xFED = 1 ∧ refBackset 0 0xFDF = 15 ∧ refBackset 1 0xFEE = 1 ∧ refBackset 2 0xFEE = 2 ∧
    refBackset 21 0 = 3 ∧ refBackset 4113 0 = 4095 ∧ refBackset 5000 0x375 = 1 ∧ refBackset 18 0 = 0 := by
  decide

/-! ## States -/

/-- After reset, with the given bytes loaded (LOAD_INPUT, R103). -/
def loaded (bytes : List Byte) : State :=
  { State.reset with inMem := Memory.writeBytes [] 0 bytes, inLen := BitVec.ofNat 32 bytes.length }

/-- The state a step ends in, if it ends in one. -/
def next? : Host.Outcome State Fault Refusal → Option State
  | .next t => some t
  | .fault _ => none
  | .refused _ => none

/-- The registers at the given offsets after a command. -/
def regs (i : Instr) (s : State) (offs : List Nat) : Option (List Word) :=
  (next? (exec i s)).map fun t => offs.map t.regView

/-- "DBFACEG" with the tree of V-MF-1 step 1, written out from its text, and CUR = 4103. -/
def treeState : State :=
  { loaded [0x44, 0x42, 0x46, 0x41, 0x43, 0x45, 0x47] with
    cur := 0x1007
    index := ⟨.slot 0, [(0, ⟨.rootMark, .slot 1, .slot 2⟩), (1, ⟨.slot 0, .slot 3, .slot 4⟩),
      (2, ⟨.slot 0, .slot 5, .slot 6⟩), (3, ⟨.slot 1, .nil, .nil⟩), (4, ⟨.slot 1, .nil, .nil⟩),
      (5, ⟨.slot 2, .nil, .nil⟩), (6, ⟨.slot 2, .nil, .nil⟩)]⟩ }

/-- The tree of V-MF-1 after its three removals. -/
def prunedState : State :=
  { treeState with index := ⟨.slot 5, [(1, ⟨.slot 5, .slot 3, .nil⟩), (3, ⟨.slot 1, .nil, .nil⟩),
      (5, ⟨.rootMark, .slot 1, .slot 6⟩), (6, ⟨.slot 5, .nil, .nil⟩)]⟩ }

/-- "ABCDABCEABCF" with the tree of V-MF-5, worked out by hand from R123, and CUR = 4104. -/
def tieState : State :=
  { loaded [0x41, 0x42, 0x43, 0x44, 0x41, 0x42, 0x43, 0x45, 0x41, 0x42, 0x43, 0x46] with
    cur := 0x1008
    index := ⟨.slot 0, [(0, ⟨.rootMark, .nil, .slot 1⟩), (1, ⟨.slot 0, .slot 4, .slot 2⟩),
      (2, ⟨.slot 1, .slot 5, .slot 3⟩), (3, ⟨.slot 2, .slot 6, .slot 7⟩), (4, ⟨.slot 1, .nil, .nil⟩),
      (5, ⟨.slot 2, .nil, .nil⟩), (6, ⟨.slot 3, .nil, .nil⟩), (7, ⟨.slot 3, .nil, .nil⟩)]⟩ }

/-- "ABABABABAB" with an encode run open at CUR = 4098, as V-ENC-1's first two steps leave it: the chain of
V-MF-3 below slot 0xFEE, then 'A' (slot 0) and 'B' (slot 1) on its right. -/
def encState : State :=
  { loaded [0x41, 0x42, 0x41, 0x42, 0x41, 0x42, 0x41, 0x42, 0x41, 0x42] with
    mode := .encoding, cur := 0x1002, outLen := 11, encGptr := 8, encCnt := 2, encCtrl := 0x03
    outMem := [(9, 0x41), (10, 0x42)]
    index := ⟨.slot 0xFEE, (0, ⟨.slot 0xFFF, .nil, .slot 1⟩) :: (1, ⟨.slot 0, .nil, .nil⟩) ::
      (List.range 18).map fun i => (0xFEE + i,
        ⟨if i = 0 then .rootMark else .slot (slotOf (0xFED + i)), .nil, .slot (slotOf (0xFEF + i))⟩)⟩ }

/-- The same run before its first step: the seeded window of V-MF-3. -/
def seedState : State :=
  { encState with
    cur := 0x1000, outLen := 8, encGptr := 0, encCnt := 8, encCtrl := 0, outMem := []
    index := ⟨.slot 0xFEE, (List.range 18).map fun i => (0xFEE + i,
        ⟨if i = 0 then .rootMark else .slot (slotOf (0xFED + i)), .nil,
          if i = 17 then .nil else .slot (slotOf (0xFEF + i))⟩)⟩ }

/-- S1's stream with a decode run open after two steps (V-DEC-1). -/
def decState : State :=
  { loaded [0x0D, 0, 0, 0, 0x0A, 0, 0, 0, 0x03, 0x41, 0x42, 0xEE, 0xF5] with
    mode := .decoding, decInPtr := 11, decU := 10, decC := 13, decBit := 2, decCtrl := 0x03, outLen := 2
    outMem := [(0, 0x41), (1, 0x42)] }

/-! ## One step of each instruction -/

/-- V-SYS-2: NOP with ERR 5 pending and DROP set changes nothing. -/
theorem test_nop : regs .nop { State.reset with err := .illegalCommand, errInfo := 0x10, drop := true } [0x08, 0x0C] =
    some [0x150, 0x10] := by decide +kernel

/-- V-SYS-2. -/
theorem test_clearErr :
    regs .clearErr { State.reset with err := .illegalCommand, errInfo := 0x10, drop := true } [0x08, 0x0C] =
      some [0, 0] := by decide +kernel

/-- V-SYS-1. -/
theorem test_illegal : regs (.illegal 0x101) State.reset [0x08, 0x0C] = some [0x50, 0x101] := by decide +kernel

/-- R133's example. -/
theorem test_mfClear : regs .mfClear treeState [0x18, 0x1C, 0x20] = some [0x1000, 0x1000, 2] := by decide +kernel

/-- V-MF-9's kind of error: IN_LEN = IN_CAP + 1. (A whole seed is 4095 inserts: see NOTES.md.) -/
theorem test_mfInit_tooLong : regs .mfInit { State.reset with inLen := 4097 } [0x08, 0x0C] =
    some [0x30, 4097] := by decide +kernel

/-- V-MF-1 step 5: D goes in below B, on the right. -/
theorem test_mfInsert : (next? (exec .mfInsert { prunedState with arg := 0x1000 })).map
    (fun t => (t.index.node 0, t.index.node 1, t.index.root)) =
      some (⟨.slot 1, .nil, .nil⟩, ⟨.slot 5, .slot 3, .slot 0⟩, .slot 5) := by decide +kernel

/-- V-MF-9. -/
theorem test_mfInsert_occupied : regs .mfInsert { treeState with arg := 0x1000 } [0x08, 0x0C] =
    some [0x60, 0x1000] := by decide +kernel

/-- V-MF-1 step 2: the root with two children; its successor E is not its right child. -/
theorem test_mfRemove : (next? (exec .mfRemove { treeState with arg := 0x1000 })).map
    (fun t => (t.index.root, t.index.node 5, t.index.node 2, t.index.node 0)) =
      some (.slot 5, ⟨.rootMark, .slot 1, .slot 2⟩, ⟨.slot 5, .nil, .slot 6⟩, .empty) := by decide +kernel

/-- V-MF-9: below CUR - 4095 = 8. -/
theorem test_mfRemove_range : regs .mfRemove { treeState with arg := 7 } [0x08, 0x0C] =
    some [0x60, 7] := by decide +kernel

/-- V-MF-1 step 1: the whole tree, from an empty one. -/
theorem test_mfAdvance : next? (exec .mfAdvance { treeState with cur := 0x1000, index := .cleared, arg := 7 }) =
    some { treeState with arg := 7 } := by decide +kernel

/-- V-MF-2: an equal key replaces the older node. -/
theorem test_mfAdvance_equal :
    (next? (exec .mfAdvance { loaded (List.replicate 20 0x58) with arg := 2 })).map
      (fun t => (t.index.root, t.index.node 0, t.index.node 1)) =
        some (.slot 1, .empty, ⟨.rootMark, .nil, .nil⟩) := by decide +kernel

/-- V-MF-5: of two matches of length 3 the first met is kept. -/
theorem test_mfSearch : regs .mfSearch tieState [0x20, 0x24, 0x18] = some [3, 0x1000, 0x1008] := by decide +kernel

/-- V-MF-6. -/
theorem test_mfSearch_empty : regs .mfSearch State.reset [0x20, 0x24] = some [2, 0] := by decide +kernel

/-- P3's last read: slot 1 of the pruned tree. -/
theorem test_mfReadNode : regs .mfReadNode { prunedState with arg := 1 } [0x28, 0x2C, 0x30] =
    some [0x005, 0x003, 0x1000] := by decide +kernel

/-- V-MF-9. -/
theorem test_mfReadNode_range : regs .mfReadNode { treeState with arg := 0x1000 } [0x08, 0x0C] =
    some [0x60, 0x1000] := by decide +kernel

/-- V-ENC-5: need = 8 + 2 + 10 = 20 bytes do not fit 19. -/
theorem test_encStart_tooSmall :
    regs .encStart { loaded (List.replicate 10 0x41) with outCap := 19 } [0x08, 0x0C] = some [0x30, 0x14] := by
  decide +kernel

/-- V-ENC-1, the first step: a literal that opens a group. -/
theorem test_encStep_literal : regs .encStep seedState [0x18, 0x14, 0x34, 0x38, 0x20, 0x24, 0x08] =
    some [0x1001, 10, 8, 0x0101, 2, 0, 0x4] := by decide +kernel

/-- V-ENC-1, the third step: a reference of length 8, its bytes `EE F5`. -/
theorem test_encStep_reference : (next? (exec .encStep encState)).map (fun t =>
    ([0x18, 0x14, 0x38, 0x20, 0x24].map t.regView, t.outMem.read 11, t.outMem.read 12)) =
      some ([0x100A, 13, 0x0303, 8, 0x1000], 0xEE, 0xF5) := by decide +kernel

/-- V-ENC-1, ENC_FINISH: the control byte and the header. -/
theorem test_encFinish : (next? (exec .encFinish { encState with cur := 0x100A, outLen := 13, encCnt := 3 })).map
    (fun t => (t.regView 0x08, (List.range 9).map t.outMem.read)) =
      some (0x2, [0x0D, 0, 0, 0, 0x0A, 0, 0, 0, 0x03]) := by decide +kernel

/-- V-ENC-5: ENC_FINISH with input left. -/
theorem test_encFinish_early : regs .encFinish encState [0x08, 0x0C] = some [0x70, 0x0B] := by decide +kernel

/-- R166 with V-ENC-5's check. -/
theorem test_compress_tooSmall :
    regs .compress { loaded (List.replicate 10 0x41) with outCap := 19 } [0x08, 0x0C] = some [0x30, 0x14] := by
  decide +kernel

/-- V-DEC-1, DEC_START. -/
theorem test_decStart : regs .decStart { decState with mode := .idle } [0x08, 0x3C, 0x40, 0x44, 0x48, 0x14] =
    some [0x8, 8, 10, 13, 0x0008, 0] := by decide +kernel

/-- V-DEC-7. -/
theorem test_decStart_tooLarge : regs .decStart (loaded [8, 0, 0, 0, 0x01, 0x20, 0, 0]) [0x08, 0x0C] =
    some [0x30, 0x2001] := by decide +kernel

/-- V-DEC-1, the third step: an overlapping copy that completes the output. -/
theorem test_decStep : (next? (exec .decStep decState)).map (fun t =>
    ([0x08, 0x3C, 0x48, 0x14].map t.regView, (List.range 10).map t.outMem.read)) =
      some ([0x2, 13, 0x0303, 10], [0x41, 0x42, 0x41, 0x42, 0x41, 0x42, 0x41, 0x42, 0x41, 0x42]) := by
  decide +kernel

/-- V-DEC-4: backset 0, with the control byte undone. -/
theorem test_decStep_malformed :
    regs .decStep { loaded [0x0B, 0, 0, 0, 3, 0, 0, 0, 0x00, 0xEE, 0xF0] with
      mode := .decoding, decInPtr := 8, decU := 3 } [0x08, 0x0C, 0x3C, 0x48, 0x14] =
      some [0x20, 0, 8, 0x0008, 0] := by decide +kernel

/-- S1, whole (V-DEC-2). -/
theorem test_decompress : (next? (exec .decompress { decState with mode := .idle, outMem := [], outLen := 0 })).map
    (fun t => (t.regView 0x08, t.decInPtr, (List.range 10).map t.outMem.read)) =
      some (0x2, 13, [0x41, 0x42, 0x41, 0x42, 0x41, 0x42, 0x41, 0x42, 0x41, 0x42]) := by decide +kernel

/-- V-DEC-5, whole: the two literals stay, the third is missing. -/
theorem test_decompress_truncated :
    regs .decompress (loaded [0x0B, 0, 0, 0, 4, 0, 0, 0, 0xFF, 0x41, 0x42]) [0x08, 0x0C, 0x14] =
      some [0x10, 11, 2] := by decide +kernel

/-- S5: an empty output completes at once. -/
theorem test_streamHeader : regs (.streamHeader 8 0) (loaded [8, 0, 0, 0, 0, 0, 0, 0]) [0x08, 0x44, 0x14] =
    some [0x2, 8, 0] := by decide +kernel

/-- S4: the control byte 0x00 with `ED F2` after it: five zero bytes. -/
theorem test_streamCtrl : (next? (exec (.streamCtrl 0x00)
    { loaded [0x0B, 0, 0, 0, 5, 0, 0, 0, 0x00, 0xED, 0xF2] with mode := .decoding, decInPtr := 8, decU := 5 })).map
      (fun t => ([0x08, 0x3C, 0x48, 0x14].map t.regView, t.outMem)) = some ([0x2, 11, 0x0001, 5], []) := by
  decide +kernel

/-- V-DEC-1, the second step. -/
theorem test_lit : regs (.lit 0x42) { decState with decInPtr := 10, decBit := 1, outLen := 1 }
    [0x08, 0x3C, 0x48, 0x14] = some [0x8, 11, 0x0302, 2] := by decide +kernel

/-- V-DEC-6: OUTPUT_OVERRUN at OUT_LEN 1 with DEC_U = 2. -/
theorem test_ref_overrun : regs (.ref 0xFEE 0) { decState with
    decInPtr := 10, decBit := 1, decCtrl := 0x01, outLen := 1, decU := 2 } [0x08, 0x0C, 0x14, 0x3C, 0x48] =
      some [0x40, 1, 1, 10, 0x0101] := by decide +kernel

/-- V-DEC-8: zero fill longer than the reference. -/
theorem test_ref_zeros : (next? (exec (.ref 0x000 0) { decState with
    decBit := 0, decCtrl := 0x00, outLen := 0, decU := 3, outMem := [(3, 0xAA)] })).map
      (fun t => (t.regView 0x08, t.outMem)) = some (0x2, [(3, 0xAA)]) := by decide +kernel

/-! ## The host -/

/-- V-SYS-4: a host write to IN_LEN in ENCODING mode is dropped. -/
theorem test_store_dropped : (next? (step { encState with host := [.storeReg 0x10 5] })).map
    (fun t => (t.statusWord, t.inLen)) = some (0x104, 10) := by decide +kernel

/-- R102, R103, P4's illegal word as a host program: run when it is written, BUSY until the POLL. -/
theorem test_statement : (next? (step { State.reset with host := hostCommand 0x100 })).map
    (fun t => (t.statusWord, t.errInfo, t.host)) = some (0x51, 0x100, [.poll]) := by decide +kernel

/-- A word placed for the next step is the one it runs: S4's reference `ED F2`, five zero bytes. -/
theorem test_withFetchWord : (next? (step (State.reset.withFetchWord 16 0xF2ED))).map
    (fun t => (t.err, t.decInPtr, t.outLen)) = some (.none, 10, 5) := by decide +kernel

/-! ## Witnesses: for each obligation with hypotheses, a state and operands that meet all of them

Where a clause is bounded, at a value on its boundary. -/

/-- A small block after reset: 64 bytes of IN and of OUT. -/
def fresh : State := State.afterReset 64 64 [] []

/-- An idle block about to see the given accesses. -/
def idle (l : List HostAccess) : State := { fresh with host := l }

/-- A busy block about to see the given accesses. -/
def busy (l : List HostAccess) : State := { fresh with engine := .running, host := l }

theorem fresh_inv : fresh.Inv :=
  .of_fresh ⟨by decide, by decide, by decide⟩ (by decide) (by decide) rfl rfl rfl

/-- An encode run just opened over three zero bytes, with one node in its tree. -/
def encOpen : State :=
  { fresh with
    mode := .encoding, inLen := 3, outLen := 8
    index := (Index.cleared.setRoot (.slot 5)).setParent 5 .rootMark }

theorem encOpen_tree : encOpen.WindowOk where
  shape := ⟨_, Index.IsTree.plantRoot (ix := .cleared) (rank := fun _ => 0)
    (by constructor <;> simp) rfl (by simp)⟩
  low := by decide
  free := by decide

theorem encOpen_inv : encOpen.Inv where
  caps := ⟨by decide, by decide, by decide⟩
  storage := ⟨by decide, by decide, by decide, by decide, by decide, by decide⟩
  window := encOpen_tree
  run := ⟨by decide, by decide, fun _ => ⟨by decide, by decide, by decide, by decide, ⟨0, by decide, by decide⟩,
    by decide, by decide⟩, fun h => absurd h (by decide)⟩

/-- A decode run just opened: 12 bytes of stream, 3 bytes to produce. -/
def decOpen : State :=
  { fresh with mode := .decoding, inLen := 12, decInPtr := 8, decU := 3 }

theorem decOpen_run : decOpen.DecodingOk := ⟨by decide, by decide, by decide, by decide, by decide⟩

/-- The seeded window of a block after reset: built in order, holding what R46 says. -/
theorem seeded_exists : ∃ s : State, s.Inv ∧ s.err = .none ∧ s.mode = .idle ∧ s.OrderOk ∧ s.ContentOk := by
  obtain ⟨ix, h1, _, h3, h4, h5⟩ := State.seed_state_ok fresh
  have k := State.seeded_order (s := fresh) (t := { fresh with index := ix, cur := 0x1000 }) h1 rfl rfl
    (State.window_refl _)
  exact ⟨_, fresh_inv.withIndex (cur := 0x1000) rfl h4 h3 h5 (by decide) (by decide), rfl, rfl, k.1, k.2⟩

/-- A finished COMPRESS over an empty input, and a block that holds its stream. -/
theorem compressed_exists : ∃ t d : State, exec .compress fresh = .next t ∧ t.err = .none ∧ d.Inv ∧ d.err = .none ∧
    d.inLen = t.outLen ∧ d.inLen.toNat ≤ d.inCap.toNat ∧ 8 ≤ t.outLen.toNat ∧
    ∀ a, a < t.outLen.toNat → d.inMem.read a = t.outMem.read a := by
  obtain ⟨ix, u, t, h1, h2, h3, h4, h5, h6, h7, h9, h10, h11⟩ :=
    run_compress fresh_inv rfl (by decide) (by decide)
  have hl : t.outLen = u.outLen := by rw [h9.rest]
  have hc : t.inCap = 64 ∧ t.outCap = 64 ∧ t.err = .none := by rw [h9.rest, h7]; exact ⟨rfl, rfl, rfl⟩
  obtain ⟨g, g1, g2⟩ := (h4.run.encoding h5).groups
  have h8 := (h4.run.encoding h5).headerOut
  have hN : fresh.endPos = 4096 := rfl
  refine ⟨t.endActivity, { State.afterReset t.inCap t.outCap t.outMem [] with inLen := t.outLen }, h11, hc.2.2,
    .of_fresh ⟨?_, ?_, ?_⟩ ⟨h10.storage.outWf, ?_⟩ ⟨?_, ?_⟩ rfl rfl rfl, rfl, rfl, ?_, ?_, fun _ _ => rfl⟩
  · show 8 ≤ t.inCap.toNat; rw [hc.1]; decide
  · show t.inCap.toNat ≤ 2 ^ 31; rw [hc.1]; decide
  · show 8 ≤ t.outCap.toNat; rw [hc.2.1]; decide
  · have := h10.storage.outBound; rw [hc.2.1] at this; show ∀ c ∈ t.outMem, c.1 < t.inCap.toNat; rw [hc.1]
    exact this
  · exact ⟨List.Pairwise.nil, fun _ h => nomatch h⟩
  · exact fun _ h => nomatch h
  · show t.outLen.toNat ≤ t.inCap.toNat; rw [hl, hc.1]; have := (h4.run.encoding h5).counted; simp; omega
  · show 8 ≤ t.outLen.toNat; rw [hl]; exact h8

theorem witness_OpcodeMap : (15 : Word).toNat < 16 ∧ 16 ≤ (16 : Word).toNat := by decide

theorem witness_DecodeOfEncode : (Instr.illegal 0x10).wellFormed = true ∧ (Instr.ref 0xFEE 5).wellFormed = true := by
  decide

theorem witness_EncodeOfDecode : decode .reference [0xEE, 0xF5] = some (.ref 0xFEE 5, []) := by decide

theorem witness_OffsetFormulasAgree : 1 ≤ 1 ∧ 1 ≤ 4095 ∧ 1 ≤ 4095 ∧ 4095 ≤ 4095 := by decide

/-- The two ends of the range of R42, and the three directions of R121. -/
theorem witness_KeysAndPositions :
    (4096 ≤ 4096 ∧ 4096 ≤ 1 + 4095 ∧ 1 ≤ 4096 ∧ 1 % 4096 = (1 : Slot).val) ∧
    (4096 ≤ 4096 + 4095 ∧ 4096 ≤ 4096 ∧ 4096 % 4096 = (0 : Slot).val) ∧
    (cmpKey treeState.window 4096 4096 18).1 = 18 ∧ (cmpKey treeState.window 1 2 0).1 = 0 ∧
    (cmpKey treeState.window 4097 4096 18).1 < 18 ∧ (cmpKey treeState.window 4096 4097 18).1 < 18 := by
  decide +kernel

theorem witness_StepRunsCommand :
    (∃ (s t : State) (l : List HostAccess), s.engine = .idle ∧ s.host = .storeReg 0x00 0x02 :: l ∧
      exec (decodeCommand 0x02) { s with host := l, engine := .running } = .next t) ∧
    (∃ s : State, s.engine ≠ .idle ∧ s.host = []) ∧
    (∃ (s : State) (l : List HostAccess), s.engine ≠ .idle ∧ s.host = .poll :: l) ∧
    (∃ (s : State) (l : List HostAccess), s.engine ≠ .idle ∧ s.host = .engineEnds :: l) ∧
    ∃ s : State, s.engine = .idle ∧ s.host = [] :=
  ⟨⟨idle [.storeReg 0x00 0x02], _, [], rfl, rfl, rfl⟩, ⟨busy [], by decide, rfl⟩,
    ⟨busy [.poll], [], by decide, rfl⟩, ⟨busy [.engineEnds], [], by decide, rfl⟩, fresh, rfl, rfl⟩

theorem witness_CommandStatementRuns : ∃ (s t : State) (w : Word) (l : List HostAccess), s.engine = .idle ∧
    s.host = hostCommand w ++ l ∧
    exec (decodeCommand w) { s with engine := .running, host := .poll :: l } = .next t :=
  ⟨idle (hostCommand 0x00), _, 0x00, [], rfl, rfl, rfl⟩

/-- Each form; the literal at the last byte of the stream, the reference at its last two. -/
theorem witness_DecoderReadsForms :
    (∃ s : State, s.mode = .decoding ∧ s.DecodingOk ∧ s.decInPtr.toNat < s.inLen.toNat ∧ s.decBit = 8) ∧
    (∃ s : State, s.mode = .decoding ∧ s.DecodingOk ∧ s.decInPtr.toNat + 1 = s.inLen.toNat ∧ s.decBit ≠ 8 ∧
      s.decCtrl.getLsbD s.decBit.val = true) ∧
    ∃ s : State, s.mode = .decoding ∧ s.DecodingOk ∧ s.decBit ≠ 8 ∧ s.decCtrl.getLsbD s.decBit.val = false ∧
      s.decInPtr.toNat + 2 = s.inLen.toNat :=
  ⟨⟨decOpen, rfl, decOpen_run, by decide, rfl⟩,
    ⟨{ decOpen with decInPtr := 11, decBit := 7, decCtrl := 0x80 }, rfl,
      ⟨by decide, by decide, by decide, by decide, by decide⟩, by decide, by decide, by decide⟩,
    ⟨{ decOpen with decInPtr := 10, decBit := 0 }, rfl,
      ⟨by decide, by decide, by decide, by decide, by decide⟩, by decide, by decide, by decide⟩⟩

theorem witness_CmdRegister :
    (∃ (s : State) (l : List HostAccess), s.host = .storeReg 0x00 7 :: l ∧ s.engine = .idle ∧ s.Inv) ∧
    (∃ (s : State) (l : List HostAccess), s.host = .storeReg 0x00 7 :: l ∧ s.engine ≠ .idle) ∧
    ∃ (s : State) (l : List HostAccess), s.host = .loadReg 0x00 :: l ∧ s.engine = .idle :=
  ⟨⟨idle [.storeReg 0x00 7], [], rfl, rfl, fresh_inv.withHost _⟩, ⟨busy [.storeReg 0x00 7], [], rfl, by decide⟩,
    idle [.loadReg 0x00], [], rfl, rfl⟩

theorem witness_ArgRegister :
    (∃ (s : State) (l : List HostAccess), s.host = .storeReg 0x04 7 :: l ∧ s.engine = .idle) ∧
    (∃ (s : State) (l : List HostAccess), s.host = .storeReg 0x04 7 :: l ∧ s.engine ≠ .idle) ∧
    (∃ (s : State) (l : List HostAccess), s.host = .loadReg 0x04 :: l ∧ s.engine = .idle) ∧
    ∃ (i : Instr) (s t : State), exec i s = .next t :=
  ⟨⟨idle [.storeReg 0x04 7], [], rfl, rfl⟩, ⟨busy [.storeReg 0x04 7], [], rfl, by decide⟩,
    ⟨idle [.loadReg 0x04], [], rfl, rfl⟩, .nop, fresh, _, rfl⟩

theorem witness_CommandsLeaveInput :
    (∃ (s : State) (l : List HostAccess), s.host = .storeReg 0x10 7 :: l ∧ s.engine = .idle ∧ s.mode = .idle) ∧
    (∃ (s : State) (l : List HostAccess), s.host = .storeReg 0x10 7 :: l ∧ ¬ (s.engine = .idle ∧ s.mode = .idle)) ∧
    ∃ (i : Instr) (s t : State), exec i s = .next t :=
  ⟨⟨idle [.storeReg 0x10 7], [], rfl, rfl, rfl⟩, ⟨{ encOpen with host := [.storeReg 0x10 7] }, [], rfl, by decide⟩,
    .mfClear, fresh, _, rfl⟩

/-- At the last address of each space. -/
theorem witness_HostWriteGating :
    (∃ (s : State) (l : List HostAccess), s.host = .storeIn 63 1 :: l ∧ 63 + 1 = s.inCap.toNat ∧ s.engine = .idle ∧
      s.mode = .idle) ∧
    (∃ (s : State) (l : List HostAccess), s.host = .storeIn 63 1 :: l ∧ 63 + 1 = s.inCap.toNat ∧
      ¬ (s.engine = .idle ∧ s.mode = .idle)) ∧
    ∃ (s : State) (l : List HostAccess), s.host = .storeOut 63 1 :: l ∧ 63 + 1 = s.outCap.toNat :=
  ⟨⟨idle [.storeIn 63 1], [], rfl, rfl, rfl, rfl⟩, ⟨busy [.storeIn 63 1], [], rfl, rfl, by decide⟩,
    idle [.storeOut 63 1], [], rfl, rfl⟩

theorem witness_WritesWhileBusy :
    (∃ (s : State) (l : List HostAccess), s.engine ≠ .idle ∧ s.host = .storeReg 0x10 7 :: l) ∧
    (∃ (s : State) (l : List HostAccess), s.engine ≠ .idle ∧ s.host = .storeIn 63 1 :: l ∧ 63 + 1 = s.inCap.toNat) ∧
    (∃ (s : State) (l : List HostAccess), s.engine ≠ .idle ∧ s.host = .storeReg 0x08 7 :: l) ∧
    ∃ (s : State) (l : List HostAccess), s.engine ≠ .idle ∧ s.host = .storeReg 0xFC 7 :: l :=
  ⟨⟨busy [.storeReg 0x10 7], [], by decide, rfl⟩, ⟨busy [.storeIn 63 1], [], by decide, rfl, rfl⟩,
    ⟨busy [.storeReg 0x08 7], [], by decide, rfl⟩, busy [.storeReg 0xFC 7], [], by decide, rfl⟩

theorem witness_HostReads :
    (∃ (s : State) (l : List HostAccess), s.host = .loadReg 0x54 :: l ∧ s.engine = .idle ∧ (0x54, 64) ∈ s.registers) ∧
    (∃ (s : State) (l : List HostAccess), s.host = .loadIn 63 :: l ∧ 63 + 1 = s.inCap.toNat) ∧
    ∃ (s : State) (l : List HostAccess), s.host = .loadOut 63 :: l ∧ 63 + 1 = s.outCap.toNat ∧ s.engine = .idle :=
  ⟨⟨idle [.loadReg 0x54], [], rfl, rfl, by decide⟩, ⟨idle [.loadIn 63], [], rfl, rfl⟩,
    idle [.loadOut 63], [], rfl, rfl, rfl⟩

/-- The constants, and the first and the last reserved offset. -/
theorem witness_ConstantsAndReserved :
    (∃ (s : State) (l : List HostAccess), s.engine = .idle ∧ s.host = .loadReg 0x4C :: l) ∧
    (∃ (s : State) (l : List HostAccess), s.engine = .idle ∧ s.host = .loadReg 0x50 :: l) ∧
    (∃ (s : State) (l : List HostAccess), s.engine = .idle ∧ s.host = .loadReg 0x54 :: l) ∧
    (∃ s t : State, step s = .next t) ∧
    (∃ (s : State) (l : List HostAccess), s.host = .loadReg 0x58 :: l ∧ 0x58 ≤ 0x58 ∧ 0x58 % 4 = 0) ∧
    ∃ (s : State) (l : List HostAccess), s.host = .storeReg 0xFC 1 :: l ∧ 0xFC ≤ 0xFC ∧ 0xFC % 4 = 0 :=
  ⟨⟨idle [.loadReg 0x4C], [], rfl, rfl⟩, ⟨idle [.loadReg 0x50], [], rfl, rfl⟩, ⟨idle [.loadReg 0x54], [], rfl, rfl⟩,
    ⟨fresh, fresh, rfl⟩, ⟨busy [.loadReg 0x58], [], rfl, by decide, by decide⟩,
    idle [.storeReg 0xFC 1], [], rfl, by decide, by decide⟩

theorem witness_ReadsWhileBusy :
    (∃ (s : State) (l : List HostAccess), s.engine ≠ .idle ∧ s.host = .loadReg 0x08 :: l) ∧
    (∃ (s : State) (l : List HostAccess), s.engine ≠ .idle ∧ s.host = .loadReg 0x00 :: l) ∧
    (∃ (s : State) (l : List HostAccess), s.engine ≠ .idle ∧ s.host = .loadReg 0x54 :: l) ∧
    ∃ (s : State) (l : List HostAccess), s.engine ≠ .idle ∧ s.host = .loadOut 63 :: l ∧ 63 + 1 = s.outCap.toNat :=
  ⟨⟨busy [.loadReg 0x08], [], by decide, rfl⟩, ⟨busy [.loadReg 0x00], [], by decide, rfl⟩,
    ⟨busy [.loadReg 0x54], [], by decide, rfl⟩, busy [.loadOut 63], [], by decide, rfl, rfl⟩

/-- One past each space, and a register offset that is no multiple of 4. -/
theorem witness_OutsideAccessRefused :
    (0xFF < 0x100 ∧ ∃ (s : State) (l : List HostAccess), s.host = .storeReg 0x100 1 :: l) ∧
    (1 % 4 ≠ 0 ∧ ∃ (s : State) (l : List HostAccess), s.host = .loadReg 1 :: l) ∧
    (∃ (s : State) (l : List HostAccess), s.inCap.toNat = 64 ∧ s.host = .storeIn 64 1 :: l) ∧
    (∃ (s : State) (l : List HostAccess), s.inCap.toNat = 64 ∧ s.host = .loadIn 64 :: l) ∧
    (∃ (s : State) (l : List HostAccess), s.outCap.toNat = 64 ∧ s.host = .storeOut 64 1 :: l) ∧
    ∃ (s : State) (l : List HostAccess), s.outCap.toNat = 64 ∧ s.host = .loadOut 64 :: l :=
  ⟨⟨by decide, idle [.storeReg 0x100 1], [], rfl⟩, ⟨by decide, idle [.loadReg 1], [], rfl⟩,
    ⟨idle [.storeIn 64 1], [], rfl, rfl⟩, ⟨idle [.loadIn 64], [], rfl, rfl⟩,
    ⟨idle [.storeOut 64 1], [], rfl, rfl⟩, idle [.loadOut 64], [], rfl, rfl⟩

theorem witness_ResetValues : (∃ s : State, s = State.afterReset 8 8 [] []) ∧ 0x58 ≤ 0x58 := ⟨⟨_, rfl⟩, by decide⟩

theorem witness_PlatformReset : ∃ (s : State) (l : List HostAccess), s.host = .platformReset :: l :=
  ⟨busy [.platformReset], [], rfl⟩

/-- A pending error in a state of the invariant, and the smallest word it refuses. -/
theorem witness_PendingErrorRefuses : ∃ s : State, s.err ≠ .none ∧ s.Inv ∧ 2 ≤ (2 : Word).toNat :=
  ⟨fresh.raise .sequence 0x0E, by decide, fresh_inv.raise _ _, by decide⟩

theorem witness_IllegalCommandRaises : fresh.err = .none ∧ (0x100 : Word).extractLsb' 8 24 ≠ 0 ∧
    0x10 ≤ ((0x10 : Word).extractLsb' 0 8).toNat := by decide

/-- A "no" of each row of R207, and the two cases of R222 that the mode allows, ENC_STEP at CUR = END. -/
theorem witness_SequenceErrors :
    encOpen.err = .none ∧ (2 : Word).toNat = 2 ∧ (6 : Word).toNat = 6 ∧ encOpen.mode ≠ .idle ∧
    decOpen.err = .none ∧ (7 : Word).toNat = 7 ∧ (8 : Word).toNat = 8 ∧ decOpen.mode = .decoding ∧
    (10 : Word).toNat = 10 ∧ (11 : Word).toNat = 11 ∧ fresh.err = .none ∧ fresh.mode ≠ .encoding ∧
    (14 : Word).toNat = 14 ∧ fresh.mode ≠ .decoding ∧
    (∃ s : State, s.err = .none ∧ s.mode = .encoding ∧ s.endPos = s.cur.toNat) ∧
    ∃ s : State, s.err = .none ∧ s.mode = .encoding ∧ s.cur.toNat ≠ s.endPos := by
  refine ⟨rfl, rfl, rfl, by decide, rfl, rfl, rfl, rfl, rfl, rfl, rfl, by decide, rfl, by decide,
    ⟨{ encOpen with inLen := 0 }, rfl, rfl, rfl⟩, encOpen, rfl, rfl, by decide⟩

theorem witness_ErrorKeepsTheRest : ∃ (s t : State) (w : Word), s.err = .none ∧ w.toNat ≠ 0x0F ∧
    exec (decodeCommand w) s = .next t ∧ t.err ≠ .none :=
  ⟨fresh, _, 0x10, rfl, by decide, rfl, by decide⟩

theorem witness_ErrorsAreSticky : ∃ (i : Instr) (s t : State), i.wellFormed = true ∧ i ≠ .clearErr ∧
    exec i s = .next t ∧ s.drop = true ∧ s.err ≠ .none :=
  ⟨.mfClear, { fresh with drop := true, err := .sequence }, _, rfl, by decide, rfl, rfl, by decide⟩

/-- Each clause: a run opened, a run left open, a run closed, DONE set, an error, and DONE left. -/
theorem witness_ModeAndDoneChanges :
    (∃ (i : Instr) (s t : State), s.Inv ∧ exec i s = .next t ∧ t.mode = .encoding) ∧
    (∃ (i : Instr) (s t : State), exec i s = .next t ∧ t.mode = .decoding) ∧
    (∃ t : State, fresh.Inv ∧ exec .compress fresh = .next t ∧ fresh.err = .none) ∧
    (∃ (i : Instr) (s t : State), exec i s = .next t ∧ t.done = true) ∧
    (∃ (i : Instr) (s t : State), exec i s = .next t ∧ s.err = .none ∧ t.err ≠ .none) ∧
    (∃ s t : State, exec .nop s = .next t) ∧ ∃ s t : State, exec .mfClear s = .next t ∧ t.err = s.err :=
  ⟨⟨.nop, encOpen, _, encOpen_inv, rfl, rfl⟩, ⟨.nop, decOpen, _, rfl, rfl⟩,
    (run_compress fresh_inv rfl (by decide) (by decide)).elim fun _ h => h.elim fun _ h => h.elim fun t h =>
      ⟨_, fresh_inv, h.2.2.2.2.2.2.2.2.2, rfl⟩,
    ⟨.nop, { fresh with done := true }, _, rfl, rfl⟩, ⟨.illegal 0x10, fresh, _, rfl, rfl, by decide⟩,
    ⟨fresh, _, rfl⟩, fresh, _, rfl, rfl⟩

theorem witness_RegisterWriters : ∃ (w : Word) (s t : State), exec (decodeCommand w) s = .next t ∧ w ≠ 0x08 ∧
    w ≠ 0x07 ∧ w ≠ 0x09 ∧ w ≠ 0x0A ∧ w ≠ 0x0C ∧ w ≠ 0x0D ∧ w ≠ 0x0E ∧ w ≠ 0x0F ∧ w.toNat < 0x09 ∧ w ≠ 0x02 ∧
    w ≠ 0x03 ∧ w ≠ 0x06 ∧ w ≠ 0x04 ∧ w ≠ 0x05 :=
  ⟨0x01, fresh, _, rfl, by decide⟩

theorem witness_RegisterWriters_encFinish : ∃ s t : State, exec (decodeCommand 0x0B) s = .next t := ⟨fresh, _, rfl⟩

theorem witness_DecoderFrame : ∃ (s t : State) (off : BitVec 12) (lc : BitVec 4), exec (.ref off lc) s = .next t :=
  ⟨{ decOpen with decBit := 0 }, _, 0xFEE, 0, rfl⟩

/-- One past each capacity, in every mode the clause speaks of. -/
theorem witness_AllocationFailure :
    (∃ s : State, s.err = .none ∧ s.inLen.toNat = s.inCap.toNat + 1 ∧ s.mode = .idle) ∧
    (∃ s : State, s.err = .none ∧ s.inLen.toNat = s.inCap.toNat + 1 ∧ s.mode = .encoding) ∧
    (∃ s : State, s.err = .none ∧ s.inLen.toNat ≤ s.inCap.toNat ∧
      s.outCap.toNat + 1 = 8 + (s.inLen.toNat + 7) / 8 + s.inLen.toNat) ∧
    (∃ s : State, s.err = .none ∧ s.inLen.toNat ≤ s.inCap.toNat ∧ s.inLen.toNat = 8 ∧
      (s.le32 4).toNat = s.outCap.toNat + 1) ∧
    ∃ s t : State, s.err = .none ∧ exec .mfRemove s = .next t :=
  ⟨⟨{ fresh with inLen := 65 }, rfl, rfl, rfl⟩, ⟨{ encOpen with inLen := 65 }, rfl, rfl, rfl⟩,
    ⟨{ fresh with inLen := 10, outCap := 19 }, rfl, by decide, rfl⟩,
    ⟨{ fresh with inLen := 8, inMem := [(4, 65)] }, rfl, by decide, rfl, rfl⟩, fresh, _, rfl, rfl⟩

/-- One byte short in each case. -/
theorem witness_TruncatedStream :
    (∃ s : State, s.err = .none ∧ s.inLen.toNat ≤ s.inCap.toNat ∧ s.inLen.toNat = 7) ∧
    (∃ s : State, s.err = .none ∧ s.mode = .decoding ∧ s.DecodingOk ∧ s.decBit = 8 ∧
      s.inLen.toNat = s.decInPtr.toNat) ∧
    (∃ s : State, s.err = .none ∧ s.mode = .decoding ∧ s.DecodingOk ∧ s.decBit = 8 ∧
      s.decInPtr.toNat < s.inLen.toNat ∧ (s.inMem.read s.decInPtr.toNat).getLsbD 0 = false ∧
      s.inLen.toNat + 1 = s.decInPtr.toNat + 3) ∧
    ∃ s : State, s.err = .none ∧ s.mode = .decoding ∧ s.DecodingOk ∧ s.decBit ≠ 8 ∧
      s.decCtrl.getLsbD s.decBit.val = true ∧ s.inLen.toNat + 1 = s.decInPtr.toNat + 1 :=
  ⟨⟨{ fresh with inLen := 7 }, rfl, by decide, rfl⟩,
    ⟨{ decOpen with decInPtr := 12 }, rfl, rfl, ⟨by decide, by decide, by decide, by decide, by decide⟩, rfl, rfl⟩,
    ⟨{ decOpen with decInPtr := 10 }, rfl, rfl, ⟨by decide, by decide, by decide, by decide, by decide⟩, rfl,
      by decide, by decide, rfl⟩,
    { decOpen with decInPtr := 12, decBit := 0, decCtrl := 1 }, rfl, rfl,
    ⟨by decide, by decide, by decide, by decide, by decide⟩, by decide, by decide, rfl⟩

/-- Backset 0 (V-DEC-4), and backset 1 with the output one byte too small. -/
theorem witness_ReferenceErrors : ∃ s : State, s.err = .none ∧ s.mode = .decoding ∧ s.decBit ≠ 8 ∧
    s.decCtrl.getLsbD s.decBit.val = false ∧
    ((s.outLen.toNat : Int) - 18 - (0xFEE : BitVec 12).toNat) % 4096 = 0 ∧
    ((s.outLen.toNat : Int) - 18 - (0xFED : BitVec 12).toNat) % 4096 ≠ 0 ∧
    s.decU.toNat + 1 = s.outLen.toNat + ((1 : BitVec 4).toNat + 3) ∧ ∃ t, exec (.ref 0xFED 1) s = .next t :=
  ⟨{ decOpen with decBit := 0 }, rfl, rfl, by decide, by decide, by decide, by decide, rfl, _, rfl⟩

theorem witness_ControlCommands : (0x100 : Word).extractLsb' 0 8 = 0 ∧ (0x100 : Word) ≠ 0 := by decide

theorem witness_MfClearInitResult : fresh.err = .none ∧ fresh.mode = .idle ∧ encOpen.err = .none ∧
    encOpen.mode ≠ .idle ∧ fresh.inLen.toNat ≤ fresh.inCap.toNat := ⟨rfl, rfl, rfl, by decide, by decide⟩

/-- Below the live range, above it and in an occupied slot; then its two ends, both slots empty. -/
theorem witness_MfInsertResult : ∃ s : State, s.err = .none ∧ s.mode = .idle ∧ s.inLen.toNat ≤ s.inCap.toNat ∧
    s.WindowOk ∧ 0 + 4095 < s.cur.toNat ∧ s.cur.toNat < 4096 + 1 ∧ s.index.parent (slotOf 5) ≠ .nil ∧
    s.cur.toNat = 1 + 4095 ∧ s.index.parent (slotOf 1) = .nil ∧ s.cur.toNat = 4095 + 1 ∧
    s.index.parent (slotOf 4095) = .nil ∧ s.arg.toNat = 4095 :=
  ⟨{ encOpen with mode := .idle, arg := 4095 }, rfl, rfl, by decide,
    ⟨encOpen_tree.shape, encOpen_tree.low, encOpen_tree.free⟩, by decide, by decide, by decide, rfl, by decide, rfl,
    by decide, rfl⟩

theorem witness_MfRemoveResult : ∃ s : State, s.err = .none ∧ s.mode = .idle ∧ s.WindowOk ∧
    0 + 4095 < s.cur.toNat ∧ s.cur.toNat < 4096 + 1 ∧ s.index.parent (slotOf 4095) = .nil ∧
    s.cur.toNat ≤ s.arg.toNat + 4095 ∧ s.arg.toNat + 1 ≤ s.cur.toNat ∧
    s.index.parent (slotOf s.arg.toNat) ≠ .nil :=
  ⟨{ encOpen with mode := .idle, arg := 5 }, rfl, rfl, ⟨encOpen_tree.shape, encOpen_tree.low, encOpen_tree.free⟩,
    by decide, by decide, by decide, by decide, by decide, by decide⟩

/-- To END exactly, and one past it. -/
theorem witness_MfAdvanceResult :
    (∃ s : State, s.err = .none ∧ s.mode = .idle ∧ s.inLen.toNat ≤ s.inCap.toNat ∧
      4096 + s.inLen.toNat + 1 = s.cur.toNat + s.arg.toNat) ∧
    ∃ s : State, s.err = .none ∧ s.mode = .idle ∧ s.inLen.toNat ≤ s.inCap.toNat ∧ s.WindowOk ∧
      s.inCap.toNat ≤ 2 ^ 31 ∧ s.cur.toNat + s.arg.toNat = 4096 + s.inLen.toNat :=
  ⟨⟨{ encOpen with mode := .idle, arg := 4 }, rfl, rfl, by decide, rfl⟩,
    { encOpen with mode := .idle, arg := 3 }, rfl, rfl, by decide,
    ⟨encOpen_tree.shape, encOpen_tree.low, encOpen_tree.free⟩, by decide, rfl⟩

/-- A match to find; none to find, with 2 bytes left; an empty tree. -/
theorem witness_MfSearchResult :
    (∃ s : State, s.err = .none ∧ s.mode ≠ .decoding ∧ s.inLen.toNat ≤ s.inCap.toNat ∧ s.WindowOk ∧
      findLongestMatch s.window s.cur.toNat s.index = .ok (3, 5)) ∧
    (∃ s : State, s.err = .none ∧ s.mode ≠ .decoding ∧ s.inLen.toNat ≤ s.inCap.toNat ∧ s.WindowOk ∧
      s.endPos = s.cur.toNat + 2) ∧
    ∃ s : State, s.err = .none ∧ s.mode ≠ .decoding ∧ s.inLen.toNat ≤ s.inCap.toNat ∧ s.WindowOk ∧
      s.index.root = .nil :=
  ⟨⟨encOpen, rfl, by decide, by decide, encOpen_tree, rfl⟩,
    ⟨{ encOpen with inLen := 2 }, rfl, by decide, by decide,
      ⟨encOpen_tree.shape, encOpen_tree.low, encOpen_tree.free⟩, rfl⟩,
    fresh, rfl, by decide, by decide, fresh_inv.window, rfl⟩

theorem witness_SearchFindsLongest : ∃ s : State, s.err = .none ∧ s.mode ≠ .decoding ∧
    s.inLen.toNat ≤ s.inCap.toNat ∧ s.WindowOk ∧ s.OrderOk ∧ s.index.root ≠ .nil :=
  ⟨encOpen, rfl, by decide, by decide, encOpen_tree, (State.orderOk_iff _).2 (.empty (by simp [encOpen]) (by simp [encOpen])),
    by decide⟩

theorem witness_MfReadNodeResult :
    (∃ s : State, s.err = .none ∧ s.mode ≠ .decoding ∧ s.arg.toNat = 4096) ∧
    (∃ (s : State) (k : Slot), s.err = .none ∧ s.mode ≠ .decoding ∧ k.val = s.arg.toNat ∧ k.val = 4095) ∧
    ∃ s : State, s.err = .none ∧ s.mode = .decoding :=
  ⟨⟨{ fresh with arg := 4096 }, rfl, by decide, rfl⟩, ⟨{ fresh with arg := 4095 }, 4095, rfl, by decide, rfl, rfl⟩,
    decOpen, rfl, rfl⟩

/-- A stream that fits exactly: 8 + 7 + 49 = 64 bytes. -/
theorem witness_EncStartResult : ∃ s : State, s.err = .none ∧ s.inLen.toNat ≤ s.inCap.toNat ∧
    8 + (s.inLen.toNat + 7) / 8 + s.inLen.toNat = s.outCap.toNat :=
  ⟨{ fresh with inLen := 49 }, rfl, by decide, rfl⟩

theorem encOpen_shorter (n : Nat) (h : n ≤ 3) : ({ encOpen with inLen := BitVec.ofNat 32 n } : State).Inv := by
  interval_cases n <;> exact ⟨⟨by decide, by decide, by decide⟩,
    ⟨by decide, by decide, by decide, by decide, by decide, by decide⟩,
    ⟨encOpen_tree.shape, encOpen_tree.low, encOpen_tree.free⟩,
    ⟨by decide, by decide, fun _ => ⟨by decide, by decide, by decide, by decide, ⟨0, by decide, by decide⟩,
      by decide, by decide⟩, fun h => absurd h (by decide)⟩⟩

/-- A literal as the last item. -/
theorem witness_EncStepLiteral : ∃ s : State, s.Inv ∧ s.err = .none ∧ s.mode = .encoding ∧
    s.cur.toNat + 1 = s.endPos ∧ findLongestMatch s.window s.cur.toNat s.index = .ok (2, 0) :=
  ⟨{ encOpen with inLen := 1 }, encOpen_shorter 1 (by decide), rfl, rfl, rfl, rfl⟩

/-- A reference of the shortest length, to the end of the data. -/
theorem witness_EncStepReference : ∃ s : State, s.Inv ∧ s.err = .none ∧ s.mode = .encoding ∧
    s.cur.toNat < s.endPos ∧ findLongestMatch s.window s.cur.toNat s.index = .ok (3, 5) ∧ 3 ≤ 3 :=
  ⟨encOpen, encOpen_inv, rfl, rfl, by decide, rfl, by decide⟩

theorem witness_EncFinishResult : ∃ s : State, s.Inv ∧ s.err = .none ∧ s.mode = .encoding ∧ s.cur.toNat = s.endPos :=
  ⟨{ encOpen with inLen := 0 }, encOpen_shorter 0 (by decide), rfl, rfl, rfl⟩

theorem witness_CompressResult : fresh.Inv ∧ fresh.err = .none ∧ fresh.inLen.toNat ≤ fresh.inCap.toNat ∧
    8 + (fresh.inLen.toNat + 7) / 8 + fresh.inLen.toNat ≤ fresh.outCap.toNat :=
  ⟨fresh_inv, rfl, by decide, by decide⟩

theorem witness_CompressIsStepped : fresh.Inv ∧ fresh.err = .none ∧ fresh.inLen.toNat ≤ fresh.inCap.toNat ∧
    8 + (fresh.inLen.toNat + 7) / 8 + fresh.inLen.toNat ≤ fresh.outCap.toNat := witness_CompressResult

theorem witness_CompressDependsOnInput : ∃ s r t u : State, s.Inv ∧ r.Inv ∧ s.err = .none ∧ r.err = .none ∧
    s.inLen = r.inLen ∧ (∀ a, a < s.inLen.toNat → s.inMem.read a = r.inMem.read a) ∧
    exec .compress s = .next t ∧ exec .compress r = .next u ∧ t.err = .none ∧ u.err = .none := by
  obtain ⟨t, _, h1, h2, _⟩ := compressed_exists
  exact ⟨fresh, fresh, t, t, fresh_inv, fresh_inv, rfl, rfl, rfl, fun _ _ => rfl, h1, h1, h2, h2⟩

/-- A header of exactly 8 bytes, for an output that fills OUT. -/
theorem witness_DecStartResult : ∃ s : State, s.err = .none ∧ s.inLen.toNat ≤ s.inCap.toNat ∧ s.inLen.toNat = 8 ∧
    (s.le32 4).toNat = s.outCap.toNat ∧ (64 : Word).toNat = s.outCap.toNat :=
  ⟨{ fresh with inLen := 8, inMem := [(4, 64)] }, rfl, by decide, rfl, rfl, rfl⟩

theorem witness_LiteralResult : ∃ s : State, s.err = .none ∧ s.mode = .decoding ∧ s.DecodingOk ∧ s.decBit ≠ 8 ∧
    s.decCtrl.getLsbD s.decBit.val = true ∧ s.decInPtr.toNat + 1 = s.inLen.toNat :=
  ⟨{ decOpen with decInPtr := 11, decBit := 7, decCtrl := 0x80 }, rfl, rfl,
    ⟨by decide, by decide, by decide, by decide, by decide⟩, by decide, by decide, rfl⟩

/-- A reference before the start of OUT that completes the output. -/
theorem witness_RefResult : ∃ (s : State) (len back : Nat), s.err = .none ∧ s.mode = .decoding ∧ s.DecodingOk ∧
    s.decBit ≠ 8 ∧ s.decCtrl.getLsbD s.decBit.val = false ∧ len = (0 : BitVec 4).toNat + 3 ∧
    (back : Int) = ((s.outLen.toNat : Int) - 18 - (0xFED : BitVec 12).toNat) % 4096 ∧ back ≠ 0 ∧
    s.outLen.toNat + len = s.decU.toNat :=
  ⟨{ decOpen with decBit := 0 }, 3, 1, rfl, rfl, ⟨by decide, by decide, by decide, by decide, by decide⟩, by decide,
    by decide, by decide, by decide, by decide, rfl⟩

/-- A control byte and its item at the end of the stream, for each kind of item. -/
theorem witness_StreamCtrlResult :
    (∃ (s : State) (v : Byte), s.err = .none ∧ s.mode = .decoding ∧ s.DecodingOk ∧ s.decBit = 8 ∧
      (1 : Byte).getLsbD 0 = true ∧ s.decInPtr.toNat + 2 = s.inLen.toNat ∧
      v = s.inMem.read (s.decInPtr.toNat + 1)) ∧
    ∃ (s : State) (off : BitVec 12) (lc : BitVec 4) (t : State), s.err = .none ∧ s.mode = .decoding ∧ s.DecodingOk ∧
      s.decBit = 8 ∧ (0 : Byte).getLsbD 0 = false ∧ s.decInPtr.toNat + 3 = s.inLen.toNat ∧
      decode .reference [s.inMem.read (s.decInPtr.toNat + 1), s.inMem.read (s.decInPtr.toNat + 2)] =
        some (.ref off lc, []) ∧
      exec (.ref off lc) { s with decInPtr := s.decInPtr + 1, decBit := 0, decCtrl := 0 } = .next t :=
  ⟨⟨{ decOpen with decInPtr := 10 }, 0, rfl, rfl, ⟨by decide, by decide, by decide, by decide, by decide⟩, rfl,
      by decide, rfl, rfl⟩,
    { decOpen with decInPtr := 9 }, 0, 0, _, rfl, rfl, ⟨by decide, by decide, by decide, by decide, by decide⟩, rfl,
    by decide, rfl, rfl, rfl⟩

/-- The shortest and the longest such stream: 10 and 17 bytes. -/
theorem witness_DecompressLiterals :
    (∃ s : State, s.Inv ∧ s.err = .none ∧ (s.le32 4).toNat = 1 ∧ s.inMem.read 8 = 0xFF ∧ 9 + 1 = s.inLen.toNat ∧
      s.inLen.toNat ≤ s.inCap.toNat ∧ 1 ≤ s.outCap.toNat) ∧
    ∃ s : State, s.Inv ∧ s.err = .none ∧ (s.le32 4).toNat = 8 ∧ s.inMem.read 8 = 0xFF ∧ 9 + 8 = s.inLen.toNat ∧
      s.inLen.toNat ≤ s.inCap.toNat ∧ 8 ≤ s.outCap.toNat :=
  ⟨⟨{ fresh with inLen := 10, inMem := [(4, 1), (8, 0xFF)] },
      .of_fresh ⟨by decide, by decide, by decide⟩ (by decide) (by decide) rfl rfl rfl, rfl, rfl, rfl, rfl, by decide,
      by decide⟩,
    { fresh with inLen := 17, inMem := [(4, 8), (8, 0xFF)] },
    .of_fresh ⟨by decide, by decide, by decide⟩ (by decide) (by decide) rfl rfl rfl, rfl, rfl, rfl, rfl, by decide,
    by decide⟩

theorem witness_DecompressIsStepped : fresh.Inv ∧ fresh.err = .none := ⟨fresh_inv, rfl⟩

theorem witness_RoundTrip : ∃ s t d : State, s.Inv ∧ s.err = .none ∧ s.inLen.toNat ≤ s.inCap.toNat ∧
    8 + (s.inLen.toNat + 7) / 8 + s.inLen.toNat ≤ s.outCap.toNat ∧ exec .compress s = .next t ∧
    d.Inv ∧ d.err = .none ∧ d.inLen = t.outLen ∧ d.inLen.toNat ≤ d.inCap.toNat ∧
    s.inLen.toNat ≤ d.outCap.toNat ∧ ∀ a, a < t.outLen.toNat → d.inMem.read a = t.outMem.read a := by
  obtain ⟨t, d, h1, h2, h3, h4, h5, h6, h7, h8⟩ := compressed_exists
  exact ⟨fresh, t, d, fresh_inv, rfl, by decide, by decide, h1, h3, h4, h5, h6, Nat.zero_le _, h8⟩

/-- The smallest legal capacities. -/
theorem witness_ResetMeetsInvariant : 8 ≤ (8 : Word).toNat ∧ (8 : Word).toNat ≤ 2 ^ 31 ∧
    Memory.wf [(0, 1), (7, 2)] ∧ ∀ c ∈ ([(0, 1), (7, 2)] : Memory), c.1 < (8 : Word).toNat := by decide

theorem witness_EveryStepKeepsInvariant : ∃ s t : State, s.Inv ∧ step s = .next t :=
  ⟨{ fresh with host := [.storeIn 63 1] }, _, fresh_inv.withHost _, rfl⟩

theorem witness_OrderInvariant :
    (∃ s t : State, s.Inv ∧ s.OrderOk ∧ step s = .next t ∧ t.inLen = s.inLen ∧
      ∀ a, a < s.inLen.toNat → t.inMem.read a = s.inMem.read a) ∧
    ∃ s t : State, s.Inv ∧ s.err = .none ∧ exec .mfClear s = .next t ∧ t.err = .none :=
  ⟨⟨fresh, fresh, fresh_inv, .of_empty rfl, rfl, rfl, fun _ _ => rfl⟩, fresh, _, fresh_inv, rfl, rfl, rfl⟩

theorem witness_ContentInvariant :
    (∃ t : State, fresh.Inv ∧ fresh.err = .none ∧ exec .compress fresh = .next t ∧ t.err = .none) ∧
    ∃ (s t : State) (w : Word), s.Inv ∧ s.OrderOk ∧ s.ContentOk ∧ exec (decodeCommand w) s = .next t ∧ w ≠ 0x02 ∧
      w ≠ 0x04 ∧ w ≠ 0x05 := by
  obtain ⟨t, _, h1, h2, _⟩ := compressed_exists
  obtain ⟨s, k1, k2, k3, k4, k5⟩ := seeded_exists
  obtain ⟨u, hu, _⟩ := exec_keeps k1 (decodeCommand 0x06) rfl
  exact ⟨⟨t, fresh_inv, rfl, h1, h2⟩, s, u, 0x06, k1, k4, k5, hu, by decide, by decide, by decide⟩

theorem witness_NoStepFaults : encOpen.Inv ∧ fresh.Inv := ⟨encOpen_inv, fresh_inv⟩

end Sys2Proof.Tests
end

section
/-! The proofs of the statements of family 10_state. First the laws of a step that they share: the next access of the
host list lands (R66, R76, log 5), and what may come of it. Then the invariants, and what the host reads and writes. -/

namespace Sys2Proof.Machine

open State

variable {s t : State} {rest : List HostAccess}

/-! ## One step, by the access that lands -/

theorem step_storeReg {off : Nat} {v : Word} (h : s.host = .storeReg off v :: rest) (ho : regOffset off = true) :
    step s = writeReg off v { s with host := rest } := by
  cases s; cases h; exact if_pos ho

theorem step_loadReg {off : Nat} (h : s.host = .loadReg off :: rest) (ho : regOffset off = true) :
    step s = .next (loadReg off { s with host := rest }) := by
  cases s; cases h; exact if_pos ho

theorem step_loadIn {a : Nat} (h : s.host = .loadIn a :: rest) (ha : a < s.inCap.toNat) :
    step s = .next (loadIn a { s with host := rest }) := by
  cases s; cases h; exact if_pos ha

theorem step_loadOut {a : Nat} (h : s.host = .loadOut a :: rest) (ha : a < s.outCap.toNat) :
    step s = .next (loadOut a { s with host := rest }) := by
  cases s; cases h; exact if_pos ha

theorem step_engineEnds (h : s.host = .engineEnds :: rest) :
    step s = .next (State.endActivity { s with host := rest }) := by
  cases s; cases h; rfl

theorem busy_of_idle (h : s.engine = .idle) : ¬ s.busy = true := by simp [State.busy, h]

theorem busy_of_ne (h : s.engine ≠ .idle) : s.busy = true := by simp [State.busy, h]

/-- A host read of REG with BUSY = 0 returns the register and changes nothing else (R21). -/
theorem step_loadReg_idle {off : Nat} (h : s.host = .loadReg off :: rest) (ho : regOffset off = true)
    (hb : s.engine = .idle) : step s = .next { s with host := rest, readData := s.regView off } :=
  (step_loadReg h ho).trans
    (congrArg Host.Outcome.next (if_neg fun hc => busy_of_idle hb (Bool.and_eq_true_iff.1 hc).1))

theorem regOffset_iff (off : Nat) : regOffset off = true ↔ off ≤ 0xFF ∧ off % 4 = 0 := by simp [regOffset]

/-- A host write to a register other than CMD starts nothing. -/
theorem writeReg_of_ne {off : Nat} (v : Word) (h : off ≠ 0x00) : writeReg off v s = .next (storeReg off v s) :=
  if_neg fun e => h e.1

/-- A host write to CMD with BUSY = 1 starts nothing (R22). -/
theorem writeReg_of_busy (off : Nat) (v : Word) (h : s.engine ≠ .idle) :
    writeReg off v s = .next (storeReg off v s) :=
  if_neg fun e => h e.2

/-- A host write to a reserved offset is ignored (R38). -/
theorem storeReg_reserved {off : Nat} (v : Word) (h : 0x54 < off) : storeReg off v s = s := by
  unfold storeReg
  split
  · omega
  · omega
  · omega
  · rfl

/-- A reserved offset reads 0 (R38). -/
theorem regView_reserved {off : Nat} (h : 0x54 < off) : s.regView off = 0 := by
  unfold State.regView
  split
  on_goal 23 => rfl
  all_goals omega

/-- A host read of a reserved offset returns 0, also while BUSY = 1 (R38, log 8). -/
theorem loadReg_reserved {off : Nat} (h : 0x54 < off) : loadReg off s = { s with readData := 0 } := by
  have hr : ¬ (s.busy && isRegister off) = true := by simp [isRegister, h]
  rw [← regView_reserved (s := s) h]
  exact if_neg hr

/-- What a host write to REG can do: store, or start a command that ends (R22, R200). -/
theorem writeReg_next {off : Nat} {v : Word} (h : writeReg off v s = .next t) :
    t = storeReg off v s ∨ ∃ u, exec (decodeCommand v) { s with engine := .running } = .next u ∧
      t = { u with engine := .running } := by
  unfold writeReg at h
  split at h
  · exact .inr (startCommand_next h)
  · cases h
    exact .inl rfl

/-- What every step that goes on does, on the state r whose host list has lost the access that lands: one case for
each thing that can land (R66, R76, R102, R240). A relation P of r and the state after the step holds when it holds
in each. -/
theorem step_elim {P : State → State → Prop}
    (ended : ∀ r, P r r.endActivity)
    (reset : ∀ r, P r (platformReset r))
    (regWrite : ∀ r off v, P r (storeReg off v r))
    (command : ∀ r w u, exec (decodeCommand w) { r with engine := .running } = .next u →
      P r { u with engine := .running })
    (regRead : ∀ r off, P r (loadReg off r))
    (inWrite : ∀ r a v, a < r.inCap.toNat → P r (storeIn a v r))
    (inRead : ∀ r a, P r (loadIn a r))
    (outWrite : ∀ r, P r r.dropped)
    (outRead : ∀ r a, P r (loadOut a r))
    (h : step s = .next t) : ∃ l, P { s with host := l } t := by
  unfold step busStep at h
  split at h
  · cases h; exact ⟨s.host, ended _⟩
  · cases h; exact ⟨_, ended _⟩
  · split at h
    · cases h; exact ⟨s.host, ended _⟩
    · cases h; exact ⟨_, regRead _ _⟩
  · cases h; exact ⟨_, reset _⟩
  · split at h
    · rcases writeReg_next h with rfl | ⟨u, hu, rfl⟩
      · exact ⟨_, regWrite _ _ _⟩
      · exact ⟨_, command _ _ u hu⟩
    · cases h
  · split at h
    · cases h; exact ⟨_, regRead _ _⟩
    · cases h
  · split at h
    · rename_i ha; cases h; exact ⟨_, inWrite _ _ _ ha⟩
    · cases h
  · split at h
    · cases h; exact ⟨_, inRead _ _⟩
    · cases h
  · split at h
    · cases h; exact ⟨_, outWrite _⟩
    · cases h
  · split at h
    · cases h; exact ⟨_, outRead _ _⟩
    · cases h

/-! ## Every step keeps the invariant -/

/-- An accepted command that ends keeps the invariant, BUSY held at 1 before and after it (R200). -/
theorem command_inv {w : Word} (h : s.Inv) (e : exec (decodeCommand w) { s with engine := .running } = .next t) :
    ({ t with engine := .running } : State).Inv := by
  obtain ⟨u, hu, hi⟩ := exec_keeps (h.withEngine .running) (decodeCommand w) (decodeCommand_space w)
  rw [e] at hu
  cases hu
  exact hi.withEngine .running

/-- Settles O57: by what may land in a step, each case one of the model's laws of `Inv`. -/
theorem everyStepKeepsInvariant : Obligations.EveryStepKeepsInvariant := by
  intro s t h hs
  obtain ⟨l, keeps⟩ := step_elim (P := fun r t => r.Inv → t.Inv)
    (ended := fun _ h => h.endActivity)
    (reset := fun _ h => platformReset_inv h)
    (regWrite := fun _ off v h => storeReg_inv h off v)
    (command := fun _ _ _ e h => command_inv h e)
    (regRead := fun _ off h => loadReg_inv h off)
    (inWrite := fun _ _ v ha h => storeIn_inv h v ha)
    (inRead := fun _ a h => loadIn_inv h a)
    (outWrite := fun _ h => h.dropped)
    (outRead := fun _ a h => loadOut_inv h a) hs
  exact keeps (h.withHost l)

/-! ## The order and the content of the tree -/

/-- The order depends on the tree, CUR, IN_LEN and the bytes of IN below it (R45, R67). -/
theorem State.OrderOk.of_tree (h : s.OrderOk) (ht : t.index = s.index ∧ t.cur = s.cur) (hl : t.inLen = s.inLen)
    (hm : ∀ a, a < s.inLen.toNat → t.inMem.read a = s.inMem.read a) : t.OrderOk :=
  h.of_same ht.1 ht.2 (window_same hl.symm fun a ha => (hm a ha).symm)

/-- Every instruction keeps the order of the tree (R45), and all but three its contents (R46); an error, or a
command refused for a pending one, leaves both. -/
theorem exec_order {i : Instr} (h : s.Inv) (ho : s.OrderOk) (hw : i.wellFormed = true)
    (e : exec i s = .next t) :
    t.OrderOk ∧ (i ≠ .mfClear → i ≠ .mfInsert → i ≠ .mfRemove → s.ContentOk → t.ContentOk) := by
  have same : t.index = s.index → t.cur = s.cur → t.OrderOk ∧ (i ≠ .mfClear → i ≠ .mfInsert →
      i ≠ .mfRemove → s.ContentOk → t.ContentOk) :=
    fun a b => ⟨ho.of_same a b (window_of_input (exec_sameInput e).1),
      fun _ _ _ k => k.of_same a b (window_of_input (exec_sameInput e).1)⟩
  rcases exec_next e with ⟨_, _, _, rfl⟩ | ⟨_, _, _, rfl, _⟩ | ⟨hp, _, ha, u, hu, rfl⟩
  · exact same rfl rfl
  · exact same rfl rfl
  · rcases hp with he | h0 | h1
    · obtain ⟨k1, k2⟩ := body_order h he hu ho ha
      exact ⟨k1.of_same rfl rfl (window_refl _), fun a b c k => (k2 a b c k).of_same rfl rfl (window_refl _)⟩
    · obtain rfl := (execWord_small i hw).1 h0
      cases hu; exact same rfl rfl
    · obtain rfl := (execWord_small i hw).2 h1
      cases hu; exact same rfl rfl

/-- With no error pending, an instruction that ends with none has run its body (R200, R223). -/
theorem exec_body {i : Instr} (he : s.err = .none) (e : exec i s = .next t) (ht : t.err = .none) :
    ∃ u, execBody i s = .ok u ∧ t = u.endActivity := by
  rcases exec_next e with ⟨hp, _⟩ | ⟨_, hc, _, rfl, _⟩ | ⟨_, _, _, hu⟩
  · exact absurd he hp
  · exact absurd ht hc
  · exact hu

/-- The commands that build a window leave it in order and with the content of R46. -/
theorem exec_builds {i : Instr} (h : s.Inv) (he : s.err = .none) (e : exec i s = .next t) (ht : t.err = .none)
    (hi : i = .mfInit ∨ i = .encStart ∨ i = .compress) : t.OrderOk ∧ t.ContentOk := by
  obtain ⟨u, hu, rfl⟩ := exec_body he e ht
  obtain ⟨k1, k2⟩ := body_builds h he hu ht hi
  exact ⟨k1.of_same rfl rfl (window_refl _), k2.of_same rfl rfl (window_refl _)⟩

/-- An accepted command that ends keeps the order, whatever it did to BUSY (R200, R45). -/
theorem command_order {w : Word} (h : s.Inv) (ho : s.OrderOk)
    (e : exec (decodeCommand w) { s with engine := .running } = .next t) :
    ({ t with engine := .running } : State).OrderOk := by
  have hr : ({ s with engine := .running } : State).OrderOk := ho.of_same rfl rfl (window_refl _)
  have hk := (exec_order (h.withEngine .running) hr (encode_decodeCommand w).1 e).1
  exact hk.of_same rfl rfl (window_refl _)

/-- The order is kept from r to t while the window's bytes stay (R45). -/
def KeepsOrder (r t : State) : Prop :=
  r.Inv → r.OrderOk → t.inLen = r.inLen → (∀ a, a < r.inLen.toNat → t.inMem.read a = r.inMem.read a) → t.OrderOk

theorem KeepsOrder.of_tree (h : t.index = s.index ∧ t.cur = s.cur) : KeepsOrder s t :=
  fun _ ho hl hm => ho.of_tree h hl hm

/-- A host access leaves the tree, a reset empties it, a command keeps the order itself. -/
theorem step_keepsOrder (h : step s = .next t) : ∃ l, KeepsOrder { s with host := l } t :=
  step_elim
    (ended := fun _ => .of_tree ⟨rfl, rfl⟩)
    (reset := fun _ _ _ _ _ => .of_empty rfl)
    (regWrite := fun r off v => .of_tree (storeReg_tree off v r))
    (command := fun _ _ _ e h ho _ _ => command_order h ho e)
    (regRead := fun r off => .of_tree (loadReg_tree off r))
    (inWrite := fun r a v _ => .of_tree (storeIn_tree a v r))
    (inRead := fun _ _ => .of_tree ⟨rfl, rfl⟩)
    (outWrite := fun _ => .of_tree ⟨rfl, rfl⟩)
    (outRead := fun r a => .of_tree (loadOut_tree a r)) h

/-- Settles O58: the empty tree is in order, each thing that may land keeps the order while the window's bytes
stay, and the commands that build a tree build an ordered one. -/
theorem orderInvariant : Obligations.OrderInvariant := by
  refine ⟨fun _ _ _ _ => .of_empty rfl, fun s t h ho hs hl hm => ?_, fun s t i h he e ht hi => ?_⟩
  · obtain ⟨l, keeps⟩ := step_keepsOrder hs
    exact keeps (h.withHost l) (ho.of_same rfl rfl (window_refl _)) hl hm
  · rcases hi with rfl | hi
    · obtain ⟨u, hu, rfl⟩ := exec_body he e ht
      cases hu
      exact .of_empty rfl
    · exact (exec_builds h he e ht hi).1

/-- A word other than the one an instruction is dispatched with does not decode to it (R86). -/
theorem decodeCommand_ne {w : Word} {i : Instr} (h : w ≠ execWord i) : decodeCommand w ≠ i :=
  fun e => h (e ▸ (execWord_decode w).symm)

/-- Settles O59: the seeding commands establish the content, and every command but three keeps it. -/
theorem contentInvariant : Obligations.ContentInvariant := by
  refine ⟨fun s t i h he e ht hi => (exec_builds h he e ht hi).2, fun s t w h ho hc e h2 h4 h5 => ?_⟩
  exact (exec_order h ho (encode_decodeCommand w).1 e).2 (decodeCommand_ne h2) (decodeCommand_ne h4)
    (decodeCommand_ne h5) hc

/-! ## Positions and keys -/

/-- Settles O8: the model's laws of `posOf`, of window bytes and of `cmpKey`, put together. -/
theorem keysAndPositions : Obligations.KeysAndPositions := by
  refine ⟨fun cur k hc => ⟨posOf_int cur k hc, fun p h1 h2 hk => ?_⟩, State.window_byte, fun w a b n => ?_⟩
  · obtain rfl : slotOf p = k := Fin.ext hk
    exact (posOf_slotOf hc h1 h2).symm
  · obtain ⟨hle, hcommon⟩ := cmpKey_spec w a b n
    rcases cmpKey_stop w a b n with ⟨hn, hd⟩ | ⟨hn, hd⟩
    · exact ⟨hle, hcommon, fun _ => hd, fun hlt => absurd hn (Nat.ne_of_lt hlt)⟩
    · exact ⟨hle, hcommon, fun e => absurd e (Nat.ne_of_lt hn), fun _ => hd⟩

/-! ## The registers the host writes -/

/-- A host write of ARG (R23, R203). -/
theorem storeReg_arg (v : Word) (s : State) :
    storeReg 0x04 v s = if s.engine = .idle then { s with arg := v } else s.dropped := by
  by_cases h : s.engine = .idle
  · rw [if_pos h]; exact if_neg (busy_of_idle h)
  · rw [if_neg h]; exact if_pos (busy_of_ne h)

/-- A host write of IN_LEN (R27, R203). -/
theorem storeReg_inLen (v : Word) (s : State) :
    storeReg 0x10 v s = if s.engine = .idle ∧ s.mode = .idle then { s with inLen := v } else s.dropped := by
  by_cases h : s.engine = .idle ∧ s.mode = .idle
  · rw [if_pos h]; exact if_neg (by simp [State.busy, h.1, h.2])
  · rw [if_neg h]; exact if_pos (by simp [State.busy]; tauto)

/-- Settles O13: the rules of a register access, and the frame of every instruction. -/
theorem argRegister : Obligations.ArgRegister := by
  refine ⟨fun s v rest => ⟨fun h hb => ?_, fun h hb => ?_, fun h hb => step_loadReg_idle h rfl hb⟩,
    fun i s t e => (exec_sameInput e).1.arg⟩
  · rw [step_storeReg h rfl, writeReg_of_ne v (by decide), storeReg_arg, if_pos hb]
  · rw [step_storeReg h rfl, writeReg_of_ne v (by decide), storeReg_arg, if_neg hb]
    rfl

/-- Settles O14: IN_LEN is written when BUSY = 0 and MODE = IDLE; the frame of every instruction. -/
theorem commandsLeaveInput : Obligations.CommandsLeaveInput := by
  refine ⟨fun s v rest h => ?_, fun i s t e => ?_⟩
  · rw [step_storeReg h rfl, writeReg_of_ne v (by decide), storeReg_inLen]
    exact ⟨fun hb hm => congrArg _ (if_pos ⟨hb, hm⟩), fun hg => congrArg _ (if_neg hg)⟩
  · obtain ⟨⟨_, h1, h2, h3, h4, h5, h6, h7⟩, h8⟩ := exec_sameInput e
    exact ⟨h1, h2, h3, h4, h5, h6, h7, h8⟩

/-- An accepted word starts its command (R22, R200). -/
theorem writeReg_cmd {w : Word} (hb : s.engine = .idle) : writeReg 0x00 w s = startCommand w s := if_pos ⟨rfl, hb⟩

/-- Settles O12: an accepted word's command ends in a state of the invariant; a word written while BUSY = 1 starts
nothing. -/
theorem cmdRegister : Obligations.CmdRegister := by
  refine fun s w rest => ⟨fun h hb hi => ?_, fun h hb => ⟨?_, step_engineEnds rfl⟩,
    fun h hb => step_loadReg_idle h rfl hb⟩
  · obtain ⟨t, ht, _⟩ := exec_keeps ((hi.withHost rest).withEngine .running) (decodeCommand w)
      (decodeCommand_space w)
    refine ⟨t, ht, ?_, (exec_sameInput ht).1.host⟩
    rw [step_storeReg h rfl, writeReg_cmd (s := { s with host := rest }) hb]
    exact startCommand_eq ht
  · rw [step_storeReg h rfl, writeReg_of_busy 0x00 w (s := { s with host := rest }) hb]
    rfl

/-! ## What the host reads -/

/-- Settles O17: the register views as R21's numbers; the reads of IN and OUT. -/
theorem hostReads : Obligations.HostReads := by
  refine fun s off n a rest => ⟨fun h hb hm => ?_, fun h ha => ?_, fun h ha hb => ?_⟩
  · obtain ⟨hn, ho, hr⟩ := regView_number s off n hm
    rw [step_loadReg_idle h ((regOffset_iff off).2 ⟨by omega, ho⟩) hb, word_ofNat hn]
    exact ⟨rfl, hn ▸ (s.regView off).isLt⟩
  · exact step_loadIn h ha
  · exact (step_loadOut h ha).trans (congrArg Host.Outcome.next (if_neg (busy_of_idle hb)))

/-- The capacities are the same (R8, R34). -/
def SameCaps (s t : State) : Prop := t.inCap = s.inCap ∧ t.outCap = s.outCap

theorem storeReg_caps (off : Nat) (v : Word) (s : State) : SameCaps s (storeReg off v s) := by
  unfold storeReg
  split
  · exact ⟨rfl, rfl⟩
  · split <;> exact ⟨rfl, rfl⟩
  · split <;> exact ⟨rfl, rfl⟩
  · exact ⟨rfl, rfl⟩

theorem loadReg_caps (off : Nat) (s : State) : SameCaps s (loadReg off s) := by
  unfold loadReg
  split <;> exact ⟨rfl, rfl⟩

theorem storeIn_caps (a : Nat) (v : Byte) (s : State) : SameCaps s (storeIn a v s) := by
  unfold storeIn
  split <;> exact ⟨rfl, rfl⟩

theorem loadOut_caps (a : Nat) (s : State) : SameCaps s (loadOut a s) := by
  unfold loadOut
  split <;> exact ⟨rfl, rfl⟩

/-- The parameters are constant in a run: no step changes them (R8, R34). -/
theorem step_caps (h : step s = .next t) : SameCaps s t := by
  obtain ⟨_, same⟩ := step_elim (P := SameCaps)
    (ended := fun _ => ⟨rfl, rfl⟩)
    (reset := fun _ => ⟨rfl, rfl⟩)
    (regWrite := fun r off v => storeReg_caps off v r)
    (command := fun _ _ _ e => ⟨(exec_sameInput e).1.inCap, (exec_sameInput e).1.outCap⟩)
    (regRead := fun r off => loadReg_caps off r)
    (inWrite := fun r a v _ => storeIn_caps a v r)
    (inRead := fun _ _ => ⟨rfl, rfl⟩)
    (outWrite := fun _ => ⟨rfl, rfl⟩)
    (outRead := fun r a => loadOut_caps a r) h
  exact same

/-- Settles O18: the constant registers, the frame of a step, and the reserved offsets. -/
theorem constantsAndReserved : Obligations.ConstantsAndReserved := by
  refine ⟨fun s rest hb => ⟨fun h => step_loadReg_idle h rfl hb, fun h => step_loadReg_idle h rfl hb,
    fun h => step_loadReg_idle h rfl hb⟩, fun s t h => step_caps h, fun s off v rest h1 h2 h4 => ?_⟩
  have ho : regOffset off = true := (regOffset_iff off).2 ⟨by omega, h4⟩
  refine ⟨fun h => ?_, fun h => ?_⟩
  · rw [step_loadReg h ho, loadReg_reserved (by omega)]
  · rw [step_storeReg h ho, writeReg_of_ne v (by omega), storeReg_reserved v (by omega)]

/-! ## Errors, MODE and DONE -/

/-- No body but CLEAR_ERR's writes DROP (R225). -/
theorem execBody_drop {i : Instr} (h : execBody i s = .ok t) (hc : i ≠ .clearErr) : t.drop = s.drop := by
  by_cases hd : i = .decompress
  · subst hd
    rw [(decompressBody_frame h).1]
  · rcases execBody_err i h hd hc with ⟨e, w, _, rfl⟩ | ⟨_, _, hk⟩
    · rfl
    · exact hk

/-- Settles O27: with an error pending, an instruction is refused, but for NOP and CLEAR_ERR. -/
theorem errorsAreSticky : Obligations.ErrorsAreSticky := by
  intro i s t hw hc e
  rcases exec_next e with ⟨_, _, _, rfl⟩ | ⟨_, _, he, rfl, _⟩ | ⟨hp, _, _, u, hu, rfl⟩
  · exact ⟨fun _ => rfl, fun _ => ⟨rfl, rfl, rfl, rfl⟩⟩
  · exact ⟨id, fun h => absurd he h⟩
  · refine ⟨fun h => (execBody_drop hu hc).trans h, fun h => ?_⟩
    rcases hp with he | h0 | h1
    · exact absurd he h
    · obtain rfl := (execWord_small i hw).1 h0
      cases hu
      exact ⟨rfl, rfl, rfl, rfl⟩
    · exact absurd ((execWord_small i hw).2 h1) hc

/-- MODE after an instruction: IDLE, as it was, or the run that a START opens (R25). -/
theorem exec_mode {i : Instr} (h : s.Inv) (e : exec i s = .next t) :
    t.mode = .idle ∨ (t.mode = s.mode ∧ i ≠ .compress ∧ i ≠ .encFinish ∧ i ≠ .decompress) ∨
      (t.mode = .encoding ∧ i = .encStart) ∨
      (t.mode = .decoding ∧ (i = .decStart ∨ ∃ c u, i = .streamHeader c u)) := by
  rcases exec_next e with ⟨hp, _, _, rfl⟩ | ⟨_, _, _, rfl, _⟩ | ⟨hp, _, _, u, hu, rfl⟩
  · exact .inl (h.run.errIdle hp)
  · exact .inl rfl
  · exact body_mode (t := u) i h hp hu

/-- NOP and CLEAR_ERR raise no dispatch error: their words are legal, and every mode allows them (R207). -/
theorem controlWord_runs {w : Word} (h : w = 0 ∨ w = 1) (m : Mode) :
    illegalWord w = false ∧ allowed (w.extractLsb' 0 8) m = true := by
  rcases h with rfl | rfl <;> exact ⟨rfl, rfl⟩

/-- Settles O28: MODE and DONE after a refusal, a dispatch error, and each body. -/
theorem modeAndDoneChanges : Obligations.ModeAndDoneChanges := by
  refine ⟨fun i s t h e => ?_, fun i s t e => ?_⟩
  · rcases exec_mode h e with hm | ⟨hm, n1, n2, n3⟩ | ⟨hm, rfl⟩ | ⟨hm, hi⟩
    · simp [hm]
    · refine ⟨fun k => .inr ⟨hm ▸ k, n1, n2⟩, fun k => .inr (.inr ⟨hm ▸ k, n3⟩), ?_⟩
      rintro (rfl | rfl)
      · exact absurd rfl n1
      · exact absurd rfl n3
    · simp [hm]
    · refine ⟨by simp [hm], fun _ => hi.imp_right .inl, ?_⟩
      rintro (rfl | rfl) <;> simp at hi
  · rcases exec_next e with ⟨hp, _, _, rfl⟩ | ⟨_, hc, he, rfl, hd⟩ | ⟨hp, _, _, u, hu, rfl⟩
    · exact ⟨.inl, fun k => absurd k hp, fun _ => rfl, fun _ _ => rfl⟩
    · refine ⟨fun k => (by cases k), fun _ _ => rfl, fun hi => ?_, fun _ k => absurd (k.trans he) hc⟩
      have hw : execWord i = 0 ∨ execWord i = 1 := by rcases hi with rfl | rfl <;> decide
      obtain ⟨k1, k2⟩ := controlWord_runs hw s.mode
      simp [k1, k2] at hd
    · obtain ⟨d1, d2, d3, d4⟩ := body_done i hu
      refine ⟨d1, fun he hn => ?_, d3, fun hi hs => ?_⟩
      · rcases d2 with k | ⟨_, k⟩ | k
        · exact absurd (k.trans he) hn
        · exact absurd k hn
        · exact k
      · have hw : execWord i ≠ 0 ∧ execWord i ≠ 1 := by
          rcases hi with rfl | rfl | rfl | rfl | rfl | rfl | rfl <;> decide
        have he : s.err = .none := hp.resolve_right fun k => k.elim hw.1 hw.2
        rcases d4 hi with ⟨c, w, hc, rfl⟩ | k
        · exact absurd (hs.trans he) hc
        · exact k

/-! ## The writer lists -/

/-- The writer lists of R28, R29, R32, R33, R35, R36 and R37 for an instruction that takes s to t: NODE_*, MATCH_*,
ENC_*, DEC_*, OUT and OUT_LEN, CUR and the tree. -/
def WriterLists (i : Instr) (s t : State) : Prop :=
  (i ≠ .mfReadNode → t.nodeParent = s.nodeParent ∧ t.nodeLeft = s.nodeLeft ∧ t.nodeRight = s.nodeRight) ∧
  (i ≠ .mfSearch → i ≠ .encStep → i ≠ .compress → t.matchLen = s.matchLen ∧ t.matchPos = s.matchPos) ∧
  (i ≠ .encStart → i ≠ .encStep → i ≠ .compress →
    t.encGptr = s.encGptr ∧ t.encCnt = s.encCnt ∧ t.encCtrl = s.encCtrl) ∧
  (i ≠ .decStart → i ≠ .decStep → i ≠ .decompress → t.decInPtr = s.decInPtr ∧ t.decU = s.decU ∧
    t.decC = s.decC ∧ t.decBit = s.decBit ∧ t.decCtrl = s.decCtrl) ∧
  (i ≠ .encStart → i ≠ .encStep → i ≠ .encFinish → i ≠ .compress → i ≠ .decStart → i ≠ .decStep →
    i ≠ .decompress → t.outLen = s.outLen ∧ t.outMem = s.outMem) ∧
  (i = .encFinish → t.outLen = s.outLen) ∧
  (i ≠ .mfClear → i ≠ .mfInit → i ≠ .mfAdvance → i ≠ .encStart → i ≠ .encStep → i ≠ .compress →
    t.cur = s.cur ∧ (i ≠ .mfInsert → i ≠ .mfRemove → t.index = s.index))

/-- An error writes none of these (R223). -/
theorem WriterLists.raise (i : Instr) (s : State) (e : ErrCode) (w : Word) : WriterLists i s (s.raise e w) := by
  simp [WriterLists]

/-- MF_SEARCH writes the match record or raises an error (R138). -/
theorem mfSearchBody_frame (h : mfSearchBody s = .ok t) :
    (∃ e w, t = s.raise e w) ∨ ∃ m, t = s.recordMatch m := by
  rcases checkInput_inv h with rfl | ⟨_, h⟩
  · exact .inl ⟨_, _, rfl⟩
  · obtain ⟨m, _, h⟩ := Run.bind_ok h
    cases h
    exact .inr ⟨m, rfl⟩

/-- MF_INSERT writes the tree or raises an error (R135). -/
theorem mfInsertBody_frame (h : mfInsertBody s = .ok t) :
    (∃ e w, t = s.raise e w) ∨ t = { s with index := t.index } := by
  rcases checkInput_inv h with rfl | ⟨_, h⟩
  · exact .inl ⟨_, _, rfl⟩
  · simp only at h
    split at h
    · cases h; exact .inl ⟨_, _, rfl⟩
    · obtain ⟨ix, _, h⟩ := Run.bind_ok h
      cases h
      exact .inr rfl

/-- MF_REMOVE writes the tree or raises an error (R136). -/
theorem mfRemoveBody_frame (h : mfRemoveBody s = .ok t) :
    (∃ e w, t = s.raise e w) ∨ t = { s with index := t.index } := by
  simp only [mfRemoveBody] at h
  split at h
  · cases h; exact .inl ⟨_, _, rfl⟩
  · obtain ⟨ix, _, h⟩ := Run.bind_ok h
    cases h
    exact .inr rfl

/-- MF_ADVANCE writes the tree and CUR or raises an error (R137). -/
theorem mfAdvanceBody_frame (h : mfAdvanceBody s = .ok t) :
    (∃ e w, t = s.raise e w) ∨ t = { s with index := t.index, cur := t.cur } := by
  rcases checkInput_inv h with rfl | ⟨_, h⟩
  · exact .inl ⟨_, _, rfl⟩
  · split at h
    · cases h; exact .inl ⟨_, _, rfl⟩
    · exact .inr (advanceWindow_frame h)

/-- MF_READ_NODE writes NODE_* or raises an error (R139). -/
theorem mfReadNodeBody_frame (h : mfReadNodeBody s = .ok t) : (∃ e w, t = s.raise e w) ∨
    t = { s with nodeParent := t.nodeParent, nodeLeft := t.nodeLeft, nodeRight := t.nodeRight } := by
  unfold mfReadNodeBody at h
  split at h
  · cases h; exact .inl ⟨_, _, rfl⟩
  · cases h; exact .inr rfl

/-- The body of a command keeps to the writer lists: its frame names what it writes. -/
theorem execBody_writers {i : Instr} (hi : i.space = .command) (h : execBody i s = .ok t) :
    WriterLists i s t := by
  cases i with
  | nop => cases h; simp [WriterLists]
  | clearErr => cases h; simp [WriterLists]
  | mfClear => cases h; simp [WriterLists]
  | mfInit =>
    rcases checkInput_inv h with rfl | ⟨_, h⟩
    · exact .raise _ _ _ _
    · rw [seed_frame h]; simp [WriterLists]
  | mfInsert =>
    rcases mfInsertBody_frame h with ⟨e, w, rfl⟩ | h
    · exact .raise _ _ _ _
    · rw [h]; simp [WriterLists]
  | mfRemove =>
    rcases mfRemoveBody_frame h with ⟨e, w, rfl⟩ | h
    · exact .raise _ _ _ _
    · rw [h]; simp [WriterLists]
  | mfAdvance =>
    rcases mfAdvanceBody_frame h with ⟨e, w, rfl⟩ | h
    · exact .raise _ _ _ _
    · rw [h]; simp [WriterLists]
  | mfSearch =>
    rcases mfSearchBody_frame h with ⟨e, w, rfl⟩ | ⟨m, rfl⟩
    · exact .raise _ _ _ _
    · simp [WriterLists]
  | mfReadNode =>
    rcases mfReadNodeBody_frame h with ⟨e, w, rfl⟩ | h
    · exact .raise _ _ _ _
    · rw [h]; simp [WriterLists]
  | encStart =>
    rcases encStartBody_frame h with ⟨w, rfl⟩ | h
    · exact .raise _ _ _ _
    · rw [h]; simp [WriterLists]
  | encStep =>
    rcases encStepBody_frame h with rfl | h
    · exact .raise _ _ _ _
    · rw [h]; simp [WriterLists]
  | encFinish =>
    rcases encFinishBody_frame h with rfl | h
    · exact .raise _ _ _ _
    · rw [h]; simp [WriterLists]
  | compress =>
    rcases compressBody_frame h with ⟨w, rfl⟩ | h
    · exact .raise _ _ _ _
    · rw [h]; simp [WriterLists]
  | decStart =>
    rcases headerBody_frame h with ⟨e, w, rfl, _⟩ | rfl
    · exact .raise _ _ _ _
    · simp [WriterLists, decStarted]
  | decStep =>
    rcases decStepBody_frame h with ⟨e, w, rfl, _⟩ | h
    · exact .raise _ _ _ _
    · rw [h.1]; simp [WriterLists]
  | decompress => rw [(decompressBody_frame h).1]; simp [WriterLists]
  | illegal w => cases h; exact .raise _ _ _ _
  | streamHeader c u => cases hi
  | streamCtrl b => cases hi
  | lit v => cases hi
  | ref off lc => cases hi

/-- A command keeps to the writer lists, refused and failed commands too. -/
theorem exec_writers {i : Instr} (hi : i.space = .command) (e : exec i s = .next t) : WriterLists i s t := by
  rcases exec_next e with ⟨_, _, _, rfl⟩ | ⟨c, _, _, rfl, _⟩ | ⟨_, _, _, u, hu, rfl⟩
  · simp [WriterLists]
  · exact WriterLists.raise i s c (execWord i)
  · exact execBody_writers (t := u) hi hu

/-- Settles O29: the writer lists of the instruction that the word decodes to. -/
theorem registerWriters : Obligations.RegisterWriters := by
  intro w s t e
  obtain ⟨node, found, enc, dec, out, finish, cur⟩ := exec_writers (decodeCommand_space w) e
  -- a word outside 0x09..0x0F is none of the encoder's and decoder's words
  have off : ∀ n, 0x09 ≤ n → n ≤ 0x0F → w.toNat < 0x09 ∨ 0x0F < w.toNat → w ≠ BitVec.ofNat 32 n := by
    rintro n h1 h2 hw rfl
    simp only [BitVec.toNat_ofNat] at hw
    omega
  refine ⟨fun h8 => node (decodeCommand_ne h8),
    fun h7 hA hC => found (decodeCommand_ne h7) (decodeCommand_ne hA) (decodeCommand_ne hC),
    fun h9 hA hC => enc (decodeCommand_ne h9) (decodeCommand_ne hA) (decodeCommand_ne hC),
    fun hD hE hF => dec (decodeCommand_ne hD) (decodeCommand_ne hE) (decodeCommand_ne hF),
    fun hw => out (decodeCommand_ne (off 0x09 (by decide) (by decide) hw))
      (decodeCommand_ne (off 0x0A (by decide) (by decide) hw))
      (decodeCommand_ne (off 0x0B (by decide) (by decide) hw))
      (decodeCommand_ne (off 0x0C (by decide) (by decide) hw))
      (decodeCommand_ne (off 0x0D (by decide) (by decide) hw))
      (decodeCommand_ne (off 0x0E (by decide) (by decide) hw))
      (decodeCommand_ne (off 0x0F (by decide) (by decide) hw)),
    fun hB => finish (by rw [hB]; rfl), fun h2 h3 h6 h9 hA hC => ?_⟩
  obtain ⟨hc, hx⟩ := cur (decodeCommand_ne h2) (decodeCommand_ne h3) (decodeCommand_ne h6)
    (decodeCommand_ne h9) (decodeCommand_ne hA) (decodeCommand_ne hC)
  exact ⟨hc, fun h4 h5 => hx (decodeCommand_ne h4) (decodeCommand_ne h5)⟩

/-! ## The state after reset -/

/-- The state after reset meets the invariant, for legal capacities and canonical memories (R241, R44, R47). -/
theorem afterReset_inv {inCap outCap : Word} {inMem outMem : Memory} (h1 : 8 ≤ inCap.toNat)
    (h2 : inCap.toNat ≤ 2 ^ 31) (h3 : 8 ≤ outCap.toNat) (hi : inMem.wf ∧ ∀ c ∈ inMem, c.1 < inCap.toNat)
    (ho : outMem.wf ∧ ∀ c ∈ outMem, c.1 < outCap.toNat) : (State.afterReset inCap outCap inMem outMem).Inv :=
  .of_fresh ⟨h1, h2, h3⟩ hi ho rfl rfl rfl

/-- Settles O56: `State.reset` is the case of empty memories. -/
theorem resetMeetsInvariant : Obligations.ResetMeetsInvariant :=
  ⟨afterReset_inv (by decide) (by decide) (by decide) ⟨⟨.nil, by simp⟩, by simp⟩ ⟨⟨.nil, by simp⟩, by simp⟩,
    fun _ _ _ _ h1 h2 h3 iw ib ow ob => afterReset_inv h1 h2 h3 ⟨iw, ib⟩ ⟨ow, ob⟩⟩

end Sys2Proof.Machine
end

section
/-! The proofs of the statements of family 20_memory. First the laws of a step that faults or is refused, then what
the host's accesses to IN, OUT and REG do with BUSY = 1 or 0, and the byte order of the header's integers. -/

namespace Sys2Proof.Machine

variable {s : State} {rest : List HostAccess}

/-! ## Safety -/

/-- A step faults only through a host write to REG: it is then the fault of the command the write starts (R200). -/
theorem step_fault {f : Fault} (h : step s = .fault f) : ∃ off v rest,
    s.host = .storeReg off v :: rest ∧ writeReg off v { s with host := rest } = .fault f := by
  unfold step busStep at h
  split at h
  case h_5 off v rest landed =>
    split at h
    · exact ⟨off, v, rest, landed, h⟩
    · cases h
  case h_1 | h_2 | h_4 => cases h
  all_goals split at h <;> cases h

/-- Settles O60: only a host write to REG can fault, and from a state of the invariant such a write, with the command
it may start, goes on to a state of the invariant. -/
theorem noStepFaults : Obligations.NoStepFaults := by
  intro s h f hf
  obtain ⟨off, v, rest, _, hw⟩ := step_fault hf
  obtain ⟨t, ht, _⟩ := writeReg_keeps (h.withHost rest) off v
  rw [ht] at hw
  cases hw

/-! ## Accesses outside the spaces -/

theorem step_reg_outside {off : Nat} {v : Word} (ho : ¬ regOffset off = true)
    (h : s.host = .storeReg off v :: rest ∨ s.host = .loadReg off :: rest) : step s = .refused .outsideSpace := by
  cases s
  rcases h with h | h <;> cases h <;> exact if_neg ho

theorem step_in_outside {a : Nat} {v : Byte} (ha : s.inCap.toNat ≤ a)
    (h : s.host = .storeIn a v :: rest ∨ s.host = .loadIn a :: rest) : step s = .refused .outsideSpace := by
  cases s
  rcases h with h | h <;> cases h <;> exact if_neg (Nat.not_lt.2 ha)

theorem step_out_outside {a : Nat} {v : Byte} (ha : s.outCap.toNat ≤ a)
    (h : s.host = .storeOut a v :: rest ∨ s.host = .loadOut a :: rest) : step s = .refused .outsideSpace := by
  cases s
  rcases h with h | h <;> cases h <;> exact if_neg (Nat.not_lt.2 ha)

/-- Settles O20: the three spaces in turn. -/
theorem outsideAccessRefused : Obligations.OutsideAccessRefused := by
  refine fun s off a v b rest => ⟨fun ho => step_reg_outside ?_, step_in_outside, step_out_outside⟩
  rw [regOffset_iff]
  omega

/-! ## Host writes to IN and OUT -/

theorem step_storeIn {a : Nat} {v : Byte} (h : s.host = .storeIn a v :: rest) (ha : a < s.inCap.toNat) :
    step s = .next (storeIn a v { s with host := rest }) := by
  cases s; cases h; exact if_pos ha

theorem step_storeOut {a : Nat} {v : Byte} (h : s.host = .storeOut a v :: rest) (ha : a < s.outCap.toNat) :
    step s = .next (State.dropped { s with host := rest }) := by
  cases s; cases h; exact if_pos ha

/-- The gate of a host write to IN is shut (R65). -/
theorem writeGate_shut_iff (s : State) :
    (s.busy || s.mode != .idle) = true ↔ ¬ (s.engine = .idle ∧ s.mode = .idle) := by
  simp [State.busy]
  tauto

/-- A host write of IN is performed when BUSY = 0 and MODE = IDLE (R65). -/
theorem storeIn_eq (a : Nat) (v : Byte) (s : State) : storeIn a v s =
    if s.engine = .idle ∧ s.mode = .idle then { s with inMem := s.inMem.write a v } else s.dropped := by
  simp only [storeIn, writeGate_shut_iff, ite_not]

/-- Settles O15: a write to IN by its gate, the byte by the law of sparse storage; a write to OUT is dropped. -/
theorem hostWriteGating : Obligations.HostWriteGating := by
  refine fun s a v rest => ⟨fun h ha hb hm => ⟨s.inMem.write a v, ?_, Memory.read_write s.inMem a v⟩,
    fun h ha hg => ?_, fun h ha => step_storeOut h ha⟩
  · rw [step_storeIn h ha, storeIn_eq]
    exact congrArg _ (if_pos ⟨hb, hm⟩)
  · rw [step_storeIn h ha, storeIn_eq]
    exact congrArg _ (if_neg hg)

/-! ## Host reads while BUSY = 1 -/

/-- STATUS read while BUSY = 1 shows BUSY = 1 and bits 31:9 zero, whatever is drawn (R24, R77, log 8). -/
theorem busyStatusWord_spec (d : Word) :
    (busyStatusWord d).getLsbD 0 = true ∧ (busyStatusWord d).toNat < 512 := by
  refine ⟨by simp [busyStatusWord], ?_⟩
  have hm : (d &&& 0x1FE).toNat < 2 ^ 9 := by
    rw [BitVec.toNat_and]
    exact Nat.and_lt_two_pow _ (by decide)
  rw [busyStatusWord, BitVec.toNat_or]
  exact Nat.or_lt_two_pow hm (by decide)

/-- A host read of a register while BUSY = 1 takes a free value; only STATUS shows something of its own (R77). -/
theorem step_loadReg_busy {off : Nat} (h : s.host = .loadReg off :: rest) (hb : s.engine ≠ .idle)
    (h4 : off % 4 = 0) (hr : off ≤ 0x54) : step s = .next { s with
      host := rest, freeCount := s.freeCount + 1,
      readData := if off = 0x08 then busyStatusWord (Config.freeWord s.freeCount)
        else Config.freeWord s.freeCount } := by
  rw [step_loadReg h ((regOffset_iff off).2 ⟨by omega, h4⟩)]
  exact congrArg _ (if_pos (Bool.and_eq_true_iff.2 ⟨busy_of_ne hb, decide_eq_true hr⟩))

/-- A host read of OUT while BUSY = 1 takes the low byte of a free value (R77). -/
theorem step_loadOut_busy {a : Nat} (h : s.host = .loadOut a :: rest) (hb : s.engine ≠ .idle)
    (ha : a < s.outCap.toNat) : step s = .next { s with
      host := rest, freeCount := s.freeCount + 1,
      readData := ((Config.freeWord s.freeCount).extractLsb' 0 8).setWidth 32 } :=
  (step_loadOut h ha).trans (congrArg _ (if_pos (busy_of_ne hb)))

/-- Settles O19: STATUS by `busyStatusWord`, every other register and OUT by the free value drawn. -/
theorem readsWhileBusy : Obligations.ReadsWhileBusy := by
  refine fun s off a rest hb => ⟨fun h => ?_, fun h h4 hr hne => ?_, fun h ha => ⟨_, step_loadOut_busy h hb ha⟩⟩
  · obtain ⟨bit, hi⟩ := busyStatusWord_spec (Config.freeWord s.freeCount)
    exact ⟨_, bit, hi, step_loadReg_busy h hb rfl (by decide)⟩
  · exact ⟨Config.freeWord s.freeCount, by rw [step_loadReg_busy h hb h4 hr, if_neg hne]⟩

/-! ## The header's integers -/

/-- A byte appended below a word counts as its least significant byte. -/
theorem append_byte_toNat {n : Nat} (x : BitVec n) (b : Byte) : (x ++ b).toNat = 256 * x.toNat + b.toNat := by
  rw [BitVec.toNat_append, ← Nat.shiftLeft_add_eq_or_of_lt b.isLt, Nat.shiftLeft_eq]
  omega

/-- Settles O7: the value by one appended byte after another; the bytes back are the model's law. -/
theorem littleEndianWords : Obligations.LittleEndianWords := by
  refine fun b0 b1 b2 b3 => ⟨?_, leBytes_leWord b0 b1 b2 b3⟩
  rw [leWord, append_byte_toNat, append_byte_toNat, append_byte_toNat]
  omega

end Sys2Proof.Machine
end

section
/-! The proofs of the statements of family 30_encoding. First the command words, then the decoder against the encoder,
the fields and offsets of a reference, and the command statement of the host. -/

namespace Sys2Proof.Machine

variable {s t : State} {rest : List HostAccess}

/-! ## Command words -/

/-- Settles O1: by the number of the word, one of sixteen below 16 and illegal from there on. -/
theorem opcodeMap : Obligations.OpcodeMap := by
  refine fun w => ⟨fun h => ?_, fun h => ?_⟩
  · obtain ⟨n, hn, rfl⟩ := small_word h
    clear h
    interval_cases n <;> rfl
  · have hi : illegalWord w = true := (illegalWord_iff w).2 h
    exact ⟨if_pos hi, hi⟩

/-- The bytes of a command instruction are those of the word it is dispatched with (R64, R86). -/
theorem encode_command {i : Instr} (hs : i.space = .command) : encode i = leBytes (execWord i) := by
  cases i with
  | streamHeader | streamCtrl | lit | ref => cases hs
  | _ => rfl

/-- A well-formed command instruction is what its word decodes to (R86, R88). -/
theorem decodeCommand_execWord {i : Instr} (hs : i.space = .command) (hw : i.wellFormed = true) :
    decodeCommand (execWord i) = i := by
  cases i with
  | streamHeader | streamCtrl | lit | ref => cases hs
  | illegal w => exact if_pos hw
  | _ => rfl

/-- The bytes of a word are read back as the command the word stands for (R85, log 15). -/
theorem decode_leBytes (w : Word) (rest : List Byte) :
    decode .command (leBytes w ++ rest) = some (decodeCommand w, rest) :=
  congrArg (fun v => some (decodeCommand v, rest)) (leWord_leBytes w)

/-! ## The decoder against the encoder -/

/-- Settles O3: a command by its word, a stream form by its integers or its two bytes. -/
theorem decodeOfEncode : Obligations.DecodeOfEncode := by
  intro i rest hw
  cases i with
  | streamHeader c u =>
    show some (Instr.streamHeader (leWord _ _ _ _) (leWord _ _ _ _), rest) = _
    rw [leWord_leBytes, leWord_leBytes]
  | streamCtrl b => rfl
  | lit v => rfl
  | ref off lc =>
    show some (Instr.ref (refOff _ _) (refLc _ _), rest) = _
    rw [refBytes_off, refBytes_lc]
  | _ => rw [encode_command rfl, Instr.space, decode_leBytes, decodeCommand_execWord rfl hw]

/-- Settles O4: by the form the decoder has read; where it reads a command, by the word its bytes make. -/
theorem encodeOfDecode : Obligations.EncodeOfDecode := by
  intro k bytes rest i h
  unfold decode at h
  split at h <;> cases h
  case h_1 b0 b1 b2 b3 =>
    obtain ⟨hw, he⟩ := encode_decodeCommand (leWord b0 b1 b2 b3)
    refine ⟨hw, decodeCommand_space _, ?_⟩
    rw [he, leBytes_leWord]
    rfl
  case h_2 c0 c1 c2 c3 u0 u1 u2 u3 =>
    refine ⟨rfl, rfl, ?_⟩
    rw [encode, leBytes_leWord, leBytes_leWord]
    rfl
  case h_3 | h_4 => exact ⟨rfl, rfl, rfl⟩
  case h_5 b0 b1 =>
    obtain ⟨e0, e1⟩ := refBytes_back b0 b1
    refine ⟨rfl, rfl, ?_⟩
    rw [encode, e0, e1]
    rfl

/-- Settles O2: the decoder run on the bytes the tables and S1 write out. -/
theorem specWordsDecode : Obligations.SpecWordsDecode :=
  ⟨rfl, rfl, rfl, rfl, rfl, rfl, rfl, rfl⟩

/-! ## The fields and offsets of a reference -/

/-- The two bytes of a reference as its fields: the numbers of R94, solved for the fields (R96). -/
theorem refFields_toNat (b0 b1 : Byte) :
    (refOff b0 b1).toNat = b1.toNat / 16 * 256 + b0.toNat ∧ (refLc b0 b1).toNat = b1.toNat % 16 := by
  obtain ⟨e0, e1⟩ := refBytes_back b0 b1
  have h0 := refByte0_toNat (refOff b0 b1)
  have h1 := refByte1_toNat (refOff b0 b1) (refLc b0 b1)
  rw [e0] at h0
  rw [e1] at h1
  have hlc := (refLc b0 b1).isLt
  omega

/-- The encoded offset as an integer: CUR may be taken whole (R95). -/
theorem refOffset_int (cur : Nat) (b : Int) : ((refOffset cur b).toNat : Int) = ((cur : Int) - 18 - b) % 4096 := by
  rw [refOffset, BitVec.toNat_ofNat]
  omega

/-- Decoding an encoded offset at the same position gives the backset modulo 4096 (R95, R96). -/
theorem refBackset_refOffset_int (cur : Nat) (b : Int) : (refBackset cur (refOffset cur b) : Int) = b % 4096 := by
  rw [refBackset_int, refOffset_int]
  omega

/-- Settles O5: the bytes as the model's laws give them, the offset and the fields as integers. -/
theorem referenceFields : Obligations.ReferenceFields := by
  refine ⟨fun off lc => ⟨refByte0_toNat off, refByte1_toNat off lc⟩, fun cur mpos => ?_, fun b0 b1 => ?_⟩
  · rw [refOffset_int]
    omega
  · obtain ⟨hoff, hlc⟩ := refFields_toNat b0 b1
    exact ⟨hoff, congrArg (· + 3) hlc⟩

/-- Settles O6: the two formulas give the backset modulo 4096. -/
theorem offsetFormulasAgree : Obligations.OffsetFormulasAgree := by
  refine fun cur b => ⟨fun h1 h2 => ?_, ?_⟩
  · have h := refBackset_refOffset_int cur b
    omega
  · have h := refBackset_refOffset_int cur 4096
    omega

/-! ## The host's command statement -/

/-- A word written to CMD on an idle block runs its command, and BUSY stays at 1 (R22, R200, log 5). -/
theorem step_command {w : Word} (h : s.host = .storeReg 0x00 w :: rest) (hb : s.engine = .idle)
    (e : exec (decodeCommand w) { s with host := rest, engine := .running } = .next t) :
    step s = .next { t with engine := .running } := by
  rw [step_storeReg h rfl, writeReg_cmd (s := { s with host := rest }) hb]
  exact startCommand_eq e

/-- A POLL that finds BUSY = 1 waits: the running activity ends (R102, log 5). -/
theorem step_poll_busy (h : s.host = .poll :: rest) (hb : s.engine ≠ .idle) : step s = .next s.endActivity := by
  cases s; cases h; exact if_pos (busy_of_ne hb)

/-- A POLL that finds BUSY = 0 reads STATUS (R102). -/
theorem step_poll_idle (h : s.host = .poll :: rest) (hb : s.engine = .idle) :
    step s = .next { s with host := rest, readData := s.statusWord } := by
  cases s; cases h; cases hb; rfl

/-- The end of an activity undoes the BUSY an accepted command is held at (R200, log 5). -/
theorem endActivity_running (h : t.engine = .idle) : State.endActivity { t with engine := .running } = t := by
  cases t; cases h; rfl

/-- Settles O10: the command leaves the host list and ends with BUSY = 0, so the POLL first ends the activity held
open and then reads. -/
theorem commandStatementRuns : Obligations.CommandStatementRuns := by
  intro s t w rest hb hh e
  obtain ⟨same, idle⟩ := exec_sameInput e
  have poll : t.host = .poll :: rest := same.host
  refine ⟨step_command hh hb e, ?_, step_poll_idle poll idle, statusWord_busy t idle⟩
  rw [step_poll_busy (s := { t with engine := .running }) poll (by simp), endActivity_running idle]

end Sys2Proof.Machine
end

section
/-! The proofs of the statements of family 40_match_index. First what the mode check does
with a command, then the search, MF_CLEAR and MF_INIT, MF_INSERT and MF_REMOVE, MF_ADVANCE, and MF_READ_NODE. -/

namespace Sys2Proof.Machine

open State

variable {s u : State}

/-! ## Commands that pass or fail the mode check -/

/-- A command that the mode does not allow raises SEQUENCE (R201, R207). -/
theorem exec_sequence {i : Instr} (hi : i.space = .command) (he : s.err = .none)
    (hw : illegalWord (execWord i) = false) (ha : allowed ((execWord i).extractLsb' 0 8) s.mode = false) :
    exec i s = .next (s.failed .sequence (execWord i)) := by
  rw [exec_command i s hi, dispatch, if_neg fun h => h.1 he, if_neg (by simp [hw]), if_pos ha]
  rfl

/-- A command that IDLE allows runs its body there (R207). -/
theorem exec_idle (i : Instr) (hi : i.space = .command) (hw : illegalWord (execWord i) = false)
    (ha : allowed ((execWord i).extractLsb' 0 8) .idle = true) (he : s.err = .none) (hm : s.mode = .idle)
    (hb : execBody i s = .ok u) : exec i s = .next u.endActivity :=
  run_body (exec_command i s hi) he hw (by rw [hm, ha]) hb

/-- MF_SEARCH and MF_READ_NODE run in IDLE and ENCODING (R207). -/
theorem exec_readsTree {i : Instr} (hi : i = .mfSearch ∨ i = .mfReadNode) (he : s.err = .none)
    (hm : s.mode ≠ .decoding) (hb : execBody i s = .ok u) : exec i s = .next u.endActivity := by
  have ha : allowed 0x07 s.mode = true ∧ allowed 0x08 s.mode = true := by
    cases h : s.mode with
    | idle => exact ⟨rfl, rfl⟩
    | encoding => exact ⟨rfl, rfl⟩
    | decoding => exact absurd h hm
  rcases hi with rfl | rfl
  · exact run_body rfl he rfl ha.1 hb
  · exact run_body rfl he rfl ha.2 hb

/-! ## MF_SEARCH -/

/-- MF_SEARCH records the match that the search finds (R138). -/
theorem exec_mfSearch {m : Nat × Nat} (he : s.err = .none) (hm : s.mode ≠ .decoding)
    (hi : s.inLen.toNat ≤ s.inCap.toNat) (hf : findLongestMatch s.window s.cur.toNat s.index = .ok m) :
    exec .mfSearch s = .next (s.recordMatch m).endActivity := by
  refine exec_readsTree (.inl rfl) he hm ?_
  rw [execBody, mfSearchBody, checkInput_ok _ hi, hf, Run.ok_bind, Run.pure_eq]

/-- Settles O40: the search ends on a well-formed window, with the bytes of its match common, and on a tree in order
its match is the longest and the nearest the root with its length. -/
theorem searchFindsLongest : Obligations.SearchFindsLongest := by
  intro s he hm hi hw ho
  obtain ⟨⟨len, pos⟩, hf, found⟩ := findLongestMatch_ok hw.shape s.window hw.low hw.free
  obtain ⟨longest, nearest⟩ := findLongestMatch_best hw ho hf
  refine ⟨len, pos, exec_mfSearch he hm hi hf, longest, ?_⟩
  rcases found with hnone | ⟨h3, _, _, _, _, common⟩
  · cases hnone
    exact .inl ⟨rfl, rfl⟩
  · rcases nearest with hnone | ⟨d, hpos, hocc, first⟩
    · cases hnone
      exact absurd h3 (by decide)
    · exact .inr ⟨h3, d, hpos, hocc, common, first⟩

/-- Settles O39: what the search finds on a well-formed window; a match of 3 or more needs a tree and 3 bytes. -/
theorem mfSearchResult : Obligations.MfSearchResult := by
  intro s he hm hi hw
  obtain ⟨⟨len, pos⟩, hf, found⟩ := findLongestMatch_ok hw.shape s.window hw.low hw.free
  refine ⟨len, pos, hf, exec_mfSearch he hm hi hf, ?_⟩
  rcases found with hnone | ⟨h3, h18, hend, hlow, hhigh, common⟩
  · cases hnone
    exact ⟨.inl ⟨rfl, rfl⟩, fun _ => rfl⟩
  · have h2 : (len, pos) ≠ (2, 0) := by rintro ⟨⟩; exact absurd h3 (by decide)
    refine ⟨.inr ⟨h3, h18, hend, hlow, hhigh, findLongestMatch_occupied hw.shape hw.low hf h2, common⟩, ?_⟩
    rintro (hroot | hleft)
    · rw [findLongestMatch_empty s.window s.cur.toNat hroot] at hf
      cases hf
      rfl
    · have : s.endPos = 4096 + s.window.inLen := rfl
      simp only at hend h3
      omega

/-! ## MF_CLEAR and MF_INIT -/

/-- Settles O35: MF_CLEAR's tree is the empty one, MF_INIT's that of the seed, which always ends. -/
theorem mfClearInitResult : Obligations.MfClearInitResult := by
  refine fun s he => ⟨fun hm => ?_, fun hm => ?_, fun hm hi => ?_⟩
  · exact ⟨.cleared, rfl, fun _ => rfl, exec_idle .mfClear rfl rfl rfl he hm rfl⟩
  · exact exec_sequence rfl he rfl (beq_eq_false_iff_ne.2 hm)
  · obtain ⟨ix, hseed, hs, shape, _, free⟩ := seed_state_ok s
    refine ⟨ix, (seedSpec_eq s.window).trans hseed, shape, free, ?_⟩
    exact exec_idle .mfInit rfl rfl rfl he hm ((checkInput_ok _ hi).trans hs)

/-! ## MF_INSERT and MF_REMOVE -/

/-- In the live range, as MF_INSERT and MF_REMOVE ask of ARG (R135, R136). -/
theorem liveRange_of {p : Nat} (h1 : s.cur.toNat ≤ p + 4095) (h2 : p + 1 ≤ s.cur.toNat) : s.liveRange p = true := by
  simp [liveRange, h1, h2]

/-- MF_INSERT refuses an ARG outside the live range or in an occupied slot (R135). -/
theorem mfInsertBody_raises (hi : s.inLen.toNat ≤ s.inCap.toNat)
    (h : s.liveRange s.arg.toNat = false ∨ s.index.parent (slotOf s.arg.toNat) ≠ .nil) :
    mfInsertBody s = .ok (s.raise .indexArgument s.arg) :=
  (checkInput_ok _ hi).trans (if_pos h)

/-- MF_INSERT of a live ARG in an empty slot writes the tree that insert gives (R135). -/
theorem mfInsertBody_ok {ix : Index} (hi : s.inLen.toNat ≤ s.inCap.toNat) (hl : s.liveRange s.arg.toNat = true)
    (hs : s.index.parent (slotOf s.arg.toNat) = .nil)
    (h : insert s.window s.cur.toNat s.arg.toNat s.index = .ok ix) :
    mfInsertBody s = .ok { s with index := ix } := by
  rw [mfInsertBody, checkInput_ok _ hi, if_neg (by simp [hl, hs]), h, Run.ok_bind, Run.pure_eq]

/-- Settles O36: the check of ARG, and what insert does on a tree with an empty slot. -/
theorem mfInsertResult : Obligations.MfInsertResult := by
  refine fun s he hm hi => ⟨fun h => ?_, fun hw h1 h2 hs => ?_⟩
  · refine exec_idle .mfInsert rfl rfl rfl he hm (mfInsertBody_raises hi ?_)
    rw [live_iff]
    exact or_assoc.2 h
  · obtain ⟨ix, hx, shape, occupied, kept⟩ := insert_ok hw.shape s.window s.cur.toNat s.arg.toNat hs
    exact ⟨ix, hx, shape, occupied, kept,
      exec_idle .mfInsert rfl rfl rfl he hm (mfInsertBody_ok hi (liveRange_of h1 h2) hs hx)⟩

/-- MF_REMOVE refuses an ARG outside the live range or in an empty slot (R136). -/
theorem mfRemoveBody_raises (h : s.liveRange s.arg.toNat = false ∨ s.index.parent (slotOf s.arg.toNat) = .nil) :
    mfRemoveBody s = .ok (s.raise .indexArgument s.arg) :=
  if_pos h

/-- MF_REMOVE of a live ARG in an occupied slot writes the tree that remove gives (R136). -/
theorem mfRemoveBody_ok {ix : Index} (hl : s.liveRange s.arg.toNat = true)
    (hs : s.index.parent (slotOf s.arg.toNat) ≠ .nil) (h : remove (slotOf s.arg.toNat) s.index = .ok ix) :
    mfRemoveBody s = .ok { s with index := ix } := by
  simp only [mfRemoveBody]
  rw [if_neg (by simp [hl, hs]), h, Run.ok_bind, Run.pure_eq]

/-- A removed slot is empty, all three links NIL (R124). -/
theorem node_remove {ix jx : Index} {t : Slot} (h : remove t ix = .ok jx) : jx.node t = Node.empty := by
  obtain ⟨kx, _, h⟩ := Run.bind_ok h
  cases h
  simp [Index.clear]

/-- Settles O37: the check of ARG, and what remove does on a tree with an occupied slot. -/
theorem mfRemoveResult : Obligations.MfRemoveResult := by
  refine fun s he hm => ⟨fun h => ?_, fun hw h1 h2 hs => ?_⟩
  · refine exec_idle .mfRemove rfl rfl rfl he hm (mfRemoveBody_raises ?_)
    rw [live_iff]
    exact or_assoc.2 h
  · obtain ⟨ix, hx, shape, emptied⟩ := remove_ok hw.shape hs
    exact ⟨ix, hx, shape, emptied, node_remove hx,
      exec_idle .mfRemove rfl rfl rfl he hm (mfRemoveBody_ok (liveRange_of h1 h2) hs hx)⟩

/-! ## MF_ADVANCE -/

/-- MF_ADVANCE refuses a count past END (R137). -/
theorem mfAdvanceBody_raises (hi : s.inLen.toNat ≤ s.inCap.toNat) (h : s.endPos < s.cur.toNat + s.arg.toNat) :
    mfAdvanceBody s = .ok (s.raise .indexArgument s.arg) :=
  (checkInput_ok _ hi).trans (if_pos h)

/-- MF_ADVANCE up to END writes the tree that advanceWindow gives, and CUR rises by ARG (R137, R128). -/
theorem mfAdvanceBody_ok {ix : Index} (hi : s.inLen.toNat ≤ s.inCap.toNat)
    (hb : s.cur.toNat + s.arg.toNat ≤ s.endPos)
    (h : advanceIndex s.window s.arg.toNat s.cur.toNat s.index = .ok ix) :
    mfAdvanceBody s = .ok { s with index := ix, cur := s.cur + s.arg } := by
  rw [mfAdvanceBody, checkInput_ok _ hi, if_neg (Nat.not_lt.2 hb), advanceWindow, h, Run.ok_bind]
  rfl

/-- Settles O38: the check of ARG, and the loop of advanceWindow in the words of R128. -/
theorem mfAdvanceResult : Obligations.MfAdvanceResult := by
  refine fun s he hm hi => ⟨fun h => ?_, fun hw hcap hb => ?_⟩
  · exact exec_idle .mfAdvance rfl rfl rfl he hm (mfAdvanceBody_raises hi h)
  · obtain ⟨ix, hx, shape, free⟩ := advanceIndex_ok s.window s.arg.toNat s.cur.toNat s.index hw.shape hw.free
    refine ⟨ix, (advanceSpec_eq s.window _ _ _).trans hx, shape, free, ?_,
      exec_idle .mfAdvance rfl rfl rfl he hm (mfAdvanceBody_ok hi hb hx)⟩
    rw [BitVec.toNat_add]
    omega

/-! ## MF_READ_NODE -/

/-- MF_READ_NODE refuses an ARG that is no slot (R139). -/
theorem mfReadNodeBody_raises (h : 4095 < s.arg.toNat) : mfReadNodeBody s = .ok (s.raise .indexArgument s.arg) :=
  if_pos h

/-- MF_READ_NODE of slot k copies the three links of its entry (R139). -/
theorem mfReadNodeBody_ok {k : Slot} (h : k.val = s.arg.toNat) : mfReadNodeBody s = .ok { s with
    nodeParent := s.index.parent k, nodeLeft := s.index.left k, nodeRight := s.index.right k } := by
  have hk : slotOf s.arg.toNat = k := Fin.ext (by simp only [slotOf]; omega)
  rw [mfReadNodeBody, if_neg (by omega), hk]
  rfl

/-- Settles O41: ARG is a slot or not, and in DECODING the command is not allowed. -/
theorem mfReadNodeResult : Obligations.MfReadNodeResult := by
  refine fun s he => ⟨fun hm h => ?_, fun hm k hk => ?_, fun hm => ?_⟩
  · exact exec_readsTree (.inr rfl) he hm (mfReadNodeBody_raises h)
  · exact exec_readsTree (.inr rfl) he hm (mfReadNodeBody_ok hk)
  · exact exec_sequence rfl he rfl (by rw [hm]; rfl)

end Sys2Proof.Machine
end

section
/-! The proofs of the statements of family 41_encoder. First the four commands of the encoder from what their bodies
do, then COMPRESS as a whole (its result, its stepped form, two runs over the same input), and the single commands. -/

namespace Sys2Proof.Machine

open State

variable {s r t u : State} {ix : Index} {m : Nat × Nat}

/-! ## The commands run their bodies -/

/-- ENC_START, allowed in every mode (R163, R207). -/
theorem exec_encStart (he : s.err = .none) (hb : encStartBody s = .ok t) :
    exec .encStart s = .next t.endActivity :=
  run_body (i := .encStart) rfl he rfl (allowed_always (.inl rfl) _) hb

/-- ENC_FINISH in an open encode run at CUR = END (R165). -/
theorem exec_encFinish (he : s.err = .none) (hm : s.mode = .encoding) (hc : s.cur.toNat = s.endPos)
    (hb : encClose s = .ok t) : exec .encFinish s = .next t.endActivity :=
  run_body (i := .encFinish) rfl he rfl (by rw [hm]; rfl) ((if_neg (not_not.2 hc)).trans hb)

/-- COMPRESS, allowed in every mode (R166, R207). -/
theorem exec_compress (he : s.err = .none) (hb : compressBody s = .ok t) :
    exec .compress s = .next t.endActivity :=
  run_body (i := .compress) rfl he rfl (allowed_always (.inr (.inl rfl)) _) hb

/-! ## Start and close of a run -/

/-- ENC_START's body needs no invariant: its two checks make room for the header (R163, R168). -/
theorem encStartBody_started (hi : s.inLen.toNat ≤ s.inCap.toNat) (ho : worstCase s.inLen.toNat ≤ s.outCap.toNat)
    (hseed : s.seed = .ok { s with index := ix, cur := 0x1000 }) : encStartBody s = .ok (s.encStarted ix) := by
  have room : 0 + (List.replicate 8 (0 : Byte)).length ≤ s.outCap.toNat := (header_room _).trans ho
  simp only [encStartBody, checkInput_ok _ hi, Nat.not_lt.2 ho, if_false, hseed, Run.ok_bind]
  rw [writeOutBytes_ok _ { s with index := ix, cur := 0x1000 } _ room]
  rfl

/-- OUT when a run has started: a zero header, every other byte as it was (R163). -/
theorem encStarted_read (s : State) (ix : Index) (a : Nat) :
    (s.encStarted ix).outMem.read a = if a < 8 then 0 else s.outMem.read a := by
  rw [encStarted, Memory.read_writeBytes, List.length_replicate, Nat.sub_zero, zeros_getD]
  simp only [Nat.zero_le, true_and, Nat.zero_add]

/-- OUT_LEN of an open run is within the bound of R168. -/
theorem State.EncodingOk.outLen_le (h : s.EncodingOk) : s.outLen.toNat ≤ worstCase s.inLen.toNat := by
  obtain ⟨g, written, items⟩ := h.groups
  have hcur := h.curHigh
  have hcnt := h.counted
  unfold State.endPos at hcur
  unfold worstCase
  omega

theorem State.Closed.outLen (h : Closed s t) : t.outLen = s.outLen := by rw [h.rest]

/-- Closing a run writes OUT only below OUT_LEN (R165, R254). -/
theorem State.Closed.read_beyond (h : Closed s t) (he : s.EncodingOk) {a : Nat} (ha : s.outLen.toNat ≤ a) :
    t.outMem.read a = s.outMem.read a := by
  have header := he.headerOut
  have control : ¬ (s.encCnt < 8 ∧ a = s.encGptr.toNat) := by
    rintro ⟨hopen, rfl⟩
    have := (he.openGroup hopen).2
    omega
  rw [h.mem, if_neg (by omega), if_neg control]

/-! ## COMPRESS -/

/-- Settles O46: the start, the loop to END and the close, each with the bytes of OUT it leaves alone; the bound is
that of an open run, and the close writes the header. -/
theorem compressResult : Obligations.CompressResult := by
  intro s h he hi ho
  obtain ⟨ix, u, t, _, hloop, hstart, hu, hmode, hcur, same, closed, _, hx⟩ := run_compress h he hi ho
  obtain ⟨grown, beyond⟩ := encLoop_beyond _ hstart rfl hloop
  obtain ⟨size, input⟩ := closed_header closed
  have run := hu.run.encoding hmode
  have hin : u.inLen = s.inLen := same.inLen
  have hlen : t.outLen = u.outLen := closed.outLen
  have bound := run.outLen_le
  have header := run.headerOut
  rw [hin] at bound
  rw [hin] at input
  rw [← hlen] at bound header size
  refine ⟨t.endActivity, hx, ?_, ?_, ?_, ?_, header, bound, size, input, fun a ha => ?_⟩
  · rw [endActivity_done, closed.rest]
  · rw [endActivity_mode, closed.rest]
  · rw [endActivity_err, closed.rest, same]
    exact he
  · rw [endActivity_cur, closed.rest]
    exact hcur
  · have past : u.outLen.toNat ≤ a := hlen ▸ ha
    have data : ¬ a < 8 := Nat.not_lt.2 (header.trans ha)
    rw [endActivity_outMem, closed.read_beyond run past, beyond a past, encStarted_read, if_neg data]

/-- Settles O47: the loop of COMPRESS is ENC_STEP repeated, from the state ENC_START ends in to the one ENC_FINISH
closes; no part reads BUSY. -/
theorem compressIsStepped : Obligations.CompressIsStepped := by
  intro s h he hi ho
  obtain ⟨ix, _, hstart, inv⟩ := encStartBody_ok h he hi ho
  have left : (s.encStarted ix).endPos = (s.encStarted ix).cur.toNat + s.inLen.toNat := rfl
  obtain ⟨u, hloop, hu, hmode, hcur, same⟩ := encLoop_ok s.inLen.toNat inv rfl left.le
  obtain ⟨t, hclose, _, _⟩ := encClose_ok hu hmode
  obtain ⟨n, steps⟩ := repeat_enc _ inv he rfl hloop
  have atEnd : u.cur.toNat = u.endPos := hcur.trans same.endPos.symm
  have noErr : u.err = .none := by rw [same]; exact he
  have whole : compressBody s = .ok t := compressBody_parts hstart rfl (by omega) hloop hclose
  have close : encClose u.endActivity = .ok t.endActivity := by rw [encClose_endActivity, hclose, Run.map_ok]
  refine ⟨(s.encStarted ix).endActivity, u.endActivity, n, exec_encStart he hstart, steps, hmode, atEnd, ?_⟩
  rw [exec_compress he whole, exec_encFinish (s := u.endActivity) noErr hmode atEnd close, idle_idle]

/-- Two runs just started over the same window bytes have written the same stream. -/
theorem sameStream_started (h : s.window.Same r.window) : SameStream (s.encStarted ix) (r.encStarted ix) :=
  ⟨h, rfl, rfl, rfl, rfl, rfl, rfl, fun _ above below => absurd (lt_of_le_of_lt above below) (lt_irrefl 8)⟩

/-- Closing two runs that have written the same stream over as many bytes leaves the same stream (R165). -/
theorem State.SameStream.closed {v x : State} (h : SameStream s r) (hl : s.inLen = r.inLen) (hs : Closed s v)
    (hr : Closed r x) : v.outLen = x.outLen ∧ ∀ a, a < v.outLen.toNat → v.outMem.read a = x.outMem.read a := by
  refine ⟨by rw [hs.outLen, hr.outLen, h.outLen], fun a ha => ?_⟩
  rw [hs.outLen] at ha
  rw [hs.mem, hr.mem, h.outLen, hl, h.encCnt, h.encGptr, h.encCtrl]
  split
  · rfl
  · split
    · rfl
    · exact h.bytes a (by omega) ha

/-- Settles O48: both runs start from the same seed, and the items of one are those of the other. -/
theorem compressDependsOnInput : Obligations.CompressDependsOnInput := by
  intro s r t u hs hr hse hre hl hm ht hu hte hue
  obtain ⟨ix, v, v', seed, loop, inv, _, _, same, closed, rfl⟩ := compress_inv hs hse ht hte
  obtain ⟨ix', x, x', seed', loop', inv', _, _, same', closed', rfl⟩ := compress_inv hr hre hu hue
  have window := window_same hl hm
  rw [window.seedFrom, seed'] at seed
  obtain rfl := Except.ok.inj seed
  rw [← hl] at loop'
  have stream : SameStream v x := (sameStream_started window).loop _ inv inv' rfl rfl loop loop'
  have hin : v.inLen = x.inLen := same.inLen.trans (hl.trans same'.inLen.symm)
  have ended := stream.closed hin closed closed'
  exact ended

/-! ## ENC_START -/

/-- Settles O42: the seed always ends, and the two checks leave room for the zero header. -/
theorem encStartResult : Obligations.EncStartResult := by
  intro s he hi ho
  obtain ⟨ix, hfrom, hseed, _⟩ := seed_state_ok s
  exact ⟨ix, _, (seedSpec_eq s.window).trans hfrom, encStarted_read s ix,
    exec_encStart he (encStartBody_started hi ho hseed)⟩

/-! ## ENC_STEP -/

/-- The state ENC_STEP leaves, from what an item leaves (R161, R164). -/
theorem State.ItemDone.endActivity (d : ItemDone s m t) : t.endActivity = { s with
    index := t.index, cur := BitVec.ofNat 32 (s.cur.toNat + itemSpan m), outMem := t.outMem,
    outLen := BitVec.ofNat 32 (s.itemStart + (s.itemBytes m).length), encGptr := t.encGptr, encCnt := t.encCnt,
    encCtrl := t.encCtrl, matchLen := BitVec.ofNat 5 m.1, matchPos := BitVec.ofNat 32 m.2, engine := .idle } := by
  rw [← word_ofNat d.cur, ← word_ofNat d.outLen]
  exact congrArg State.endActivity d.rest

/-- The index an item leaves, in the words of R128. -/
theorem State.ItemDone.advanceSpec (d : ItemDone s m t) :
    advanceSpec s.window s.cur.toNat (itemSpan m) s.index = .ok t.index :=
  (advanceSpec_eq _ _ _ _).trans d.index

/-- One byte written from address i on, read at a. -/
theorem read_single (b rest : Byte) (i a : Nat) :
    (if i ≤ a ∧ a < i + [b].length then [b].getD (a - i) 0 else rest) = if a = i then b else rest := by
  have here : (i ≤ a ∧ a < i + [b].length) ↔ a = i := by
    rw [List.length_singleton]
    omega
  simp only [here]
  by_cases first : a = i
  · rw [if_pos first, if_pos first, first, Nat.sub_self]
    rfl
  · rw [if_neg first, if_neg first]

/-- Two bytes written from address i on, read at a. -/
theorem read_pair (b c rest : Byte) (i a : Nat) :
    (if i ≤ a ∧ a < i + [b, c].length then [b, c].getD (a - i) 0 else rest) =
      if a = i then b else if a = i + 1 then c else rest := by
  have here : (i ≤ a ∧ a < i + [b, c].length) ↔ a = i ∨ a = i + 1 := by
    show (i ≤ a ∧ a < i + 2) ↔ _
    omega
  simp only [here]
  by_cases first : a = i
  · rw [if_pos (.inl first), if_pos first, first, Nat.sub_self]
    rfl
  · by_cases second : a = i + 1
    · rw [if_pos (.inr second), if_neg first, if_pos second, second, Nat.add_sub_cancel_left]
      rfl
    · rw [if_neg (not_or.2 ⟨first, second⟩), if_neg first, if_neg second]

/-- Settles O43: the item of the search result (2, 0) is the byte at CUR. -/
theorem encStepLiteral : Obligations.EncStepLiteral := by
  intro s h he hm hc hf
  obtain ⟨t, hx, d, _⟩ := step_item h he hm hc hf
  refine ⟨t.index, t.outMem, t.encGptr, t.encCtrl, t.encCnt, d.advanceSpec, d.gptr, d.cnt, ?_, fun a => ?_, ?_⟩
  · rw [d.ctrl, ← twoPow_eq _ s.itemIndex_lt]
    rfl
  · have bytes : s.itemBytes (2, 0) = [s.window.byte s.cur.toNat] := rfl
    rw [d.mem, bytes, read_single]
  · rw [hx, d.endActivity, ← ofNat_add1]
    rfl

/-- The two bytes of a reference as numbers (R94). -/
theorem refBytes_ofNat (off : BitVec 12) {len : Nat} (h18 : len ≤ 18) :
    refByte0 off = BitVec.ofNat 8 (off.toNat % 256) ∧
      refByte1 off (refCode len) = BitVec.ofNat 8 (off.toNat / 256 * 16 + (len - 3)) := by
  have hoff := off.isLt
  have code : (refCode len).toNat = len - 3 := by
    rw [refCode, BitVec.toNat_ofNat]
    omega
  constructor <;> apply BitVec.eq_of_toNat_eq <;> rw [BitVec.toNat_ofNat]
  · rw [refByte0_toNat]
    omega
  · rw [refByte1_toNat, code]
    omega

/-- Settles O44: the item of a search result of 3 or more is a reference, its offset taken from CUR and the match. -/
theorem encStepReference : Obligations.EncStepReference := by
  intro s len pos h he hm hc hf h3
  obtain ⟨t, hx, d, found⟩ := step_item h he hm hc hf
  obtain ⟨h18, fits⟩ : len ≤ 18 ∧ s.cur.toNat + len ≤ s.endPos := by
    rcases found with two | ⟨_, h18, fits, _⟩
    · cases two
      omega
    · exact ⟨h18, fits⟩
  have span : itemSpan (len, pos) = len := if_pos h3
  have spec := d.advanceSpec
  have state := d.endActivity
  rw [span] at spec state
  set off := refOffset s.cur.toNat ((s.cur.toNat : Int) - pos) with hoff
  obtain ⟨byte0, byte1⟩ := refBytes_ofNat off h18
  have bytes : s.itemBytes (len, pos) = [refByte0 off, refByte1 off (refCode len)] := if_pos h3
  rw [bytes] at state
  refine ⟨t.index, t.outMem, t.encGptr, t.encCtrl, t.encCnt, off, spec, fits, ?_, d.gptr, d.cnt, ?_, fun a => ?_,
    hx.trans (congrArg Host.Outcome.next state)⟩
  · rw [hoff, refOffset_int]
    omega
  · rw [d.ctrl, if_pos h3]
    exact BitVec.or_zero
  · rw [d.mem, bytes, read_pair, byte0, byte1]

/-! ## ENC_FINISH -/

/-- Settles O45: the close of an open run, its header byte by byte. -/
theorem encFinishResult : Obligations.EncFinishResult := by
  intro s h he hm hc
  obtain ⟨t, hclose, closed, _⟩ := encClose_ok h hm
  refine ⟨t.outMem, fun a => ?_, ?_⟩
  · rw [closed.mem]
    simp only [encCnt_lt]
    by_cases h8 : a < 8
    · rw [if_pos h8, if_pos h8, header_getD _ _ _ h8]
    · have h4 : ¬ a < 4 := fun h4 => h8 (h4.trans (by decide))
      rw [if_neg h8, if_neg h4, if_neg h8]
  · rw [exec_encFinish he hm hc hclose]
    exact congrArg (fun x => Host.Outcome.next x.endActivity) closed.rest

end Sys2Proof.Machine
end

section
/-! The proofs of the statements of family 42_decoder. First the commands that run from what their bodies do, and
DECOMPRESS as a whole (its stepped form, the round trip, a group of literals); then DEC_START, what DEC_STEP reads, the
items with and without a control byte before them, and the frame. -/

namespace Sys2Proof.Machine

open State

variable {s t u d : State} {ix : Index}

/-! ## The commands run their bodies -/

/-- DEC_START, allowed in every mode (R183, R207). -/
theorem exec_decStart (he : s.err = .none) (hb : decStartBody s = .ok t) :
    exec .decStart s = .next t.endActivity :=
  run_body (i := .decStart) rfl he rfl (allowed_always (.inr (.inr (.inl rfl))) _) hb

/-- The header form runs under DEC_START's word (R90, R183, log 10). -/
theorem exec_streamHeader {c n : Word} (he : s.err = .none) (hb : headerBody c n s = .ok t) :
    exec (.streamHeader c n) s = .next t.endActivity :=
  run_body (i := .streamHeader c n) rfl he (by rw [execWord]; rfl) (allowed_always (.inr (.inr (.inl rfl))) _) hb

/-- DECOMPRESS, allowed in every mode, is DEC_START's body and the loop (R185, R207). -/
theorem exec_decompress (he : s.err = .none) (hstart : decStartBody s = .ok t)
    (hloop : decLoop (t.decU.toNat - t.outLen.toNat) t = .ok u) : exec .decompress s = .next u.endActivity := by
  refine run_body (i := .decompress) rfl he rfl (allowed_always (.inr (.inr (.inr rfl))) _) ?_
  rw [execBody, decompressBody, hstart, Run.ok_bind, hloop]

/-! ## DECOMPRESS -/

/-- Settles O54: the loop of DECOMPRESS is DEC_STEP repeated, from the state DEC_START ends in; no part reads BUSY. -/
theorem decompressIsStepped : Obligations.DecompressIsStepped := by
  intro s h he
  obtain ⟨t, start, inv⟩ := headerBody_keeps (s.le32 0) (s.le32 4) h he
  have rounds : t.mode = .decoding → t.decU.toNat ≤ t.outLen.toNat + (t.decU.toNat - t.outLen.toNat) :=
    fun _ => by omega
  obtain ⟨u, loop, _, ended⟩ := decLoop_ok _ inv rounds
  obtain ⟨n, steps, decoding⟩ := repeat_dec _ inv rounds loop
  exact ⟨t.endActivity, u.endActivity, n, exec_decStart he start, steps, decoding, ended,
    exec_decompress he start loop⟩

/-- An encode run just started has counted no control bit. -/
theorem encStarted_ctrlClear (s : State) (ix : Index) : CtrlClear (s.encStarted ix) :=
  fun noGroup => absurd noGroup (Fin.lt_irrefl 8)

/-- The window's data are the bytes of IN (R67). -/
theorem window_data {a : Nat} (ha : a < s.inLen.toNat) : s.window.byte (4096 + a) = s.inMem.read a := by
  rw [State.window_byte, if_neg (by omega), if_pos (Nat.add_lt_add_left ha _), Nat.add_sub_cancel_left]

/-- The finished stream agrees with the state that was closed: the close backfills the open group (R165). -/
theorem State.Closed.agrees (c : Closed s t) (he : s.EncodingOk) : Agrees t.outMem.read s := by
  refine ⟨fun a past _ notGroup => ?_, fun isOpen k _ => ?_⟩
  · rw [c.mem, if_neg (Nat.not_lt.2 past), if_neg fun control => notGroup control.1 control.2]
  · have past := (he.openGroup isOpen).1
    rw [c.mem, if_neg (Nat.not_lt.2 past), if_pos ⟨isOpen, rfl⟩]

/-- Just started, the decode run over the finished stream stands where the encode run stood (R183, R163). -/
theorem follows_started {F : Nat → Byte} {c : Word} (hF : ∀ a, a < d.inLen.toNat → d.inMem.read a = F a) :
    Follows F (s.encStarted ix) (d.decStarted c s.inLen) where
  stream a _ ha := hF a ha
  ptr := rfl
  bit := rfl
  ctrl noGroup := absurd noGroup (Fin.lt_irrefl 8)
  pos := rfl
  size := rfl
  done a none := absurd none (Nat.not_lt_zero a)

/-- Over a finished stream that fits, DEC_START opens a run for as many bytes as the encoder read (R183, R165). -/
theorem State.Closed.decStart (c : Closed s t) (header : 8 ≤ d.inLen.toNat) (hin : d.inLen.toNat ≤ d.inCap.toNat)
    (hout : s.inLen.toNat ≤ d.outCap.toNat) (read : ∀ a, a < d.inLen.toNat → d.inMem.read a = t.outMem.read a) :
    decStartBody d = .ok (d.decStarted (d.le32 0) s.inLen) := by
  have size : d.le32 4 = s.inLen := by
    rw [State.le32, read 4 (by omega), read 5 (by omega), read 6 (by omega), read 7 (by omega)]
    exact (closed_header c).2
  rw [decStartBody, size, headerBody_ok _ _ hin header hout]

/-- Settles O55: the header gives the decoder the input's length, and from there each of the encoder's items is met by
one step of the decoder, side by side. -/
theorem roundTrip : Obligations.RoundTrip := by
  intro s t d h he hi ho hx hd hde hlen hin hout hstream
  obtain ⟨ix, v, w, _, loop, inv, hv, hvm, _, same, closed, _, hw⟩ := run_compress h he hi ho
  obtain rfl : t = w.endActivity := Host.Outcome.next.inj (hx.symm.trans hw)
  have run := hv.run.encoding hvm
  have length : d.inLen = v.outLen := hlen.trans closed.outLen
  have header : 8 ≤ d.inLen.toNat := length ▸ run.headerOut
  have read : ∀ a, a < d.inLen.toNat → d.inMem.read a = w.outMem.read a := fun a ha => hstream a (hlen ▸ ha)
  have input : v.inLen = s.inLen := same.inLen
  have start := closed.decStart header hin (input ▸ hout) read
  rw [input] at start
  by_cases empty : s.inLen = 0
  · rw [empty] at start ⊢
    exact ⟨_, exec_decompress hde start rfl, rfl, rfl, hde, rfl, fun a none => absurd none (Nat.not_lt_zero a)⟩
  · have opened : (d.decStarted (d.le32 0) s.inLen).mode = .decoding := if_neg empty
    have below : 4096 < 4096 + s.inLen.toNat :=
      Nat.lt_add_of_pos_right (Nat.pos_of_ne_zero fun zero => empty (BitVec.eq_of_toNat_eq zero))
    obtain ⟨u, uloop, uerr, umode, udone, ulen, umem⟩ := (follows_started read).loop s.inLen.toNat inv rfl
      (encStarted_ctrlClear s ix) (decStarted_inv hd hde hin header hout) opened below (Nat.le_refl _) loop
      (closed.agrees run) (length ▸ Nat.le_refl _)
    have ulen : u.outLen.toNat = s.inLen.toNat := Nat.add_left_cancel ulen
    exact ⟨u.endActivity, exec_decompress hde start uloop, BitVec.eq_of_toNat_eq ulen, udone, uerr.trans hde, umode,
      fun a ha => (umem a (ulen ▸ ha)).trans (window_data ha)⟩

/-- Settles O53: the header opens the run, and the loop takes the literals one by one. -/
theorem decompressLiterals : Obligations.DecompressLiterals := by
  intro s n h he h1 h8 hn hctrl hlen hin hout
  have start : decStartBody s = .ok (s.decStarted (s.le32 0) (s.le32 4)) :=
    headerBody_ok _ _ hin (by omega) (by omega)
  have inv := decStarted_inv h he hin (by omega) (by omega) (c := s.le32 0) (u := s.le32 4)
  have opened : (s.decStarted (s.le32 0) (s.le32 4)).mode = .decoding :=
    if_neg fun none => by rw [none] at hn; exact absurd hn (Nat.ne_of_lt h1)
  obtain ⟨t, loop, len, done, mode, err, ptr, bit, ctrl, mem⟩ := decLoop_literals n h8 n (k := 0) inv opened rfl hn
    rfl rfl (fun ne => absurd rfl ne) hctrl hlen (Nat.zero_add n).symm h1
  refine ⟨t.endActivity, exec_decompress he start (by rw [← hn] at loop; exact loop), len, done, mode, err.trans he,
    ptr, bit, ctrl, fun a => ?_⟩
  rw [endActivity_outMem, mem]
  simp only [Nat.zero_le, true_and]
  rfl

/-! ## DEC_START -/

/-- Settles O49: both forms run the header's body, whose checks pass. -/
theorem decStartResult : Obligations.DecStartResult := by
  intro s he hin h8
  exact ⟨fun fits => exec_decStart he (headerBody_ok _ _ hin h8 fits),
    fun c n fits => exec_streamHeader he (headerBody_ok c n hin h8 fits)⟩

/-! ## What DEC_STEP reads -/

/-- Two bodies that agree on a state have the same meaning there. -/
theorem dispatch_congr {w : Word} {f g : State → Run State} (h : f s = g s) : dispatch w f s = dispatch w g s := by
  rw [dispatch, dispatch, h]

/-- A literal inside the stream is read at the cursor (R184). -/
theorem itemAt_literal {c : Cursor} (bit : c.ctrl.getLsbD c.bit.val = true) (inside : c.ptr < s.inLen.toNat)
    (fits : s.inLen.toNat ≤ s.inCap.toNat) : itemAt c s = literalItem c (s.inMem.read c.ptr) s := by
  rw [itemAt, if_pos bit, if_neg (Nat.not_le.2 inside), readIn_ok (inside.trans_le fits), Run.ok_bind]

/-- A reference inside the stream is read at the cursor (R184, R181). -/
theorem itemAt_reference {c : Cursor} (bit : c.ctrl.getLsbD c.bit.val = false) (inside : c.ptr + 2 ≤ s.inLen.toNat)
    (fits : s.inLen.toNat ≤ s.inCap.toNat) : itemAt c s = referenceItem c
      (refOff (s.inMem.read c.ptr) (s.inMem.read (c.ptr + 1)))
      (refLc (s.inMem.read c.ptr) (s.inMem.read (c.ptr + 1))) s := by
  rw [itemAt, if_neg (by rw [bit]; decide), if_neg (Nat.not_lt.2 inside), readIn_ok (by omega), Run.ok_bind,
    readIn_ok (by omega), Run.ok_bind]

/-- With no group open, DEC_STEP reads a control byte (R184, R91). -/
theorem exec_decStep_control (h : s.DecodingOk) (inside : s.decInPtr.toNat < s.inLen.toNat) (h8 : s.decBit = 8) :
    exec .decStep s = exec (.streamCtrl (s.inMem.read s.decInPtr.toNat)) s := by
  refine (dispatch_congr (g := groupItem _) ?_).trans (if_pos h8).symm
  rw [decStepBody, if_pos h8, if_neg (Nat.not_le.2 inside), readIn_ok (inside.trans_le h.fitsIn), Run.ok_bind]

/-- In an open group whose next control bit is 1, DEC_STEP reads a literal (R184, R93). -/
theorem exec_decStep_literal (h : s.DecodingOk) (inside : s.decInPtr.toNat < s.inLen.toNat) (h8 : s.decBit ≠ 8)
    (bit : s.decCtrl.getLsbD s.decBit.val = true) :
    exec .decStep s = exec (.lit (s.inMem.read s.decInPtr.toNat)) s := by
  refine (dispatch_congr (g := fun s => literalItem s.cursor _ s) ?_).trans (if_pos ⟨h8, bit⟩).symm
  rw [decStepBody, if_neg h8, itemAt_literal bit inside h.fitsIn]
  rfl

/-- In an open group whose next control bit is 0, DEC_STEP reads a reference (R184, R94). -/
theorem exec_decStep_reference (h : s.DecodingOk) (inside : s.decInPtr.toNat + 2 ≤ s.inLen.toNat)
    (h8 : s.decBit ≠ 8) (bit : s.decCtrl.getLsbD s.decBit.val = false) :
    exec .decStep s = exec (.ref (refOff (s.inMem.read s.decInPtr.toNat) (s.inMem.read (s.decInPtr.toNat + 1)))
      (refLc (s.inMem.read s.decInPtr.toNat) (s.inMem.read (s.decInPtr.toNat + 1)))) s := by
  refine (dispatch_congr (g := fun s => referenceItem s.cursor _ _ s) ?_).trans (if_pos ⟨h8, bit⟩).symm
  rw [decStepBody, if_neg h8, itemAt_reference bit inside h.fitsIn]
  rfl

/-- Settles O11: each form decoded from the bytes that stand there runs the body that the command runs. -/
theorem decoderReadsForms : Obligations.DecoderReadsForms :=
  ⟨fun s => ⟨.streamHeader (s.le32 0) (s.le32 4), rfl, rfl⟩, fun _ _ h inside =>
    ⟨fun h8 => ⟨_, rfl, exec_decStep_control h inside h8⟩,
      fun h8 bit => ⟨_, rfl, exec_decStep_literal h inside h8 bit⟩,
      fun h8 bit two => ⟨_, rfl, exec_decStep_reference h two h8 bit⟩⟩⟩

/-! ## Items -/

/-- An open decode run has room in OUT (R47). -/
theorem State.DecodingOk.room (h : s.DecodingOk) : s.outLen.toNat < s.outCap.toNat := h.unfinished.trans_le h.fitsOut

/-- The control bit after one of an open group. -/
theorem next_bit (h8 : s.decBit ≠ 8) : (Fin.ofNat 9 (s.decBit.val + 1)).val = s.decBit.val + 1 :=
  Nat.mod_eq_of_lt (bit_lt h8)

theorem closeStep_outMem (c : Cursor) (s : State) : (closeStep c s).outMem = s.outMem := by rw [closeStep_eq]

theorem closeStep_outLen (c : Cursor) (s : State) : (closeStep c s).outLen = s.outLen := by rw [closeStep_eq]

theorem closeStep_err (c : Cursor) (s : State) : (closeStep c s).err = s.err := by rw [closeStep_eq]

theorem closeStep_decCtrl (c : Cursor) (s : State) : (closeStep c s).decCtrl = c.ctrl := by rw [closeStep_eq]

theorem closeStep_decBit (c : Cursor) (s : State) : (closeStep c s).decBit = Fin.ofNat 9 (c.bit.val + 1) := by
  rw [closeStep_eq]

/-- A literal with room in OUT (R184). -/
theorem literalItem_eq (c : Cursor) (v : Byte) (room : s.outLen.toNat < s.outCap.toNat) :
    literalItem c v s = .ok (closeStep { c with ptr := c.ptr + 1 } (s.emitted v)) := by
  rw [literalItem, emit_ok v room, Run.ok_bind, Run.pure_eq]

/-- Settles O50: LIT appends its byte and closes the step; DEC_STEP is LIT of the byte at DEC_IN_PTR. -/
theorem literalResult : Obligations.LiteralResult := by
  intro s i v he hm h h8 bit hi
  have same : exec i s = exec (.lit v) s := by
    rcases hi with rfl | ⟨rfl, inside, rfl⟩
    · rfl
    · exact exec_decStep_literal h inside h8 bit
  refine ⟨s.outMem.write s.outLen.toNat v, Fin.ofNat 9 (s.decBit.val + 1), next_bit h8, Memory.read_write _ _ _, ?_⟩
  rw [same, run_lit he hm h8 bit (literalItem_eq _ v h.room), closeStep_eq, ← ofNat_add1 s.decInPtr, ← hm]
  rfl

/-- The state an item of an open run leaves (R184). -/
theorem State.Produced.endActivity {c : Cursor} {n : Nat} (p : Produced s c n t) (hm : s.mode = .decoding) :
    t.endActivity = { s with
      outMem := t.outMem, outLen := BitVec.ofNat 32 (s.outLen.toNat + n), decInPtr := BitVec.ofNat 32 c.ptr,
      decBit := Fin.ofNat 9 (c.bit.val + 1), decCtrl := c.ctrl,
      mode := if s.outLen.toNat + n = s.decU.toNat then .idle else .decoding,
      done := if s.outLen.toNat + n = s.decU.toNat then true else s.done, engine := .idle } := by
  rw [← word_ofNat p.outLen, ← hm]
  exact congrArg State.endActivity p.rest

/-- Settles O51: the copy that R182 describes, its bytes told by their distance from OUT_LEN. -/
theorem refResult : Obligations.RefResult := by
  intro s off lc len back he hm h h8 bit hlen hback nonzero fits
  obtain rfl : back = refBackset s.outLen.toNat off := Int.ofNat_inj.1 (hback.trans (refBackset_int _ _).symm)
  obtain rfl : len = refLength lc := hlen
  obtain ⟨u, copy, appended, bytes⟩ := copyRef_ok (fits.trans h.fitsOut) (Nat.one_le_iff_ne_zero.2 nonzero)
  have item : referenceItem s.cursor off lc s = .ok (closeStep { s.cursor with ptr := s.cursor.ptr + 2 } u) := by
    simp only [referenceItem, if_neg nonzero, if_neg (Nat.not_lt.2 fits), copy, Run.ok_bind, Run.pure_eq]
  refine ⟨u.outMem, Fin.ofNat 9 (s.decBit.val + 1), next_bit h8,
    fun a outside => outside.elim (appended.before a) (appended.after a), fun a low high => ?_, ?_⟩
  · have byte := bytes (a - s.outLen.toNat) (by omega)
    rwa [Nat.add_sub_cancel' low] at byte
  · rw [run_ref he hm h8 bit item, (appended.produced _).endActivity hm, closeStep_outMem, ← ofNat_add2 s.decInPtr]
    rfl

/-! ## A control byte and its item -/

/-- Closing a step overwrites the cursor in the registers (R184). -/
theorem closeStep_withCursor (c : Cursor) (p : Word) (b : Fin 9) (k : Byte) (u : State) :
    closeStep c (withCursor p b k u) = closeStep c u := by
  rw [closeStep_eq, closeStep_eq]
  rfl

/-- The state in a group just opened with a control byte, which has been consumed (R184). -/
def State.opened (s : State) (bits : Byte) : State := withCursor (s.decInPtr + 1) 0 bits s

/-- The cursor after a control byte inside the stream. -/
theorem opened_cursor (bits : Byte) (inside : s.decInPtr.toNat < s.inLen.toNat) :
    (s.opened bits).cursor = ⟨s.decInPtr.toNat + 1, 0, bits⟩ := by
  have bound := s.inLen.isLt
  have next : (s.decInPtr + 1).toNat = s.decInPtr.toNat + 1 := by
    rw [← ofNat_add1, BitVec.toNat_ofNat]
    omega
  rw [← next]
  rfl

/-- A reference item does not read the cursor in the registers; only where it raises an error does it leave them as
they were (R184, R223). -/
theorem referenceItem_withCursor (c : Cursor) (off : BitVec 12) (lc : BitVec 4) (p : Word) (b : Fin 9) (k : Byte)
    (he : s.err = .none) : referenceItem c off lc s = (referenceItem c off lc (withCursor p b k s)).map
      fun t => if t.err = .none then t else s.raise t.err t.errInfo := by
  have aside := withCursor_aside p b k
  simp only [referenceItem, aside.outLen, aside.copyRef, show (withCursor p b k s).decU = s.decU from rfl]
  split
  · rfl
  · split
    · rfl
    · rw [Run.map_bind, Run.bind_map]
      refine Run.bind_congr fun u copy => ?_
      have noErr : (closeStep { c with ptr := c.ptr + 2 } u).err = .none := by
        rw [closeStep_err, copyRef_frame copy]
        exact he
      rw [closeStep_withCursor, Run.pure_eq, Run.map_ok, if_pos noErr]

/-- With no error pending, a legal instruction that the mode allows has run its body when it ends. -/
theorem exec_ran {i : Instr} (he : s.err = .none) (hw : illegalWord (execWord i) = false)
    (ha : allowed ((execWord i).extractLsb' 0 8) s.mode = true) (e : exec i s = .next t) :
    ∃ u, execBody i s = .ok u ∧ t = u.endActivity := by
  rcases exec_next e with ⟨pending, _⟩ | ⟨_, _, _, _, ⟨_, illegal⟩ | ⟨_, refused⟩⟩ | ⟨_, _, _, ran⟩
  · exact absurd he pending
  · exact absurd (hw.symm.trans illegal) Bool.false_ne_true
  · exact absurd (refused.symm.trans ha) Bool.false_ne_true
  · exact ran

/-- The first literal of a group just opened. -/
theorem exec_lit_opened {bits : Byte} (v : Byte) (he : s.err = .none) (hm : s.mode = .decoding) (h : s.DecodingOk)
    (bit : bits.getLsbD 0 = true) (inside : s.decInPtr.toNat < s.inLen.toNat) :
    exec (.lit v) (s.opened bits) =
      .next (closeStep ⟨s.decInPtr.toNat + 2, 0, bits⟩ (s.emitted v)).endActivity := by
  have item := literalItem_eq (s := s.opened bits) (s.opened bits).cursor v h.room
  have first : (s.opened bits).decBit ≠ 8 := show (0 : Fin 9) ≠ 8 by decide
  rw [run_lit (s := s.opened bits) he hm first bit item, opened_cursor bits inside, opened,
    ← (withCursor_aside _ _ _).emitted, closeStep_withCursor]

/-- A control byte and a reference: as the first reference of the group it opens, but an error undoes the control byte
too (R184, R223). -/
theorem groupItem_reference {bits : Byte} (he : s.err = .none) (h : s.DecodingOk) (bit : bits.getLsbD 0 = false)
    (inside : s.decInPtr.toNat + 3 ≤ s.inLen.toNat)
    (item : referenceItem (s.opened bits).cursor
      (refOff (s.inMem.read (s.decInPtr.toNat + 1)) (s.inMem.read (s.decInPtr.toNat + 2)))
      (refLc (s.inMem.read (s.decInPtr.toNat + 1)) (s.inMem.read (s.decInPtr.toNat + 2))) (s.opened bits) = .ok u) :
    groupItem bits s = .ok (if u.err = .none then u else s.raise u.err u.errInfo) := by
  rw [opened_cursor bits (by omega), opened] at item
  rw [groupItem, itemAt_reference bit inside h.fitsIn,
    referenceItem_withCursor _ _ _ (s.decInPtr + 1) 0 bits he, item, Run.map_ok]

/-- Settles O52: the control byte opens the group, and its item is read at the cursor after it. -/
theorem streamCtrlResult : Obligations.StreamCtrlResult := by
  intro s bits he hm h h8
  refine ⟨fun v bit inside hv => ?_, fun off lc bit inside hdec t e => ?_⟩
  · subst hv
    have item : groupItem bits s = .ok _ :=
      (itemAt_literal bit (Nat.lt_of_succ_le inside) h.fitsIn).trans (literalItem_eq _ _ h.room)
    refine ⟨_, run_ctrl he hm h8 item, closeStep_decBit _ _, closeStep_decCtrl _ _, closeStep_outLen _ _, ?_,
      exec_lit_opened _ he hm h bit (by omega)⟩
    rw [endActivity_outMem, closeStep_outMem, emitted_outMem, Memory.read_write, if_pos rfl]
  · obtain ⟨rfl, rfl⟩ : refOff _ _ = off ∧ refLc _ _ = lc := by
      simpa only [decode, Option.some.injEq, Prod.mk.injEq, Instr.ref.injEq, and_true] using hdec
    obtain ⟨u, item, rfl⟩ := exec_ran (i := .ref _ _) (s := s.opened bits) he (by rw [execWord]; rfl)
      (congrArg (allowed 0x0E) hm) e
    rw [run_ctrl he hm h8 (groupItem_reference he h bit inside item), apply_ite State.endActivity]
    rfl

/-! ## The frame -/

/-- The tree, CUR, and the registers of the encoder and of the match index are as they were. -/
def OutsideDecoder (s t : State) : Prop :=
  t.index = s.index ∧ t.cur = s.cur ∧ t.matchLen = s.matchLen ∧ t.matchPos = s.matchPos ∧
    t.encGptr = s.encGptr ∧ t.encCnt = s.encCnt ∧ t.encCtrl = s.encCtrl ∧
    t.nodeParent = s.nodeParent ∧ t.nodeLeft = s.nodeLeft ∧ t.nodeRight = s.nodeRight

theorem OutsideDecoder.raise (s : State) (e : ErrCode) (w : Word) : OutsideDecoder s (s.raise e w) := by
  simp [OutsideDecoder]

/-- An item, or the stream error it raises (R184, R223). -/
theorem OutsideDecoder.item (h : (∃ e w, t = s.raise e w ∧ StreamError e) ∨ SameButDecoder s t) :
    OutsideDecoder s t := by
  rcases h with ⟨e, w, rfl, _⟩ | ⟨frame, _⟩
  · exact .raise s e w
  · rw [frame]
    simp [OutsideDecoder]

/-- A header, or the error it raises (R183, R223). -/
theorem OutsideDecoder.header {c n : Word} (h : headerBody c n s = .ok t) : OutsideDecoder s t := by
  rcases headerBody_frame h with ⟨e, w, rfl, _⟩ | rfl
  · exact .raise s e w
  · simp [OutsideDecoder, decStarted]

/-- A whole run (R185). -/
theorem OutsideDecoder.run (h : decompressBody s = .ok t) : OutsideDecoder s t := by
  rw [(decompressBody_frame h).1]
  simp [OutsideDecoder]

/-- Settles O30: by what each of the seven bodies writes; a refusal and a dispatch error write none of these. -/
theorem decoderFrame : Obligations.DecoderFrame := by
  intro i s t hi e
  rcases exec_next e with ⟨_, _, _, rfl⟩ | ⟨c, _, _, rfl, _⟩ | ⟨_, _, _, u, body, rfl⟩
  · simp
  · exact OutsideDecoder.raise s c (execWord i)
  · suffices h : OutsideDecoder s u from h
    rcases hi with rfl | rfl | rfl | ⟨_, _, rfl⟩ | ⟨_, rfl⟩ | ⟨_, rfl⟩ | ⟨_, _, rfl⟩
    · exact .header body
    · exact .item (decStepBody_frame body)
    · exact .run body
    · exact .header body
    · exact .item (itemAt_frame body)
    · exact .item (.inr (literalItem_frame body))
    · exact .item (referenceItem_frame body)

end Sys2Proof.Machine
end

section
/-! The proofs of the statements of family 43_system. First what lands in a step while an activity runs, then what the
dispatch does with NOP, with CLEAR_ERR and with any other word while an error is pending. -/

namespace Sys2Proof.Machine

variable {s t : State} {rest : List HostAccess}

/-! ## Steps -/

/-- With nothing coming from outside, the activity ends (R200, log 5). -/
theorem step_nil (h : s.host = []) : step s = .next s.endActivity := by
  cases s; cases h; rfl

/-- The end of no activity: an idle block stays as it is (R200). -/
theorem endActivity_of_idle (h : s.engine = .idle) : s.endActivity = s := by
  cases s; cases h; rfl

/-- Settles O9: an accepted word by `step_command`; the three ends of an activity; an idle block. -/
theorem stepRunsCommand : Obligations.StepRunsCommand := by
  refine ⟨fun s t w rest hb h e => step_command h hb e, fun s rest hb => ⟨step_nil, fun h => step_poll_busy h hb,
    step_engineEnds⟩, fun s hb h => ?_⟩
  rw [step_nil h, endActivity_of_idle hb]

/-! ## Host writes while BUSY = 1 -/

/-- A host write to CMD, ARG or IN_LEN while BUSY = 1 is dropped (R203). -/
theorem storeReg_busy {off : Nat} (v : Word) (hb : s.engine ≠ .idle) (h : off = 0x00 ∨ off = 0x04 ∨ off = 0x10) :
    storeReg off v s = s.dropped := by
  rcases h with rfl | rfl | rfl
  · rfl
  · rw [storeReg_arg, if_neg hb]
  · rw [storeReg_inLen, if_neg fun hg => hb hg.1]

/-- A host write to a read-only or reserved offset is ignored (R21, R38). -/
theorem storeReg_readOnly {off : Nat} (v : Word) (h0 : off ≠ 0x00) (h4 : off ≠ 0x04) (h16 : off ≠ 0x10) :
    storeReg off v s = s := by
  unfold storeReg
  split
  · exact absurd rfl h0
  · exact absurd rfl h4
  · exact absurd rfl h16
  · rfl

/-- A host write to REG while BUSY = 1 starts no command (R22, R203). -/
theorem step_storeReg_busy {off : Nat} {v : Word} (h : s.host = .storeReg off v :: rest) (hb : s.engine ≠ .idle)
    (ho : regOffset off = true) : step s = .next (storeReg off v { s with host := rest }) :=
  (step_storeReg h ho).trans (writeReg_of_busy (s := { s with host := rest }) off v hb)

/-- Settles O16: the three writable registers, IN, and the offsets whose writes are ignored. -/
theorem writesWhileBusy : Obligations.WritesWhileBusy := by
  refine fun s off a v b rest hb => ⟨fun h hw => ?_, fun h ha => ?_, fun h hal hle h0 h4 h16 => ?_⟩
  · have ho : regOffset off = true := (regOffset_iff off).2 (by omega)
    rw [step_storeReg_busy h hb ho, storeReg_busy (s := { s with host := rest }) v hb hw]
    rfl
  · rw [step_storeIn h ha, storeIn_eq]
    exact congrArg _ (if_neg fun hg => hb hg.1)
  · have ho : regOffset off = true := (regOffset_iff off).2 ⟨by omega, hal⟩
    rw [step_storeReg_busy h hb ho, storeReg_readOnly v h0 h4 h16]

/-! ## The dispatch of a pending error -/

/-- While an error is pending, every word but 0 and 1 is refused (R204). -/
theorem dispatch_refused {w : Word} (body : State → Run State) (he : s.err ≠ .none) (h0 : w ≠ 0) (h1 : w ≠ 1) :
    dispatch w body s = .next s.dropped.endActivity :=
  if_pos ⟨he, h0, h1⟩

/-- Settles O23: the refusal is the dispatch's first check; that no run is open then is part of the invariant. -/
theorem pendingErrorRefuses : Obligations.PendingErrorRefuses := by
  refine fun s w he => ⟨fun hw => ?_, fun hi => hi.run.errIdle he⟩
  have h0 : w ≠ 0 := by rintro rfl; exact absurd hw (by decide)
  have h1 : w ≠ 1 := by rintro rfl; exact absurd hw (by decide)
  rw [exec_command_dispatch, dispatch_refused _ he h0 h1]
  rfl

/-! ## NOP and CLEAR_ERR -/

/-- The words 0 and 1 run their bodies in every state: a pending error does not refuse them, they are legal, and
every mode allows them (R204, R207). -/
theorem dispatch_control {w : Word} {body : State → Run State} (hw : w = 0 ∨ w = 1) (hb : body s = .ok t) :
    dispatch w body s = .next t.endActivity := by
  have passes : ¬ (s.err ≠ .none ∧ w ≠ 0 ∧ w ≠ 1) := fun ⟨_, h0, h1⟩ => hw.elim h0 h1
  obtain ⟨legal, allow⟩ := controlWord_runs hw s.mode
  rw [dispatch, if_neg passes, legal, allow, hb]
  rfl

/-- A word with opcode 0x00 and another bit set is illegal, not NOP (R205, R88). -/
theorem illegalWord_of_opcode_zero {w : Word} (hop : w.extractLsb' 0 8 = 0) (hw : w ≠ 0) : illegalWord w = true := by
  rw [illegalWord_iff]
  have low : w.toNat % 256 = 0 := by simpa [BitVec.extractLsb'_toNat] using congrArg BitVec.toNat hop
  have pos : w.toNat ≠ 0 := fun h => hw (BitVec.eq_of_toNat_eq h)
  omega

/-- Settles O34: the two control words run their bodies in every state; the other words of opcode 0x00 are illegal. -/
theorem controlCommands : Obligations.ControlCommands :=
  ⟨fun _ => dispatch_control (body := execBody .nop) (.inl rfl) rfl,
    fun _ hop hw => if_pos (illegalWord_of_opcode_zero hop hw),
    fun _ => dispatch_control (body := execBody .clearErr) (.inr rfl) rfl⟩

end Sys2Proof.Machine
end

section
/-! The proofs of the statements of family 60_exceptions. First the dispatch errors and what an error leaves, then the
capacity checks, and the decoder's errors: a byte missing from the stream, a malformed or too long reference. -/

namespace Sys2Proof.Machine

open State

variable {s t : State} {i : Instr} {e : ErrCode} {w : Word}

/-! ## The dispatch errors -/

/-- Settles O24: the two conditions on the word are the dispatch's own check. -/
theorem illegalCommandRaises : Obligations.IllegalCommandRaises := by
  intro s w he hw
  have illegal : illegalWord w = true := by simpa [illegalWord] using hw
  rw [exec_command _ s rfl, dispatch, if_neg fun pending => pending.1 he]
  exact if_pos illegal

/-- The rows of R207 that depend on the mode, where they say "no". -/
theorem allowed_eq_false {op : Byte} {m : Mode}
    (h : 2 ≤ op.toNat ∧ op.toNat ≤ 6 ∧ m ≠ .idle ∨ 7 ≤ op.toNat ∧ op.toNat ≤ 8 ∧ m = .decoding ∨
      10 ≤ op.toNat ∧ op.toNat ≤ 11 ∧ m ≠ .encoding ∨ op.toNat = 14 ∧ m ≠ .decoding) :
    allowed op m = false := by
  unfold allowed
  rcases h with ⟨low, high, hm⟩ | ⟨low, high, hm⟩ | ⟨low, high, hm⟩ | ⟨hop, hm⟩
  · interval_cases op.toNat <;> exact beq_eq_false_iff_ne.2 hm
  · subst hm
    interval_cases op.toNat <;> rfl
  · interval_cases op.toNat <;> exact beq_eq_false_iff_ne.2 hm
  · rw [hop]
    exact beq_eq_false_iff_ne.2 hm

/-- The opcode of a word below 16 is the word. -/
theorem opcode_toNat (h : w.toNat < 16) : (w.extractLsb' 0 8).toNat = w.toNat := by
  rw [BitVec.extractLsb'_toNat, Nat.shiftRight_zero]
  omega

/-- Settles O25: a "no" of the mode table ends the dispatch; the two own checks are the first of their bodies. -/
theorem sequenceErrors : Obligations.SequenceErrors := by
  refine ⟨fun s w he hw => ?_, fun s he hm => ⟨fun hc => ?_, fun hc => ?_⟩⟩
  · have small : w.toNat < 16 := by omega
    have legal : illegalWord w = false := by
      rw [Bool.eq_false_iff, Ne, illegalWord_iff]
      omega
    have refused : allowed (w.extractLsb' 0 8) s.mode = false := by
      apply allowed_eq_false
      rwa [opcode_toNat small]
    rw [← execWord_decode w] at legal refused
    rw [exec_sequence (decodeCommand_space w) he legal refused, execWord_decode]
  · exact run_body (i := .encStep) (u := s.raise .sequence 0x0A) rfl he rfl (by rw [hm]; rfl) (if_pos hc)
  · exact run_body (i := .encFinish) (u := s.raise .sequence 0x0B) rfl he rfl (by rw [hm]; rfl) (if_pos hc)

/-- Settles O26: a refusal needs a pending error; a dispatch error and a body's error are raised and nothing else. -/
theorem errorKeepsTheRest : Obligations.ErrorKeepsTheRest := by
  intro s t w he hw hx ht
  rcases exec_next hx with ⟨pending, _⟩ | ⟨c, _, _, rfl, _⟩ | ⟨_, _, _, u, hu, rfl⟩
  · exact absurd he pending
  · rfl
  · have notDecompress : decodeCommand w ≠ .decompress := decodeCommand_ne fun h => hw (congrArg BitVec.toNat h)
    have notClearErr : decodeCommand w ≠ .clearErr := fun h => by
      rw [h] at hu
      cases hu
      exact ht rfl
    rcases execBody_err _ hu notDecompress notClearErr with ⟨c, info, _, rfl⟩ | ⟨same, _, _⟩
    · rfl
    · exact absurd (same.trans he) ht

/-! ## The capacity checks -/

/-- The first check of a command that reads IN fails (R218). -/
theorem checkInput_raises (part : Run State) (h : s.inCap.toNat < s.inLen.toNat) :
    s.checkInput part = .ok (s.raise .allocationFailure s.inLen) :=
  if_pos h

/-- An error of the ENC_START part ends COMPRESS (R166). -/
theorem exec_encoder_raises (hi : i = .encStart ∨ i = .compress) (he : s.err = .none)
    (hb : encStartBody s = .ok (s.raise e w)) : exec i s = .next (s.failed e w) := by
  rcases hi with rfl | rfl
  · exact exec_encStart he hb
  · refine exec_compress (t := s.raise e w) he ?_
    rw [compressBody, hb, Run.ok_bind, if_neg (by simp), Run.pure_eq]

/-- The loop of DECOMPRESS does nothing when no run is open (R185). -/
theorem decLoop_closed (n : Nat) (h : s.mode ≠ .decoding) : decLoop n s = .ok s := by
  cases n with
  | zero => rfl
  | succ n => exact if_neg h

/-- An error of the DEC_START part ends DECOMPRESS (R185). -/
theorem exec_decoder_raises (hi : i = .decStart ∨ i = .decompress) (he : s.err = .none)
    (hb : decStartBody s = .ok (s.raise e w)) : exec i s = .next (s.failed e w) := by
  rcases hi with rfl | rfl
  · exact exec_decStart he hb
  · exact exec_decompress he hb (decLoop_closed _ (by simp))

/-- The size check of ENC_START comes after that of IN_LEN (R163, R218). -/
theorem encStartBody_raises (hi : s.inLen.toNat ≤ s.inCap.toNat) (ho : s.outCap.toNat < worstCase s.inLen.toNat) :
    encStartBody s = .ok (s.raise .allocationFailure (BitVec.ofNat 32 (worstCase s.inLen.toNat))) :=
  (checkInput_ok _ hi).trans (if_pos ho)

/-- The size check of DEC_START comes after the two of IN_LEN (R183, R218). -/
theorem headerBody_raises {c u : Word} (hi : s.inLen.toNat ≤ s.inCap.toNat) (h8 : 8 ≤ s.inLen.toNat)
    (hu : s.outCap.toNat < u.toNat) : headerBody c u s = .ok (s.raise .allocationFailure u) := by
  rw [headerBody, if_neg (Nat.not_lt.2 hi), if_neg (Nat.not_lt.2 h8), if_pos hu]

/-- The only error of MF_REMOVE's body is INDEX_ARGUMENT (R136). -/
theorem mfRemoveBody_err (h : mfRemoveBody s = .ok t) : t.err = .indexArgument ∨ t.err = s.err := by
  simp only [mfRemoveBody] at h
  split at h
  · cases h; exact .inl rfl
  · obtain ⟨ix, _, h⟩ := Run.bind_ok h
    cases h
    exact .inr rfl

/-- The only error of MF_READ_NODE's body is INDEX_ARGUMENT (R139). -/
theorem mfReadNodeBody_err (h : mfReadNodeBody s = .ok t) : t.err = .indexArgument ∨ t.err = s.err := by
  unfold mfReadNodeBody at h
  split at h
  · cases h; exact .inl rfl
  · cases h; exact .inr rfl

/-- Settles O31: the check of IN_LEN is the first of each body that reads IN, and the size checks follow it; the three
commands that read no byte of IN raise SEQUENCE or INDEX_ARGUMENT at most. -/
theorem allocationFailure : Obligations.AllocationFailure := by
  refine ⟨fun s i he hlen hi => ?_, fun s i he hlen hout hi => ?_, fun s i he hlen h8 hout hi => ?_,
    fun s t i he hi hx => ?_⟩
  · rcases hi with ⟨hm, rfl | rfl | rfl⟩ | ⟨hm, rfl⟩ | hi | hi | hi | hi
    · exact exec_idle .mfInit rfl rfl rfl he hm (checkInput_raises _ hlen)
    · exact exec_idle .mfInsert rfl rfl rfl he hm (checkInput_raises _ hlen)
    · exact exec_idle .mfAdvance rfl rfl rfl he hm (checkInput_raises _ hlen)
    · exact exec_readsTree (.inl rfl) he hm (checkInput_raises _ hlen)
    · exact exec_encoder_raises (.inl hi) he (checkInput_raises _ hlen)
    · exact exec_encoder_raises (.inr hi) he (checkInput_raises _ hlen)
    · exact exec_decoder_raises (.inl hi) he (if_pos hlen)
    · exact exec_decoder_raises (.inr hi) he (if_pos hlen)
  · exact exec_encoder_raises hi he (encStartBody_raises hlen hout)
  · exact exec_decoder_raises hi he (headerBody_raises hlen h8 hout)
  · rcases exec_next hx with ⟨pending, _⟩ | ⟨c, _, _, rfl, ⟨rfl, _⟩ | ⟨rfl, _⟩⟩ | ⟨_, _, _, u, hu, rfl⟩
    · exact absurd he pending
    · simp
    · simp
    · have atMost : u.err = .indexArgument ∨ u.err = s.err := by
        rcases hi with rfl | rfl | rfl
        · cases hu; exact .inr rfl
        · exact mfRemoveBody_err hu
        · exact mfReadNodeBody_err hu
      rcases atMost with h | h <;> simp [h, he]

/-! ## A byte missing from the stream -/

/-- DEC_STEP, allowed in DECODING, ends with the error its body raises (R184, R207). -/
theorem exec_decStep_raises (he : s.err = .none) (hm : s.mode = .decoding) (hb : decStepBody s = .ok (s.raise e w)) :
    exec .decStep s = .next (s.failed e w) :=
  run_body (i := .decStep) rfl he rfl (by rw [hm]; rfl) hb

/-- The item at a cursor needs one byte or two, as its control bit says, and the last of them is missing (R216). -/
theorem itemAt_truncated {c : Cursor}
    (h : s.inLen.toNat < c.ptr + (if c.ctrl.getLsbD c.bit.val then 1 else 2)) :
    itemAt c s = .ok (s.raise .truncatedStream s.inLen) := by
  unfold itemAt
  split at h
  next bit => rw [if_pos bit, if_pos (Nat.le_of_lt_succ h)]
  next bit => rw [if_neg bit, if_pos h]

/-- Settles O32: the header is the first thing missing, or the control byte, or a byte of the item at the cursor. -/
theorem truncatedStream : Obligations.TruncatedStream := by
  refine ⟨fun s he hin h8 => ?_, fun s he hm h => ⟨fun hbit hptr => ?_, fun hbit hptr hlen => ?_, fun hbit hlen => ?_⟩⟩
  · refine exec_decStart he (t := s.raise .truncatedStream s.inLen) ?_
    rw [decStartBody, headerBody, if_neg (Nat.not_lt.2 hin), if_pos h8]
  · refine exec_decStep_raises he hm ?_
    rw [decStepBody, if_pos hbit, if_pos hptr]
  · refine exec_decStep_raises he hm ?_
    rw [decStepBody, if_pos hbit, if_neg (Nat.not_le.2 hptr), readIn_ok (hptr.trans_le h.fitsIn), Run.ok_bind]
    refine itemAt_truncated (c := ⟨s.decInPtr.toNat + 1, 0, s.inMem.read s.decInPtr.toNat⟩) (hlen.trans_eq ?_)
    simp only [Fin.val_zero, Nat.add_assoc]
    split <;> rfl
  · refine exec_decStep_raises he hm ?_
    rw [decStepBody, if_neg hbit]
    exact itemAt_truncated hlen

/-! ## A reference -/

/-- A reference with a backset other than 0 is not malformed: it is too long, or it is copied (R187, R219). -/
theorem referenceItem_err {c : Cursor} {off : BitVec 12} {lc : BitVec 4} (nonzero : refBackset s.outLen.toNat off ≠ 0)
    (h : referenceItem c off lc s = .ok t) : t.err = .outputOverrun ∨ t.err = s.err := by
  simp only [referenceItem, if_neg nonzero] at h
  split at h
  · cases h; exact .inl rfl
  · obtain ⟨u, copy, h⟩ := Run.bind_ok h
    cases h
    rw [closeStep_err, copyRef_frame copy]
    exact .inr rfl

/-- Settles O33: the backset is checked before the size. -/
theorem referenceErrors : Obligations.ReferenceErrors := by
  intro s off lc he hm h8 bit
  rw [← refBackset_int, Ne, Int.natCast_eq_zero]
  refine ⟨fun zero => run_ref he hm h8 bit (if_pos zero), fun nonzero t hx => ?_, fun nonzero long => ?_⟩
  · obtain ⟨u, item, rfl⟩ := exec_ran (i := .ref off lc) he (by rw [execWord]; rfl) (congrArg (allowed 0x0E) hm) hx
    rcases referenceItem_err nonzero item with h | h <;> simp [h, he]
  · exact run_ref he hm h8 bit ((if_neg nonzero).trans (if_pos long))

end Sys2Proof.Machine
end

section
/-! The proofs of the statements of family 70_reset_and_hazards. First what the reset state shows, then the step in which
the platform asserts reset. -/

namespace Sys2Proof.Machine

variable {s : State} {rest : List HostAccess}

/-! ## The values after reset -/

/-- An empty tree has empty entries only (R41, R126). -/
@[simp] theorem node_cleared (k : Slot) : Index.cleared.node k = .empty := rfl

/-- The registers at their reset values (R241) while the engine is doing `e`: STATUS shows BUSY, and no other register
depends on `e`, nor does any on the memories or on the model's own fields. -/
theorem registers_afterReset (inCap outCap : Word) (inMem outMem : Memory) (e : Engine) (l : List HostAccess) (d : Word)
    (n : Nat) :
    State.registers { State.afterReset inCap outCap inMem outMem with
      engine := e, host := l, readData := d, freeCount := n } =
    [(0x00, 0), (0x04, 0), (0x08, if e = .idle then 0 else 1), (0x0C, 0), (0x10, 0), (0x14, 0), (0x18, 0x1000),
      (0x1C, 0x1000), (0x20, 2), (0x24, 0), (0x28, 0x1000), (0x2C, 0x1000), (0x30, 0x1000), (0x34, 0), (0x38, 8),
      (0x3C, 0), (0x40, 0), (0x44, 0), (0x48, 8), (0x4C, 0x53535A4C), (0x50, inCap.toNat), (0x54, outCap.toNat)] := rfl

/-- Settles O21: the registers of an idle engine at reset; the reserved offsets; the empty tree. -/
theorem resetValues : Obligations.ResetValues := by
  rintro inCap outCap inMem outMem s rfl
  exact ⟨rfl, registers_afterReset inCap outCap inMem outMem .idle [] 0 0,
    fun _ reserved => regView_reserved (Nat.lt_of_lt_of_le (by decide) reserved), node_cleared⟩

/-! ## The platform's reset -/

/-- The platform's reset lands whatever runs (R240). -/
theorem step_platformReset (h : s.host = .platformReset :: rest) :
    step s = .next (platformReset { s with host := rest }) := by
  cases s; cases h; rfl

/-- Settles O22: the registers of a resetting engine; with nothing waiting, the reset sequence ends. -/
theorem platformReset_spec : Obligations.PlatformReset := by
  intro s rest h
  exact ⟨_, step_platformReset h, rfl, rfl, registers_afterReset s.inCap s.outCap _ _ .resetting rest s.readData _,
    node_cleared, step_nil rfl⟩

end Sys2Proof.Machine
end
